-- ==== Sys2Proof/Word.lean ====
section
/-!
DEFINITION. The word types of the block (00_scope.md R4: MCG and OSC registers are 8 bits wide, the SIM registers, the
pin-control registers, the host window and the command word 32 bits; 20_memory.md R60: addresses are 32 bits).
-/
namespace Sys2Proof

/-- An 8-bit register or operand field. -/
abbrev Byte := BitVec 8

/-- A 32-bit register, command word or bus address. -/
abbrev Word := BitVec 32

end Sys2Proof
end

