-- ==== Sys2Proof/Machine/Bits.lean ====
section
/-!
DEFINITION. Bit fields (00_scope.md R10 to R13): reading a field as an unsigned number, writing a field while every other
bit keeps its value, and the four-bit reversal.
-/
namespace Sys2Proof.Machine

/-- `v[lo+len-1 : lo]` as an unsigned number (R10). -/
def field {n : Nat} (x : BitVec n) (lo len : Nat) : Nat :=
  (x.extractLsb' lo len).toNat

/-- The `n`-bit mask with ones exactly at bits `lo` to `lo+len-1`. -/
def fieldMask (n lo len : Nat) : BitVec n :=
  BitVec.ofNat n (2 ^ len - 1) <<< lo

/-- `X.F <- v` for the field `F = [lo+len-1 : lo]` (R12): `X` with the bits of `F` replaced by the low `len` bits of `v`. -/
def setField {n : Nat} (x : BitVec n) (lo len v : Nat) : BitVec n :=
  (x &&& ~~~(fieldMask n lo len)) ||| (BitVec.ofNat n (v % 2 ^ len) <<< lo)

/-- `X[b] <- v` for a single bit (R12). -/
def setBit {n : Nat} (x : BitVec n) (b : Nat) (v : Bool) : BitVec n :=
  setField x b 1 v.toNat

/-- `rev4(c)` (R13): `rev4(c)[3-k] = c[k]`. -/
def rev4 (c : BitVec 4) : BitVec 4 :=
  c.extractLsb' 0 1 ++ c.extractLsb' 1 1 ++ c.extractLsb' 2 1 ++ c.extractLsb' 3 1

end Sys2Proof.Machine
end

