-- ==== Sys2Proof/Syntax.lean ====
section
/-!
DEFINITION. The command set (30_encoding.md R86), one constructor per row of the opcode table, and the pseudo-instructions
of R91 with their expansions.

An operand is the unsigned number its field holds (R83). It is a plain number here: `Instr.WellFormed` says that it fits
its field, and the command's own rule checks its legal range.
-/
namespace Sys2Proof

/-- A command (R86). -/
inductive Instr where
  /-- `osc.acquire`, OP 0x01. -/
  | oscAcquire
  /-- `osc.release`, OP 0x02. -/
  | oscRelease
  /-- `osc.enable CAP`, OP 0x03. -/
  | oscEnable (cap : Nat)
  /-- `mcg.acquire`, OP 0x08. -/
  | mcgAcquire
  /-- `mcg.release`, OP 0x09. -/
  | mcgRelease
  /-- `mcg.extref RANGE, DIV`, OP 0x0A. -/
  | mcgEnableExtRef (range div : Nat)
  /-- `mcg.pll NUM, DEN`, OP 0x0B. -/
  | mcgEnablePll (num den : Nat)
  /-- `mcg.selpll`, OP 0x0C. -/
  | mcgSelectPll
  /-- `sim.acquire`, OP 0x10. -/
  | simAcquire
  /-- `sim.release`, OP 0x11. -/
  | simRelease
  /-- `gate.acquire REG, BIT`, OP 0x12. -/
  | gateAcquire (reg bit : Nat)
  /-- `gate.release REG, BIT`, OP 0x13. -/
  | gateRelease (reg bit : Nat)
  /-- `sim.dividers CORE, BUS, FLASH`, OP 0x14. -/
  | simSetDividers (core bus flash : Nat)
  /-- `port.acquire PORT`, OP 0x18. -/
  | portAcquire (port : Nat)
  /-- `port.release PORT`, OP 0x19. -/
  | portRelease (port : Nat)
  /-- `pin.acquire PORT, IDX`, OP 0x1A. -/
  | pinAcquire (port idx : Nat)
  /-- `pin.release PORT, IDX`, OP 0x1B. -/
  | pinRelease (port idx : Nat)
  /-- `pin.gpio PORT, IDX`, OP 0x1C. -/
  | pinMakeGpio (port idx : Nat)
  /-- `pin.rx UNIT, PORT, IDX`, OP 0x1D. -/
  | pinMakeRx (unit port idx : Nat)
  /-- `pin.tx UNIT, PORT, IDX`, OP 0x1E. -/
  | pinMakeTx (unit port idx : Nat)
  deriving DecidableEq, Repr

/-- The pseudo-instructions (R91). -/
inductive Pseudo where
  | pinAcquireGpio (port idx : Nat)
  | pinAcquireRx (unit port idx : Nat)
  | pinAcquireTx (unit port idx : Nat)
  | clockPll (cap range div num den : Nat)
  deriving DecidableEq, Repr

/-- The expansion of a pseudo-instruction (R91). -/
def Pseudo.expand : Pseudo → List Instr
  | .pinAcquireGpio p i => [.pinAcquire p i, .pinMakeGpio p i]
  | .pinAcquireRx u p i => [.pinAcquire p i, .pinMakeRx u p i]
  | .pinAcquireTx u p i => [.pinAcquire p i, .pinMakeTx u p i]
  | .clockPll cap range div num den =>
    [.oscAcquire, .oscEnable cap, .mcgAcquire, .mcgEnableExtRef range div, .mcgEnablePll num den, .mcgSelectPll]

end Sys2Proof
end

