-- ==== Sys2Proof/WellFormed.lean ====
section
/-!
DEFINITION. Well-formed commands: every operand fits its field (30_encoding.md R82, R83; R90 calls an operand that does not
fit an assembly error). A well-formed operand need not be legal: the command's rule checks that.
-/
namespace Sys2Proof

/-- Every operand is a number of its field's width (R82). -/
def Instr.wellFormed : Instr → Bool
  | .oscAcquire | .oscRelease | .mcgAcquire | .mcgRelease | .mcgSelectPll | .simAcquire | .simRelease => true
  | .oscEnable cap => cap < 2 ^ 8
  | .mcgEnableExtRef range div => range < 2 ^ 2 && div < 2 ^ 16
  | .mcgEnablePll num den => num < 2 ^ 8 && den < 2 ^ 8
  | .gateAcquire reg bit => reg < 2 ^ 8 && bit < 2 ^ 8
  | .gateRelease reg bit => reg < 2 ^ 8 && bit < 2 ^ 8
  | .simSetDividers core bus flash => core < 2 ^ 8 && bus < 2 ^ 8 && flash < 2 ^ 8
  | .portAcquire port => port < 2 ^ 8
  | .portRelease port => port < 2 ^ 8
  | .pinAcquire port idx => port < 2 ^ 8 && idx < 2 ^ 8
  | .pinRelease port idx => port < 2 ^ 8 && idx < 2 ^ 8
  | .pinMakeGpio port idx => port < 2 ^ 8 && idx < 2 ^ 8
  | .pinMakeRx unit port idx => unit < 2 ^ 8 && port < 2 ^ 8 && idx < 2 ^ 8
  | .pinMakeTx unit port idx => unit < 2 ^ 8 && port < 2 ^ 8 && idx < 2 ^ 8

/-- `i.wellFormed` as a proposition. -/
abbrev Instr.WellFormed (i : Instr) : Prop := i.wellFormed = true

end Sys2Proof
end

