-- ==== Sys2Proof/Decode.lean ====
section
/-!
DEFINITION. The command encoding (30_encoding.md R81 to R88): formats, decoder, encoder.

A command is one 32-bit word, taken whole by one aligned 32-bit store (R81), so the decoder reads a word; it is total and
rejects by name.
-/
namespace Sys2Proof

open Sys2Proof.Machine (field)

/-- Why a word is no command (R88). -/
inductive DecodeError where
  /-- `w[31:24]` is not an opcode of R86. -/
  | undefinedOpcode
  /-- A reserved bit of the opcode's format is 1. -/
  | reservedNonzero
  deriving DecidableEq, Repr

/-- The formats (R82). -/
inductive Format where
  | f0 | fc | fx | fp | fg | fd | ft | fn | fu
  deriving DecidableEq, Repr

/-- The bits of a format that must be 0 (R82). -/
def Format.reservedMask : Format → Word
  | .f0 => 0x00FFFFFF
  | .fc => 0x00FFFF00
  | .fx => 0x00FC0000
  | .fp => 0x00FF0000
  | .fg => 0x00FF0000
  | .fd => 0x00000000
  | .ft => 0x00FF00FF
  | .fn => 0x00FF0000
  | .fu => 0x00000000

/-- The second check of R89 on a word whose opcode names `i`: the reserved bits of its format are 0. -/
def checkReserved (f : Format) (w : Word) (i : Instr) : Except DecodeError Instr :=
  if w &&& f.reservedMask = 0 then .ok i else .error .reservedNonzero

/-- The command a word encodes (R82, R86), checked in the order of R89: the opcode, then the reserved bits. -/
def decode (w : Word) : Except DecodeError Instr :=
  let b0 := field w 0 8
  let b1 := field w 8 8
  let b2 := field w 16 8
  match field w 24 8 with
  | 0x01 => checkReserved .f0 w .oscAcquire
  | 0x02 => checkReserved .f0 w .oscRelease
  | 0x03 => checkReserved .fc w (.oscEnable b0)
  | 0x08 => checkReserved .f0 w .mcgAcquire
  | 0x09 => checkReserved .f0 w .mcgRelease
  | 0x0A => checkReserved .fx w (.mcgEnableExtRef (field w 16 2) (field w 0 16))
  | 0x0B => checkReserved .fp w (.mcgEnablePll b1 b0)
  | 0x0C => checkReserved .f0 w .mcgSelectPll
  | 0x10 => checkReserved .f0 w .simAcquire
  | 0x11 => checkReserved .f0 w .simRelease
  | 0x12 => checkReserved .fg w (.gateAcquire b1 b0)
  | 0x13 => checkReserved .fg w (.gateRelease b1 b0)
  | 0x14 => checkReserved .fd w (.simSetDividers b2 b1 b0)
  | 0x18 => checkReserved .ft w (.portAcquire b1)
  | 0x19 => checkReserved .ft w (.portRelease b1)
  | 0x1A => checkReserved .fn w (.pinAcquire b1 b0)
  | 0x1B => checkReserved .fn w (.pinRelease b1 b0)
  | 0x1C => checkReserved .fn w (.pinMakeGpio b1 b0)
  | 0x1D => checkReserved .fu w (.pinMakeRx b2 b1 b0)
  | 0x1E => checkReserved .fu w (.pinMakeTx b2 b1 b0)
  | _ => .error .undefinedOpcode

/-- The opcode of a command (R86). -/
def Instr.opcode : Instr → Nat
  | .oscAcquire => 0x01
  | .oscRelease => 0x02
  | .oscEnable _ => 0x03
  | .mcgAcquire => 0x08
  | .mcgRelease => 0x09
  | .mcgEnableExtRef _ _ => 0x0A
  | .mcgEnablePll _ _ => 0x0B
  | .mcgSelectPll => 0x0C
  | .simAcquire => 0x10
  | .simRelease => 0x11
  | .gateAcquire _ _ => 0x12
  | .gateRelease _ _ => 0x13
  | .simSetDividers _ _ _ => 0x14
  | .portAcquire _ => 0x18
  | .portRelease _ => 0x19
  | .pinAcquire _ _ => 0x1A
  | .pinRelease _ _ => 0x1B
  | .pinMakeGpio _ _ => 0x1C
  | .pinMakeRx _ _ _ => 0x1D
  | .pinMakeTx _ _ _ => 0x1E

/-- The format of a command (R86). -/
def Instr.format : Instr → Format
  | .oscAcquire | .oscRelease | .mcgAcquire | .mcgRelease | .mcgSelectPll | .simAcquire | .simRelease => .f0
  | .oscEnable _ => .fc
  | .mcgEnableExtRef _ _ => .fx
  | .mcgEnablePll _ _ => .fp
  | .gateAcquire _ _ | .gateRelease _ _ => .fg
  | .simSetDividers _ _ _ => .fd
  | .portAcquire _ | .portRelease _ => .ft
  | .pinAcquire _ _ | .pinRelease _ _ | .pinMakeGpio _ _ => .fn
  | .pinMakeRx _ _ _ | .pinMakeTx _ _ _ => .fu

/-- The operand bits `[23:0]` of a command (R82). -/
def Instr.operandBits : Instr → Nat
  | .oscAcquire | .oscRelease | .mcgAcquire | .mcgRelease | .mcgSelectPll | .simAcquire | .simRelease => 0
  | .oscEnable cap => cap
  | .mcgEnableExtRef range div => range * 2 ^ 16 + div
  | .mcgEnablePll num den => num * 2 ^ 8 + den
  | .gateAcquire reg bit | .gateRelease reg bit => reg * 2 ^ 8 + bit
  | .simSetDividers core bus flash => core * 2 ^ 16 + bus * 2 ^ 8 + flash
  | .portAcquire port | .portRelease port => port * 2 ^ 8
  | .pinAcquire port idx | .pinRelease port idx | .pinMakeGpio port idx => port * 2 ^ 8 + idx
  | .pinMakeRx unit port idx | .pinMakeTx unit port idx => unit * 2 ^ 16 + port * 2 ^ 8 + idx

/-- The word of a well-formed command: `OP << 24 | fields` (R87). -/
def encode (i : Instr) : Word :=
  BitVec.ofNat 32 (i.opcode * 2 ^ 24 + i.operandBits)

/-- The command read from a table word `w` of `nbits` bits, bit 0 the least significant, the bits above `nbits` zero. A
command is stored to CMD as one 32-bit value (R81), so the word itself is what the decoder reads; a number of more than 32
bits is no command word. -/
def decodeTableWord (nbits w : Nat) : Option Instr :=
  if w % 2 ^ nbits < 2 ^ 32 then (decode (BitVec.ofNat 32 (w % 2 ^ nbits))).toOption else none

end Sys2Proof
end

