-- ==== Sys2Proof/Config.lean ====
section
/-!
DEFINITION. The resources of the block and its implementation parameters (00_scope.md R4, 10_state.md R52).

The parameters the spec calls OPEN are "arguments of the model": they are the fields of `Params`, and a machine state
carries its parameters (assumption 1), so that a statement about every state is a statement about every choice of them.
-/
namespace Sys2Proof

/-- The ports with pin arbitration, `PORTS = {B, C}` (R4). -/
inductive Port where
  | b
  | c
  deriving DecidableEq, Repr

/-- The gate registers, `GATE_REGS = {4, 5, 6, 7}` (R4): `SIM_SCGC4` to `SIM_SCGC7`. -/
inductive GateReg where
  | scgc4
  | scgc5
  | scgc6
  | scgc7
  deriving DecidableEq, Repr

/-- One clock gate `(n, b)` (10_state.md R32, R47; `GATE_BITS` of R4 are 0 to 31). -/
structure Gate where
  reg : GateReg
  bit : Fin 32
  deriving DecidableEq, Repr

/-- One pin `(p, i)` (10_state.md R34; `PINS_PER_PORT` of R4 is 32). -/
structure Pin where
  port : Port
  idx : Fin 32
  deriving DecidableEq, Repr

/-- The serial units, `UNITS = {0}` (R4). -/
inductive SerialUnit where
  | unit0
  deriving DecidableEq, Repr

/-- `P_ENV` (R4, 41_clock_generator.md R117, R118). -/
inductive EnvModel where
  | free
  | reference
  deriving DecidableEq, Repr

/-- The parameters of R4 and R52. No step writes them. -/
structure Params where
  /-- `P_CTRL_BASE[31:4]`: the base is 16-byte aligned (R4, 20_memory.md R63), so its low four bits are not stored. -/
  ctrlBlock : BitVec 28
  /-- `P_ENV`. -/
  env : EnvModel
  /-- `P_ENV_FAIR` (41_clock_generator.md R119): an assumption on runs (`Safety.fair`); no step reads it. -/
  envFair : Bool
  /-- `PORT_GATE(B)`. -/
  portGateB : Gate
  /-- `PORT_GATE(C)`. -/
  portGateC : Gate
  /-- `RX_PIN(0)`. -/
  rxPin0 : Pin
  /-- `TX_PIN(0)`. -/
  txPin0 : Pin
  /-- `RST_C1`. -/
  rstC1 : Byte
  /-- `RST_C2`. -/
  rstC2 : Byte
  /-- `RST_C5`. -/
  rstC5 : Byte
  /-- `RST_C6`. -/
  rstC6 : Byte
  /-- `RST_S`. -/
  rstS : Byte
  /-- `RST_OSC_CR`. -/
  rstOscCr : Byte
  /-- `RST_CLKDIV1`. -/
  rstClkdiv1 : Word
  /-- `RST_SCGC4`. -/
  rstScgc4 : Word
  /-- `RST_SCGC5`. -/
  rstScgc5 : Word
  /-- `RST_SCGC6`. -/
  rstScgc6 : Word
  /-- `RST_SCGC7`. -/
  rstScgc7 : Word
  /-- `RST_PCR`, the reset value of every pin-control register. -/
  rstPcr : Word
  deriving DecidableEq, Repr

/-- `P_CTRL_BASE`. -/
def Params.ctrlBase (p : Params) : Word := p.ctrlBlock ++ 0#4

/-- `PORT_GATE(p)`. -/
def Params.portGate (p : Params) : Port → Gate
  | .b => p.portGateB
  | .c => p.portGateC

/-- `RX_PIN(u)`. -/
def Params.rxPin (p : Params) : SerialUnit → Pin
  | .unit0 => p.rxPin0

/-- `TX_PIN(u)`. -/
def Params.txPin (p : Params) : SerialUnit → Pin
  | .unit0 => p.txPin0

/-- `RST_SCGCn`. -/
def Params.rstScgc (p : Params) : GateReg → Word
  | .scgc4 => p.rstScgc4
  | .scgc5 => p.rstScgc5
  | .scgc6 => p.rstScgc6
  | .scgc7 => p.rstScgc7

/-- The values R4 and R52 recommend (PRESUMED: the spec marks them as general knowledge of the part; assumptions 2, 4), with
`P_ENV = FREE` and `P_ENV_FAIR = false` as R4's defaults (assumption 5).
DESIGN CHOICE: `P_CTRL_BASE = 0x50000000`, for which no value is recommended (assumption 3). -/
def Params.recommended : Params where
  ctrlBlock := 0x5000000#28
  env := .free
  envFair := false
  portGateB := ⟨.scgc5, 10⟩
  portGateC := ⟨.scgc5, 11⟩
  rxPin0 := ⟨.b, 16⟩
  txPin0 := ⟨.b, 17⟩
  rstC1 := 0x04
  rstC2 := 0x80
  rstC5 := 0x00
  rstC6 := 0x00
  rstS := 0x10
  rstOscCr := 0x00
  rstClkdiv1 := 0x00010000
  rstScgc4 := 0xF0100030
  rstScgc5 := 0x00040182
  rstScgc6 := 0x40000001
  rstScgc7 := 0x00000006
  rstPcr := 0x00000000

end Sys2Proof
end

