-- ==== Sys2Proof/Machine/State.lean ====
section
/-!
DEFINITION. The machine's state (10_state.md), the reasons a step can stop, and the state after reset
(70_reset_and_hazards.md R217).
-/
namespace Sys2Proof.Machine

/-- The FSM phase (10_state.md R27). -/
inductive Phase where
  /-- no command in progress -/
  | idle
  /-- waiting for `MCG_S.OSCINIT0 = 1` -/
  | wOscinit
  /-- waiting for `MCG_S.IREFST = 0` -/
  | wIrefst
  /-- waiting for `MCG_S.CLKST = 2` -/
  | wClkstExt
  /-- waiting for `MCG_S.PLLST = 1` -/
  | wPllst
  /-- waiting for `MCG_S.LOCK0 = 1` -/
  | wLock
  /-- waiting for `MCG_S.CLKST = 3` -/
  | wClkstPll
  /-- a fatal error was raised; sticky until reset -/
  | fatal
  deriving DecidableEq, Repr

/-- The fatal codes (60_exceptions.md R193); their numbers are `FatalCode.code`. -/
inductive FatalCode where
  | badCapacitance
  | badRange
  | badDivisor
  | badPllNumerator
  | badPllDenominator
  | badDividerCore
  | badDividerBus
  | badDividerFlash
  | badGateRegister
  | badGateBit
  | badPort
  | badPinIndex
  | badSerialUnit
  | modeMismatch
  | oscOwned
  | mcgOwned
  | simOwned
  | gateSet
  | pinLocked
  | rxPinMismatch
  | txPinMismatch
  | notOwned
  | illegalTransition
  | noOscToken
  | pinAlreadyConverted
  | portInUse
  | cmdWhileBusy
  | undefinedOpcode
  | reservedNonzero
  deriving DecidableEq, Repr

/-- The clock mode owned by the holder of the clock generator (10_state.md R31); `noMode` is the spec's `NONE`. -/
inductive Mode where
  | noMode
  | internalLocked
  | externalReference
  | phaseLocked
  deriving DecidableEq, Repr

/-- Who holds the ClockGate capability of a gate bit (10_state.md R32); `nobody` is the spec's `NONE`, `port p` its `PORT_p`. -/
inductive Owner where
  | nobody
  | host
  | port (p : Port)
  deriving DecidableEq, Repr

/-- The capability held on a pin (10_state.md R34); `free` is the spec's `NONE`. -/
inductive Cap where
  | free
  | pin
  | gpio
  | rx (u : SerialUnit)
  | tx (u : SerialUnit)
  deriving DecidableEq, Repr

/-- One bus access of HOST (20_memory.md R69, R70): the byte address, the number of bytes, and the value written. -/
inductive Access where
  | read (addr : Word) (bytes : Nat)
  | write (addr : Word) (bytes : Nat) (value : Word)
  deriving DecidableEq, Repr

/-- The sources of a reset (70_reset_and_hazards.md R216). -/
inductive ResetSource where
  | powerOn
  | system
  | watchdog
  deriving DecidableEq, Repr

/-- One turn of the run: which agent is to move next (00_scope.md R5), or a reset from outside (R216). -/
inductive Turn where
  /-- HOST performs the next access of its program. -/
  | host
  /-- BLOCK takes its poll step, or holds. -/
  | block
  /-- ENV drives `MCG_S`; `status` is the value it draws under `P_ENV = FREE` (R117), any value at all. -/
  | env (status : Byte)
  /-- The block is reset. -/
  | reset (source : ResetSource)
  deriving DecidableEq, Repr

/-- The state of the machine. The comment on each field names the rule of the spec that gives it. -/
structure State where
  /-- The parameters of R4 and R52: fixed for a run, written by no step (assumption 1). -/
  params : Params
  /-- `phase`, R27. -/
  phase : Phase
  /-- `fatal_code`, R28: `none` is 0x00, no fatal error raised. -/
  fatalCode : Option FatalCode
  /-- `osc_held`, R29. -/
  oscHeld : Bool
  /-- `mcg_held`, R29. -/
  mcgHeld : Bool
  /-- `sim_held`, R29. -/
  simHeld : Bool
  /-- `osc_token`, R30. -/
  oscToken : Bool
  /-- `mode`, R31. -/
  mode : Mode
  /-- `gate_owner[n][b]`, R32, in the order of `Gate.index`. -/
  gateOwner : Vector Owner 128
  /-- `cap[p][i]`, R34, in the order of `Pin.index`. -/
  cap : Vector Cap 64
  /-- `MCG_C1`, R39. -/
  mcgC1 : Byte
  /-- `MCG_C2`, R40. -/
  mcgC2 : Byte
  /-- `MCG_C5`, R41. -/
  mcgC5 : Byte
  /-- `MCG_C6`, R42. -/
  mcgC6 : Byte
  /-- `MCG_S`, R43. -/
  mcgS : Byte
  /-- `OSC_CR`, R45. -/
  oscCr : Byte
  /-- `SIM_CLKDIV1`, R46. -/
  clkdiv1 : Word
  /-- `SIM_SCGC4` to `SIM_SCGC7`, R47, in the order of `GateReg.index`. -/
  scgc : Vector Word 4
  /-- `PORTp_PCRi`, R48, in the order of `Pin.index`. -/
  pcr : Vector Word 64
  /-- The model's own: the value HOST's last read returned (R69), `none` before the first (assumption 13). -/
  readData : Option Word
  /-- The model's own: HOST's accesses not yet performed, in order (R8; assumption 9). -/
  program : List Access
  /-- The model's own: the turns to come (R5, R231; assumption 6). -/
  schedule : List Turn
  deriving DecidableEq, Repr

/-- The model faults (60_exceptions.md R203): the model's refusal of a host access the spec gives no meaning. The access
changes no state and the run stops, as R202 permits. -/
inductive Fault where
  /-- Raised by a HOST step whose access is outside the map, of the wrong width, misaligned, or a write to a register the
  host may not write (R66, R70). SAFE: the model stops where the chip may go on. -/
  | accessRefused
  /-- Raised by a HOST step that reads `PORTp_PCRi` while the gate bit `PORT_GATE(p)` is 0 (R69). SAFE: the model stops where
  the chip may go on. -/
  | accessGated
  deriving DecidableEq, Repr

/-- Instructions without a meaning. -/
inductive Refusal where
  /-- Raised by an arm of `exec` whose instruction has no meaning yet; no arm of this model is one. SAFE: the model stops. -/
  | notModelled (mnemonic : String)
  deriving DecidableEq, Repr

/-- What a step answers. -/
abbrev Result := Host.Outcome State Fault Refusal

/-- The state right after a reset with parameters `p` (R217: R51 for the block-internal state, R52 for the peripheral
registers), with HOST having nothing to do and no turn listed. -/
def State.ofParams (p : Params) : State where
  params := p
  phase := .idle
  fatalCode := none
  oscHeld := false
  mcgHeld := false
  simHeld := false
  oscToken := false
  mode := .noMode
  gateOwner := Vector.replicate 128 .nobody
  cap := Vector.replicate 64 .free
  mcgC1 := p.rstC1
  mcgC2 := p.rstC2
  mcgC5 := p.rstC5
  mcgC6 := p.rstC6
  mcgS := p.rstS
  oscCr := p.rstOscCr
  clkdiv1 := p.rstClkdiv1
  scgc := #v[p.rstScgc4, p.rstScgc5, p.rstScgc6, p.rstScgc7]
  pcr := Vector.replicate 64 p.rstPcr
  readData := none
  program := []
  schedule := []

/-- The machine right after reset, with the parameter values the spec recommends (assumptions 2 to 5). -/
def State.reset : State := State.ofParams Params.recommended

end Sys2Proof.Machine
end

