-- ==== Sys2Proof/Machine/Operands.lean ====
section
/-!
DEFINITION. What a command's operands name, and the values computed from them (30_encoding.md R83 to R85). Each function
that can fail to name something answers `none`; the command turns that into its own fatal code.
-/
namespace Sys2Proof.Machine

/-- The port a `PORT` operand names: 1 is B, 2 is C (R84). -/
def portOf : Nat → Option Port
  | 1 => some .b
  | 2 => some .c
  | _ => none

/-- The gate register a `REG` operand names: 4 to 7 (43_clock_gate.md R138, R140). -/
def gateRegOf : Nat → Option GateReg
  | 4 => some .scgc4
  | 5 => some .scgc5
  | 6 => some .scgc6
  | 7 => some .scgc7
  | _ => none

/-- A bit offset or pin index: 0 to 31 (R140, R149). -/
def below32 (n : Nat) : Option (Fin 32) :=
  if h : n < 32 then some ⟨n, h⟩ else none

/-- The serial unit a `UNIT` operand names: 0 (R157, `UNITS` of R4). -/
def unitOf : Nat → Option SerialUnit
  | 0 => some .unit0
  | _ => none

/-- The number of a port in the `PORT` field (R84). -/
def portNumber : Port → Nat
  | .b => 1
  | .c => 2

/-- The number `n` of `SIM_SCGCn`. -/
def gateRegNumber : GateReg → Nat
  | .scgc4 => 4
  | .scgc5 => 5
  | .scgc6 => 6
  | .scgc7 => 7

/-- The number of a serial unit. -/
def unitNumber : SerialUnit → Nat
  | .unit0 => 0

/-- The divisor tables (41_clock_generator.md R102). -/
def divisorTable : Nat → List Nat
  | 0 => [1, 2, 4, 8, 16, 32, 64, 128]
  | _ => [32, 64, 128, 256, 512, 1024, 1280, 1536]

/-- `table_index(r, d)` (R102): the position of `d` in the table of range `r`. -/
def tableIndex (range div : Nat) : Option Nat :=
  (divisorTable range).idxOf? div

/-- A capacitance in picofarads is legal when it is even and at most 30 (42_oscillator.md R131). -/
def capacitanceLegal (cap : Nat) : Bool :=
  cap % 2 == 0 && cap ≤ 30

/-- The control byte `0x80 | zext_8(rev4(CAP[4:1]))` (R131, R132). -/
def oscControl (cap : Nat) : Byte :=
  0x80 ||| (rev4 (BitVec.ofNat 4 (cap / 2))).setWidth 8

/-- A divide ratio is legal from 1 to 16 (43_clock_gate.md R144). -/
def ratioLegal (v : Nat) : Bool :=
  1 ≤ v && v ≤ 16

/-- A VCO numerator is legal from 24 to 55 (R109). -/
def numeratorLegal (n : Nat) : Bool :=
  24 ≤ n && n ≤ 55

/-- A reference denominator is legal from 1 to 25 (R109). -/
def denominatorLegal (d : Nat) : Bool :=
  1 ≤ d && d ≤ 25

/-- `classify(s)` (R101): the clock mode an 8-bit status shows; bits 0, 1, 6 and 7 are not read. -/
def classify (s : Byte) : Mode :=
  let irefst := s.getLsbD 4
  let pllst := s.getLsbD 5
  let clkst := field s 2 2
  if irefst && !pllst && clkst == 0 then .internalLocked
  else if !irefst && !pllst && clkst == 2 then .externalReference
  else if !irefst && pllst && (clkst == 2 || clkst == 3) then .phaseLocked
  else .noMode

end Sys2Proof.Machine
end

