-- ==== Sys2Proof/Machine/Ops.lean ====
section
/-!
DEFINITION. The named operations over the state: raising a fatal error and leaving it by reset, the checks a command is
written with, and the reads and writes of gates, owners, pins and pin-control registers.
-/
namespace Sys2Proof.Machine

/-! ### Fatal errors (60_exceptions.md R195) and reset (70_reset_and_hazards.md R217) -/

/-- `raise Fatal(code)` (R195): nothing changes but the phase and the code. -/
def State.raise (s : State) (c : FatalCode) : State :=
  { s with phase := .fatal, fatalCode := some c }

/-- The effect of every reset source (R216, R217): the one way out of FATAL (R196). HOST's program, the schedule and what HOST
read last are no state of the block (assumption 12). -/
def State.resetBlock (s : State) : State :=
  { State.ofParams s.params with readData := s.readData, program := s.program, schedule := s.schedule }

/-- The wait phases, 1 to 6 (10_state.md R27). -/
def Phase.isWait : Phase → Bool
  | .idle => false
  | .wOscinit => true
  | .wIrefst => true
  | .wClkstExt => true
  | .wPllst => true
  | .wLock => true
  | .wClkstPll => true
  | .fatal => false

/-- The issue checks on the phase (30_encoding.md R89): a command written in FATAL is ignored (R197), one written in a wait
phase raises CMD_WHILE_BUSY (R199), and in IDLE the command is performed, which leaves `done`. -/
def State.issue (s : State) (done : State) : State :=
  if s.phase = .fatal then s
  else if s.phase.isWait then s.raise .cmdWhileBusy
  else done

/-- A check of a command (30_encoding.md R89, 60_exceptions.md R194): if it fails its fatal error is raised and nothing else
is done. -/
def State.require (s : State) (ok : Bool) (c : FatalCode) (done : State) : State :=
  if ok then done else s.raise c

/-- A check that an operand names something, which the rest of the command then uses. -/
def State.given {α : Type} (s : State) (named : Option α) (c : FatalCode) (done : α → State) : State :=
  match named with
  | some a => done a
  | none => s.raise c

/-! ### Gates (10_state.md R32, R47; 43_clock_gate.md R138) -/

/-- The place of `SIM_SCGCn` among the four gate registers. -/
def gateRegIndex : GateReg → Fin 4
  | .scgc4 => 0
  | .scgc5 => 1
  | .scgc6 => 2
  | .scgc7 => 3

/-- The place of `gate_owner[n][b]` in the owner table. -/
def gateIndex (g : Gate) : Fin 128 :=
  ⟨(gateRegIndex g.reg).val * 32 + g.bit.val, by omega⟩

/-- `SIM_SCGCn`. -/
def State.scgcOf (s : State) (n : GateReg) : Word := s.scgc[gateRegIndex n]

/-- `SIM_SCGCn[b]`, the gate bit `G[n][b]` (R47). -/
def State.gateBit (s : State) (g : Gate) : Bool := (s.scgcOf g.reg).getLsbD g.bit

/-- `gate_owner[n][b]` (R32). -/
def State.ownerOf (s : State) (g : Gate) : Owner := s.gateOwner[gateIndex g]

/-- Write one gate bit and its owner: the word `on` at `gate_addr(n, b)` (R138), which changes that one bit, and the owner
record. -/
def State.setGate (s : State) (g : Gate) (on : Bool) (o : Owner) : State :=
  { s with
    scgc := s.scgc.set (gateRegIndex g.reg) (setBit (s.scgcOf g.reg) g.bit on)
    gateOwner := s.gateOwner.set (gateIndex g) o }

/-- `port_held(p)` (10_state.md R33). -/
def State.portHeld (s : State) (p : Port) : Bool := s.ownerOf (s.params.portGate p) == .port p

/-! ### Pins (10_state.md R34, R48) -/

/-- The place of pin `(p, i)` in the capability table and among the pin-control registers. -/
def pinIndex (q : Pin) : Fin 64 :=
  match q.port with
  | .b => ⟨q.idx.val, by omega⟩
  | .c => ⟨32 + q.idx.val, by omega⟩

/-- `cap[p][i]`. -/
def State.capOf (s : State) (q : Pin) : Cap := s.cap[pinIndex q]

/-- `cap[p][i] <- c`. -/
def State.setCap (s : State) (q : Pin) (c : Cap) : State :=
  { s with cap := s.cap.set (pinIndex q) c }

/-- `lock[p][i]`, which is `cap[p][i] ≠ NONE` (R34). -/
def State.locked (s : State) (q : Pin) : Bool := s.capOf q != .free

/-- `PORTp_PCRi`. -/
def State.pcrOf (s : State) (q : Pin) : Word := s.pcr[pinIndex q]

/-- `PORTp_PCRi.MUX <- m` (R48): bits `[10:8]`, the others unchanged. -/
def State.setMux (s : State) (q : Pin) (m : Nat) : State :=
  { s with pcr := s.pcr.set (pinIndex q) (setField (s.pcrOf q) 8 3 m) }

/-- Some pin of the port holds a capability (44_port_pin.md R152). -/
def State.portInUse (s : State) (p : Port) : Bool :=
  (List.finRange 32).any fun i => s.locked ⟨p, i⟩

/-- `check_pin(P, I)` (44_port_pin.md R149): the port, its holding, then the index. -/
def State.checkPin (s : State) (port idx : Nat) (done : Pin → State) : State :=
  s.given (portOf port) .badPort fun p =>
  s.require (s.portHeld p) .notOwned <|
  s.given (below32 idx) .badPinIndex fun i =>
  done ⟨p, i⟩

/-- The check of a conversion (44_port_pin.md R155): the pin is held, and as a plain PIN. -/
def State.checkPlainPin (s : State) (q : Pin) (done : State) : State :=
  s.require (s.locked q) .notOwned <|
  s.require (s.capOf q == .pin) .pinAlreadyConverted <|
  done

/-- The write of a conversion (44_port_pin.md R156 to R158): the mux field and the derived capability. -/
def State.convert (s : State) (q : Pin) (mux : Nat) (c : Cap) : State :=
  (s.setMux q mux).setCap q c

end Sys2Proof.Machine
end

