-- ==== Sys2Proof/Machine/Flags.lean ====
section
/-!
DEFINITION. The numbers of the named values, and the block's status views: BUSY and FATAL (10_state.md R50), the STATUS word
(R37) and the LOCKS words (R38). There are no condition codes (R50).
-/
namespace Sys2Proof.Machine

/-- The number of a phase (R27). -/
def Phase.number : Phase → Nat
  | .idle => 0
  | .wOscinit => 1
  | .wIrefst => 2
  | .wClkstExt => 3
  | .wPllst => 4
  | .wLock => 5
  | .wClkstPll => 6
  | .fatal => 7

/-- The number of a mode (R31). -/
def Mode.number : Mode → Nat
  | .noMode => 0
  | .internalLocked => 1
  | .externalReference => 2
  | .phaseLocked => 3

/-- The number of a fatal code (60_exceptions.md R193). -/
def FatalCode.code : FatalCode → Byte
  | .badCapacitance => 0x11
  | .badRange => 0x12
  | .badDivisor => 0x13
  | .badPllNumerator => 0x14
  | .badPllDenominator => 0x15
  | .badDividerCore => 0x16
  | .badDividerBus => 0x17
  | .badDividerFlash => 0x18
  | .badGateRegister => 0x19
  | .badGateBit => 0x1A
  | .badPort => 0x1B
  | .badPinIndex => 0x1C
  | .badSerialUnit => 0x1D
  | .modeMismatch => 0x1E
  | .oscOwned => 0x21
  | .mcgOwned => 0x22
  | .simOwned => 0x23
  | .gateSet => 0x24
  | .pinLocked => 0x25
  | .rxPinMismatch => 0x31
  | .txPinMismatch => 0x32
  | .notOwned => 0x41
  | .illegalTransition => 0x42
  | .noOscToken => 0x43
  | .pinAlreadyConverted => 0x44
  | .portInUse => 0x45
  | .cmdWhileBusy => 0x46
  | .undefinedOpcode => 0x47
  | .reservedNonzero => 0x48

/-- `fatal_code` as the 8 bits of R28: 0x00 while no fatal error has been raised. -/
def State.fatalByte (s : State) : Byte :=
  match s.fatalCode with
  | none => 0x00
  | some c => c.code

/-- `STATUS.BUSY` (R37): the phase is a wait phase. -/
def State.busy (s : State) : Bool := s.phase.isWait

/-- `STATUS.FATAL` (R37). -/
def State.inFatal (s : State) : Bool := s.phase == .fatal

/-- The bit `b` as a one-bit field. -/
def flag (b : Bool) : BitVec 1 := BitVec.ofBool b

/-- The STATUS word (R37), its fields from bit 31 down to bit 0. -/
def State.status (s : State) : Word :=
  0#8 ++ flag (s.portHeld .c) ++ flag (s.portHeld .b) ++ flag s.oscToken ++ flag s.simHeld ++ flag s.oscHeld
    ++ flag s.mcgHeld ++ BitVec.ofNat 2 s.mode.number ++ s.fatalByte ++ 0#3 ++ BitVec.ofNat 3 s.phase.number
    ++ flag s.inFatal ++ flag s.busy

/-- The LOCKS word of a port (R38): bit `i` is `lock[p][i]`. -/
def State.locks (s : State) (p : Port) : Word :=
  BitVec.ofFnLE fun i : Fin 32 => s.locked ⟨p, i⟩

end Sys2Proof.Machine
end

