-- ==== Sys2Proof/Machine/Bus.lean ====
section
/-!
DEFINITION. The address map (20_memory.md R61 to R64), the refusal of an access (R66), and a host read (R69).

The map holds registers only (no RAM, no ROM): every address the model gives a meaning belongs to one register, whose home
is a field of State or which is computed from fields (assumption 15).
-/
namespace Sys2Proof.Machine

/-- The regions of R61. -/
inductive Region where
  | cmd
  | status
  | locks (p : Port)
  | mcgC1
  | mcgC2
  | mcgC5
  | mcgC6
  | mcgS
  | oscCr
  | scgc (n : GateReg)
  | clkdiv1
  | gateWord (g : Gate)
  | pcr (q : Pin)
  deriving DecidableEq, Repr

/-- The width of a region's register in bytes (R61, R67). -/
def Region.bytes : Region → Nat
  | .mcgC1 | .mcgC2 | .mcgC5 | .mcgC6 | .mcgS | .oscCr => 1
  | .cmd | .status | .locks _ | .scgc _ | .clkdiv1 | .gateWord _ | .pcr _ => 4

/-- The regions a host write does not fault on: CMD, and the window words that ignore it (R61, R66). -/
def Region.writable : Region → Bool
  | .cmd | .status | .locks _ => true
  | .mcgC1 | .mcgC2 | .mcgC5 | .mcgC6 | .mcgS | .oscCr | .scgc _ | .clkdiv1 | .gateWord _ | .pcr _ => false

/-- `base(p)` of the pin-control registers (10_state.md R48). -/
def pcrBase : Port → Nat
  | .b => 0x4004A000
  | .c => 0x4004B000

/-- `gate_addr(n, b) = 0x42900500 + 128·(n - 1) + 4·b` (43_clock_gate.md R138). -/
def gateAddr (g : Gate) : Nat :=
  0x42900500 + 128 * (gateRegNumber g.reg - 1) + 4 * g.bit.val

/-- The address of a region's first byte (R61). -/
def Region.addr (p : Params) : Region → Nat
  | .cmd => p.ctrlBase.toNat
  | .status => p.ctrlBase.toNat + 0x4
  | .locks .b => p.ctrlBase.toNat + 0x8
  | .locks .c => p.ctrlBase.toNat + 0xC
  | .mcgC1 => 0x40064000
  | .mcgC2 => 0x40064001
  | .mcgC5 => 0x40064004
  | .mcgC6 => 0x40064005
  | .mcgS => 0x40064006
  | .oscCr => 0x40065000
  | .scgc n => 0x40048034 + 4 * (gateRegNumber n - 4)
  | .clkdiv1 => 0x40048044
  | .gateWord g => gateAddr g
  | .pcr q => pcrBase q.port + 4 * q.idx.val

/-- The bit or pin number at an offset into an array of 32 words. -/
def wordOf32 (off : Nat) : Fin 32 := ⟨off / 4 % 32, Nat.mod_lt _ (by decide)⟩

/-- The region of the fixed map (R61) that holds the byte at an address. -/
def fixedRegionAt (a : Nat) : Option Region :=
  if a = 0x40064000 then some .mcgC1
  else if a = 0x40064001 then some .mcgC2
  else if a = 0x40064004 then some .mcgC5
  else if a = 0x40064005 then some .mcgC6
  else if a = 0x40064006 then some .mcgS
  else if a = 0x40065000 then some .oscCr
  else if 0x40048034 ≤ a ∧ a < 0x40048044 then (gateRegOf (4 + (a - 0x40048034) / 4)).map .scgc
  else if 0x40048044 ≤ a ∧ a < 0x40048048 then some .clkdiv1
  else if 0x42900680 ≤ a ∧ a < 0x42900880 then
    (gateRegOf (4 + (a - 0x42900680) / 128)).map fun n => .gateWord ⟨n, wordOf32 (a - 0x42900680)⟩
  else if 0x4004A000 ≤ a ∧ a < 0x4004A080 then some (.pcr ⟨.b, wordOf32 (a - 0x4004A000)⟩)
  else if 0x4004B000 ≤ a ∧ a < 0x4004B080 then some (.pcr ⟨.c, wordOf32 (a - 0x4004B000)⟩)
  else none

/-- The window register at an offset into the host window (R61, R63). -/
def windowRegion (off : Nat) : Region :=
  if off < 4 then .cmd
  else if off < 8 then .status
  else if off < 12 then .locks .b
  else .locks .c

/-- The region that holds the byte at an address; every other address, the boundary regions of R64 among them, has none. -/
def regionAt (p : Params) (a : Word) : Option Region :=
  let base := p.ctrlBase.toNat
  if base ≤ a.toNat ∧ a.toNat < base + 16 then some (windowRegion (a.toNat - base))
  else fixedRegionAt a.toNat

/-- What a region's register holds, zero-extended to 32 bits (R61, R69); a PCR whatever its port's gate. -/
def State.regionValue (s : State) : Region → Word
  | .cmd => 0
  | .status => s.status
  | .locks p => s.locks p
  | .mcgC1 => s.mcgC1.setWidth 32
  | .mcgC2 => s.mcgC2.setWidth 32
  | .mcgC5 => s.mcgC5.setWidth 32
  | .mcgC6 => s.mcgC6.setWidth 32
  | .mcgS => s.mcgS.setWidth 32
  | .oscCr => s.oscCr.setWidth 32
  | .scgc n => s.scgcOf n
  | .clkdiv1 => s.clkdiv1
  | .gateWord g => (flag (s.gateBit g)).setWidth 32
  | .pcr q => s.pcrOf q

/-- Byte `k` of the register that holds address `a = base + k` (R65, little-endian); `none` where the map has nothing. No
admitted access reads a lone byte of a 32-bit register (R67): this is the view in which statements say what is unchanged. -/
def State.byteAt (s : State) (a : Word) : Option Byte :=
  (regionAt s.params a).map fun r =>
    (s.regionValue r).extractLsb' (8 * (a.toNat - r.addr s.params)) 8

/-- An access is refused (R66): no region, the wrong width, a misaligned address, or a write to a register that takes none. -/
def refused (p : Params) (a : Word) (bytes : Nat) (write : Bool) : Bool :=
  match regionAt p a with
  | none => true
  | some r => r.bytes != bytes || a.toNat % bytes != 0 || (write && !r.writable)

/-- The registers of a port respond only while its gate bit is 1 (R69, 43_clock_gate.md R139). -/
def State.gateOpen (s : State) : Region → Bool
  | .pcr q => s.gateBit (s.params.portGate q.port)
  | .cmd | .status | .locks _ | .mcgC1 | .mcgC2 | .mcgC5 | .mcgC6 | .mcgS | .oscCr | .scgc _ | .clkdiv1
  | .gateWord _ => true

/-- `MemRead(addr, n)` (R69): the value read, or the model fault. -/
def State.memRead (s : State) (a : Word) (bytes : Nat) : Except Fault Word :=
  if refused s.params a bytes false then .error .accessRefused
  else
    match regionAt s.params a with
    | none => .error .accessRefused
    | some r => if s.gateOpen r then .ok (s.regionValue r) else .error .accessGated

end Sys2Proof.Machine
end

