-- ==== Sys2Proof/Machine/ClockGates.lean ====
section
/-!
DEFINITION. The clock-gate and divider commands (43_clock_gate.md R140, R141, R146).
-/
namespace Sys2Proof.Machine

/-- `GATE_ACQUIRE` (R140). -/
def execGateAcquire (reg bit : Nat) (s : State) : Result :=
  .next <| s.issue <|
  s.require s.simHeld .notOwned <|
  s.given (gateRegOf reg) .badGateRegister fun n =>
  s.given (below32 bit) .badGateBit fun b =>
  s.require (!s.gateBit ⟨n, b⟩) .gateSet <|
  s.setGate ⟨n, b⟩ true .host

/-- `GATE_RELEASE` (R141): needs HOST's ownership of the gate, not `sim_held`. -/
def execGateRelease (reg bit : Nat) (s : State) : Result :=
  .next <| s.issue <|
  s.given (gateRegOf reg) .badGateRegister fun n =>
  s.given (below32 bit) .badGateBit fun b =>
  s.require (s.ownerOf ⟨n, b⟩ == .host) .notOwned <|
  s.setGate ⟨n, b⟩ false .nobody

/-- `SIM_SET_DIVIDERS` (R146): one write of three fields. -/
def execSimSetDividers (core bus flash : Nat) (s : State) : Result :=
  .next <| s.issue <|
  s.require s.simHeld .notOwned <|
  s.require (ratioLegal core) .badDividerCore <|
  s.require (ratioLegal bus) .badDividerBus <|
  s.require (ratioLegal flash) .badDividerFlash <|
  { s with
    clkdiv1 := setField (setField (setField s.clkdiv1 28 4 (core - 1)) 24 4 (bus - 1)) 16 4 (flash - 1) }

end Sys2Proof.Machine
end

