-- ==== Sys2Proof/Machine/ClockGenerator.lean ====
section
/-!
DEFINITION. The clock generator's transition commands (41_clock_generator.md R105, R109, R112). Their waits are BLOCK's poll
steps (`State.poll`).
-/
namespace Sys2Proof.Machine

/-- `MCG_ENABLE_EXT_REF` (R105): consumes the token and the mode, writes MCG_C2 and MCG_C1, and waits. -/
def execMcgEnableExtRef (range div : Nat) (s : State) : Result :=
  .next <| s.issue <|
  s.require s.mcgHeld .notOwned <|
  s.require (s.mode == .internalLocked) .illegalTransition <|
  s.require s.oscToken .noOscToken <|
  s.require (range ≤ 2) .badRange <|
  s.given (tableIndex range div) .badDivisor fun idx =>
  { s with
    mcgC2 := setField (setField s.mcgC2 4 2 range) 2 1 1
    mcgC1 := setField (setField (setField s.mcgC1 6 2 2) 3 3 idx) 2 1 0
    oscToken := false
    mode := .noMode
    phase := .wOscinit }

/-- `MCG_ENABLE_PLL` (R109): consumes the mode, writes MCG_C5 and MCG_C6, and waits. -/
def execMcgEnablePll (num den : Nat) (s : State) : Result :=
  .next <| s.issue <|
  s.require s.mcgHeld .notOwned <|
  s.require (s.mode == .externalReference) .illegalTransition <|
  s.require (numeratorLegal num) .badPllNumerator <|
  s.require (denominatorLegal den) .badPllDenominator <|
  { s with
    mcgC5 := setField s.mcgC5 0 5 (den - 1)
    mcgC6 := setField (setField s.mcgC6 6 1 1) 0 5 (num - 24)
    mode := .noMode
    phase := .wPllst }

/-- `MCG_SELECT_PLL` (R112): switches the clock source and waits; the mode stays. -/
def execMcgSelectPll (s : State) : Result :=
  .next <| s.issue <|
  s.require s.mcgHeld .notOwned <|
  s.require (s.mode == .phaseLocked) .illegalTransition <|
  { s with
    mcgC1 := setField s.mcgC1 6 2 0
    phase := .wClkstPll }

end Sys2Proof.Machine
end

