-- ==== Sys2Proof/Machine/Oscillator.lean ====
section
/-!
DEFINITION. The oscillator controller's command (42_oscillator.md R131 to R134).
-/
namespace Sys2Proof.Machine

/-- `OSC_ENABLE` (R131): writes the whole control byte and makes the token; it does not wait. -/
def execOscEnable (cap : Nat) (s : State) : Result :=
  .next <| s.issue <|
  s.require s.oscHeld .notOwned <|
  s.require (capacitanceLegal cap) .badCapacitance <|
  { s with oscCr := oscControl cap, oscToken := true }

end Sys2Proof.Machine
end

