-- ==== Sys2Proof/Machine/PortsPins.lean ====
section
/-!
DEFINITION. The port and pin commands (44_port_pin.md R151 to R158).
-/
namespace Sys2Proof.Machine

/-- `PORT_ACQUIRE` (R151): acquires the port's clock gate for the port. -/
def execPortAcquire (port : Nat) (s : State) : Result :=
  .next <| s.issue <|
  s.require s.simHeld .notOwned <|
  s.given (portOf port) .badPort fun p =>
  s.require (!s.gateBit (s.params.portGate p)) .gateSet <|
  s.setGate (s.params.portGate p) true (.port p)

/-- `PORT_RELEASE` (R152): refused while a pin of the port holds a capability. -/
def execPortRelease (port : Nat) (s : State) : Result :=
  .next <| s.issue <|
  s.given (portOf port) .badPort fun p =>
  s.require (s.portHeld p) .notOwned <|
  s.require (!s.portInUse p) .portInUse <|
  s.setGate (s.params.portGate p) false .nobody

/-- `PIN_ACQUIRE` (R153). -/
def execPinAcquire (port idx : Nat) (s : State) : Result :=
  .next <| s.issue <|
  s.checkPin port idx fun q =>
  s.require (!s.locked q) .pinLocked <|
  s.setCap q .pin

/-- `PIN_RELEASE` (R154): the PCR keeps its mux value (R160). -/
def execPinRelease (port idx : Nat) (s : State) : Result :=
  .next <| s.issue <|
  s.checkPin port idx fun q =>
  s.require (s.locked q) .notOwned <|
  s.setCap q .free

/-- `PIN_MAKE_GPIO` (R156). -/
def execPinMakeGpio (port idx : Nat) (s : State) : Result :=
  .next <| s.issue <|
  s.checkPin port idx fun q =>
  s.checkPlainPin q <|
  s.convert q 1 .gpio

/-- `PIN_MAKE_RX` (R157). -/
def execPinMakeRx (unit port idx : Nat) (s : State) : Result :=
  .next <| s.issue <|
  s.checkPin port idx fun q =>
  s.checkPlainPin q <|
  s.given (unitOf unit) .badSerialUnit fun u =>
  s.require (q == s.params.rxPin u) .rxPinMismatch <|
  s.convert q 3 (.rx u)

/-- `PIN_MAKE_TX` (R158). -/
def execPinMakeTx (unit port idx : Nat) (s : State) : Result :=
  .next <| s.issue <|
  s.checkPin port idx fun q =>
  s.checkPlainPin q <|
  s.given (unitOf unit) .badSerialUnit fun u =>
  s.require (q == s.params.txPin u) .txPinMismatch <|
  s.convert q 3 (.tx u)

end Sys2Proof.Machine
end

