-- ==== Sys2Proof/Machine/Singletons.lean ====
section
/-!
DEFINITION. The exclusive-access token manager's commands (45_token_manager.md R176 to R181).
-/
namespace Sys2Proof.Machine

/-- `OSC_ACQUIRE` (R176). -/
def execOscAcquire (s : State) : Result :=
  .next <| s.issue <|
  s.require (!s.oscHeld) .oscOwned <|
  { s with oscHeld := true }

/-- `OSC_RELEASE` (R177): `OSC_CR` and the token are untouched (42_oscillator.md R134). -/
def execOscRelease (s : State) : Result :=
  .next <| s.issue <|
  s.require s.oscHeld .notOwned <|
  { s with oscHeld := false }

/-- `MCG_ACQUIRE` (R178): takes the singleton and the mode the live status shows. -/
def execMcgAcquire (s : State) : Result :=
  .next <| s.issue <|
  s.require (!s.mcgHeld) .mcgOwned <|
  s.require (classify s.mcgS != .noMode) .modeMismatch <|
  { s with mcgHeld := true, mode := classify s.mcgS }

/-- `MCG_RELEASE` (R179): the mode value ends with its owner. -/
def execMcgRelease (s : State) : Result :=
  .next <| s.issue <|
  s.require s.mcgHeld .notOwned <|
  { s with mcgHeld := false, mode := .noMode }

/-- `SIM_ACQUIRE` (R180). -/
def execSimAcquire (s : State) : Result :=
  .next <| s.issue <|
  s.require (!s.simHeld) .simOwned <|
  { s with simHeld := true }

/-- `SIM_RELEASE` (R181): gates and ports acquired before stay owned. -/
def execSimRelease (s : State) : Result :=
  .next <| s.issue <|
  s.require s.simHeld .notOwned <|
  { s with simHeld := false }

end Sys2Proof.Machine
end

