-- ==== Sys2Proof/Machine/Dispatch.lean ====
section
/-! DEFINITION. The dispatch of a command to its meaning, one arm per row of the opcode table (30_encoding.md R86). -/

namespace Sys2Proof.Machine

def exec (i : Instr) (s : State) : Host.Outcome State Fault Refusal :=
  match i with
  | .oscAcquire => Sys2Proof.Machine.execOscAcquire s
  | .oscRelease => Sys2Proof.Machine.execOscRelease s
  | .oscEnable cap => Sys2Proof.Machine.execOscEnable cap s
  | .mcgAcquire => Sys2Proof.Machine.execMcgAcquire s
  | .mcgRelease => Sys2Proof.Machine.execMcgRelease s
  | .mcgEnableExtRef range div => Sys2Proof.Machine.execMcgEnableExtRef range div s
  | .mcgEnablePll num den => Sys2Proof.Machine.execMcgEnablePll num den s
  | .mcgSelectPll => Sys2Proof.Machine.execMcgSelectPll s
  | .simAcquire => Sys2Proof.Machine.execSimAcquire s
  | .simRelease => Sys2Proof.Machine.execSimRelease s
  | .gateAcquire reg bit => Sys2Proof.Machine.execGateAcquire reg bit s
  | .gateRelease reg bit => Sys2Proof.Machine.execGateRelease reg bit s
  | .simSetDividers core bus flash => Sys2Proof.Machine.execSimSetDividers core bus flash s
  | .portAcquire port => Sys2Proof.Machine.execPortAcquire port s
  | .portRelease port => Sys2Proof.Machine.execPortRelease port s
  | .pinAcquire port idx => Sys2Proof.Machine.execPinAcquire port idx s
  | .pinRelease port idx => Sys2Proof.Machine.execPinRelease port idx s
  | .pinMakeGpio port idx => Sys2Proof.Machine.execPinMakeGpio port idx s
  | .pinMakeRx unit port idx => Sys2Proof.Machine.execPinMakeRx unit port idx s
  | .pinMakeTx unit port idx => Sys2Proof.Machine.execPinMakeTx unit port idx s

end Sys2Proof.Machine
end

