-- ==== Sys2Proof/Machine/Environment.lean ====
section
/-!
DEFINITION. ENV, the only writer of `MCG_S` (41_clock_generator.md R117, R118).
-/
namespace Sys2Proof.Machine

/-- The clock source status `settle()` gives (R118). -/
def settleClkst (c1 c6 : Byte) : Nat :=
  if field c1 6 2 = 0 then (if c6.getLsbD 6 then 3 else 0) else field c1 6 2

/-- `settle()` as a function of the control registers it reads, bit 7 first (R118). -/
def settleOf (c1 c2 c6 : Byte) : Byte :=
  0#1 ++ BitVec.ofBool (c6.getLsbD 6) ++ BitVec.ofBool (c6.getLsbD 6) ++ BitVec.ofBool (c1.getLsbD 2)
    ++ BitVec.ofNat 2 (settleClkst c1 c6) ++ BitVec.ofBool (c2.getLsbD 2) ++ 0#1

/-- `settle()` (R118). -/
def State.settle (s : State) : Byte := settleOf s.mcgC1 s.mcgC2 s.mcgC6

/-- ENV's turn: under `P_ENV = FREE` it puts the drawn value, which may be any (R117); under `REFERENCE` it puts `settle()`
(R118), whatever was drawn. -/
def State.envStep (s : State) (drawn : Byte) : State :=
  match s.params.env with
  | .free => { s with mcgS := drawn }
  | .reference => { s with mcgS := s.settle }

end Sys2Proof.Machine
end

