-- ==== Sys2Proof/Machine/Poll.lean ====
section
/-!
DEFINITION. The poll steps of BLOCK (41_clock_generator.md R106 to R108, R110, R111, R113, R114).
-/
namespace Sys2Proof.Machine

/-- The condition on `MCG_S` a phase waits for (10_state.md R27): it reads only its own phase's bits (R114). Outside the wait
phases nothing is awaited. -/
def Phase.awaited : Phase → Byte → Bool
  | .idle, _ => false
  | .wOscinit, s => s.getLsbD 1
  | .wIrefst, s => !s.getLsbD 4
  | .wClkstExt, s => field s 2 2 == 2
  | .wPllst, s => s.getLsbD 5
  | .wLock, s => s.getLsbD 6
  | .wClkstPll, s => field s 2 2 == 3
  | .fatal, _ => false

/-- BLOCK has a transition exactly in a wait phase whose condition holds (00_scope.md R5, R7). -/
def State.blockEnabled (s : State) : Bool := s.phase.awaited s.mcgS

/-- What BLOCK's transition from each wait phase writes. -/
def State.advance (s : State) : State :=
  match s.phase with
  | .idle => s
  | .wOscinit => { s with phase := .wIrefst }
  | .wIrefst => { s with phase := .wClkstExt }
  | .wClkstExt => { s with phase := .idle, mode := .externalReference }
  | .wPllst => { s with phase := .wLock }
  | .wLock => { s with phase := .idle, mode := .phaseLocked }
  | .wClkstPll => { s with phase := .idle }
  | .fatal => s

/-- BLOCK's turn: its transition if it has one, else a hold (R7). -/
def State.poll (s : State) : State :=
  if s.blockEnabled then s.advance else s

end Sys2Proof.Machine
end

