-- ==== Sys2Proof/Machine/Issue.lean ====
section
/-!
DEFINITION. The turns of the run: a command word issued to CMD (30_encoding.md R89), HOST's accesses (20_memory.md R69, R70),
the turns of the other agents, and the deterministic order (70_reset_and_hazards.md R231).
-/
namespace Sys2Proof.Machine

/-- The fatal code of a word that is no command (R88). -/
def fatalOfDecode : DecodeError → FatalCode
  | .undefinedOpcode => .undefinedOpcode
  | .reservedNonzero => .reservedNonzero

/-- A word written to CMD (R89): the checks on the phase come first, whatever the word is (every command's meaning begins with
them, `State.issue`), then the opcode, then the reserved bits, then the command's own rule. -/
def issueWord (w : Word) (s : State) : Result :=
  match decode w with
  | .ok i => exec i s
  | .error e => .next (s.issue (s.raise (fatalOfDecode e)))

/-- `MemWrite(addr, n, v)` (R70). -/
def State.memWrite (s : State) (a : Word) (bytes : Nat) (v : Word) : Result :=
  if refused s.params a bytes true then .fault .accessRefused
  else
    match regionAt s.params a with
    | some .cmd => issueWord v s
    | _ => .next s

/-- One access of HOST. A read changes nothing but what HOST has read (R69). -/
def State.access (s : State) : Access → Result
  | .read a bytes =>
    match s.memRead a bytes with
    | .ok v => .next { s with readData := some v }
    | .error f => .fault f
  | .write a bytes v => s.memWrite a bytes v

/-- HOST's turn: the next access of its program, or nothing if none is left (R8). -/
def State.hostStep (s : State) : Result :=
  match s.program with
  | [] => .next s
  | a :: rest => { s with program := rest }.access a

/-- One turn (00_scope.md R5, R6; 70_reset_and_hazards.md R216). -/
def State.take (s : State) : Turn → Result
  | .host => s.hostStep
  | .block => .next s.poll
  | .env drawn => .next (s.envStep drawn)
  | .reset _ => .next s.resetBlock

/-- The deterministic order BLOCK, ENV, HOST of R231, for a blocking HOST (R9): who moves when the schedule lists nobody.
ENV is enabled under `REFERENCE` while `MCG_S ≠ settle()`; under `FREE` its moves are inputs, which only the schedule lists
(assumption 8). -/
def State.defaultTurn (s : State) : Option Turn :=
  if s.blockEnabled then some .block
  else if s.params.env = .reference ∧ s.mcgS ≠ s.settle then some (.env s.settle)
  else if s.program ≠ [] ∧ s.busy = false then some .host
  else none

/-- One step of the machine: the next turn of the schedule; with none listed, the deterministic order's; and if nobody moves,
a hold (R6), in which nothing changes. -/
def State.turn (s : State) : Result :=
  match s.schedule with
  | t :: rest => { s with schedule := rest }.take t
  | [] =>
    match s.defaultTurn with
    | some t => s.take t
    | none => .next s

end Sys2Proof.Machine
end

