-- ==== Sys2Proof/Machine/Step.lean ====
section
/-!
DEFINITION. The step of the machine, and how a command comes to be the next thing it runs (assumption 9).
-/
namespace Sys2Proof.Machine

/-- One step (00_scope.md R6). -/
def step (s : State) : Host.Outcome State Fault Refusal := s.turn

/-- `s` with the command word `w` about to be issued: HOST's next access is the 32-bit write of `w` to CMD (30_encoding.md
R81), and the next turn is HOST's. -/
def State.withFetchWord (s : State) (nbits w : Nat) : State :=
  { s with
    program := .write s.params.ctrlBase 4 (BitVec.ofNat 32 (w % 2 ^ nbits)) :: s.program
    schedule := .host :: s.schedule }

end Sys2Proof.Machine
end

