-- ==== Sys2Proof/Machine/Assembly.lean ====
section
/-!
DEFINITION. The assembly language (30_encoding.md R90, R91): what one line of text assembles to. `none` is the assembly error
of R90. Text is a list of characters, a program a list of lines.
-/
namespace Sys2Proof.Machine

/-- An operand as written (R90). -/
inductive AsmOperand where
  /-- a decimal or `0x` hexadecimal number -/
  | number (n : Nat)
  /-- a port letter `A` to `Z`, by its position in the alphabet (R84) -/
  | letter (n : Nat)
  /-- `low`, `high` or `vhigh` (R85) -/
  | rangeName (n : Nat)
  deriving DecidableEq, Repr

/-- What a line says: a command, a pseudo-instruction, or `.word V`. -/
inductive AsmItem where
  | command (i : Instr)
  | pseudo (p : Pseudo)
  | word (v : Nat)
  deriving DecidableEq, Repr

/-- A blank between the words of a line (assumption 27). -/
def isBlank (c : Char) : Bool := c == ' ' || c == '\t'

/-- A text without the blanks at its two ends. -/
def trimBlanks (l : List Char) : List Char :=
  ((l.dropWhile isBlank).reverse.dropWhile isBlank).reverse

/-- The texts between the commas. -/
def splitCommas : List Char → List (List Char)
  | [] => [[]]
  | c :: rest =>
    if c = ',' then [] :: splitCommas rest
    else
      match splitCommas rest with
      | [] => [[c]]
      | t :: ts => (c :: t) :: ts

/-- The value of a digit, hexadecimal letters in either case. -/
def digitValue (c : Char) : Option Nat :=
  if '0' ≤ c ∧ c ≤ '9' then some (c.toNat - '0'.toNat)
  else if 'a' ≤ c ∧ c ≤ 'f' then some (10 + (c.toNat - 'a'.toNat))
  else if 'A' ≤ c ∧ c ≤ 'F' then some (10 + (c.toNat - 'A'.toNat))
  else none

/-- The number that digits of a base write after the number `n`. -/
def digitsFrom (base n : Nat) : List Char → Option Nat
  | [] => some n
  | c :: rest =>
    match digitValue c with
    | none => none
    | some d => if d < base then digitsFrom base (n * base + d) rest else none

/-- A number (R90): decimal, or hexadecimal after `0x`. -/
def numberOf : List Char → Option Nat
  | [] => none
  | ['0', 'x'] => none
  | '0' :: 'x' :: ds => digitsFrom 16 0 ds
  | ds => digitsFrom 10 0 ds

/-- An operand (R90). -/
def operandOf (l : List Char) : Option AsmOperand :=
  if l = "low".toList then some (.rangeName 0)
  else if l = "high".toList then some (.rangeName 1)
  else if l = "vhigh".toList then some (.rangeName 2)
  else
    match l with
    | [c] => if 'A' ≤ c ∧ c ≤ 'Z' then some (.letter (c.toNat - 'A'.toNat)) else (numberOf l).map .number
    | _ => (numberOf l).map .number

/-- An operand where a plain number stands. -/
def AsmOperand.plain : AsmOperand → Option Nat
  | .number n => some n
  | .letter _ => none
  | .rangeName _ => none

/-- An operand where `PORT` stands: a number or a letter. -/
def AsmOperand.port : AsmOperand → Option Nat
  | .number n => some n
  | .letter n => some n
  | .rangeName _ => none

/-- An operand where `RANGE` stands: a number or a name. -/
def AsmOperand.range : AsmOperand → Option Nat
  | .number n => some n
  | .letter _ => none
  | .rangeName n => some n

/-- A mnemonic with its operands (the table of R90, the pseudo-instructions of R91, `.word`). -/
def itemOf (mnemonic : String) (operands : List AsmOperand) : Option AsmItem :=
  match operands with
  | [] =>
    match mnemonic with
    | "osc.acquire" => some (.command .oscAcquire)
    | "osc.release" => some (.command .oscRelease)
    | "mcg.acquire" => some (.command .mcgAcquire)
    | "mcg.release" => some (.command .mcgRelease)
    | "mcg.selpll" => some (.command .mcgSelectPll)
    | "sim.acquire" => some (.command .simAcquire)
    | "sim.release" => some (.command .simRelease)
    | _ => none
  | [a] =>
    match mnemonic with
    | "osc.enable" => do return .command (.oscEnable (← a.plain))
    | "port.acquire" => do return .command (.portAcquire (← a.port))
    | "port.release" => do return .command (.portRelease (← a.port))
    | ".word" => do return .word (← a.plain)
    | _ => none
  | [a, b] =>
    match mnemonic with
    | "mcg.extref" => do return .command (.mcgEnableExtRef (← a.range) (← b.plain))
    | "mcg.pll" => do return .command (.mcgEnablePll (← a.plain) (← b.plain))
    | "gate.acquire" => do return .command (.gateAcquire (← a.plain) (← b.plain))
    | "gate.release" => do return .command (.gateRelease (← a.plain) (← b.plain))
    | "pin.acquire" => do return .command (.pinAcquire (← a.port) (← b.plain))
    | "pin.release" => do return .command (.pinRelease (← a.port) (← b.plain))
    | "pin.gpio" => do return .command (.pinMakeGpio (← a.port) (← b.plain))
    | "pin.acquire_gpio" => do return .pseudo (.pinAcquireGpio (← a.port) (← b.plain))
    | _ => none
  | [a, b, c] =>
    match mnemonic with
    | "sim.dividers" => do return .command (.simSetDividers (← a.plain) (← b.plain) (← c.plain))
    | "pin.rx" => do return .command (.pinMakeRx (← a.plain) (← b.port) (← c.plain))
    | "pin.tx" => do return .command (.pinMakeTx (← a.plain) (← b.port) (← c.plain))
    | "pin.acquire_rx" => do return .pseudo (.pinAcquireRx (← a.plain) (← b.port) (← c.plain))
    | "pin.acquire_tx" => do return .pseudo (.pinAcquireTx (← a.plain) (← b.port) (← c.plain))
    | _ => none
  | [a, b, c, d, e] =>
    match mnemonic with
    | "clock.pll" => do
      return .pseudo (.clockPll (← a.plain) (← b.range) (← c.plain) (← d.plain) (← e.plain))
    | _ => none
  | _ => none

/-- The words of commands, every operand of which must fit its field (R90). -/
def wordsOf (is : List Instr) : Option (List Word) :=
  if is.all Instr.wellFormed then some (is.map encode) else none

/-- The words of an item. -/
def AsmItem.words : AsmItem → Option (List Word)
  | .command i => wordsOf [i]
  | .pseudo p => wordsOf p.expand
  | .word v => if v < 2 ^ 32 then some [BitVec.ofNat 32 v] else none

/-- The operands of a line, after its mnemonic. -/
def operandsOf (l : List Char) : Option (List AsmOperand) :=
  if l = [] then some [] else (splitCommas l).mapM fun t => operandOf (trimBlanks t)

/-- The words a line assembles to: none for a comment (R90) or an empty line (assumption 27). -/
def assembleLine (line : List Char) : Option (List Word) :=
  match trimBlanks line with
  | [] => some []
  | c :: rest =>
    if c = ';' then some []
    else do
      let operands ← operandsOf (trimBlanks (rest.dropWhile fun x => !isBlank x))
      let item ← itemOf (String.ofList (c :: rest.takeWhile fun x => !isBlank x)) operands
      item.words

/-- The words of a program, in order. -/
def assemble (lines : List (List Char)) : Option (List Word) :=
  (lines.mapM assembleLine).map List.flatten

end Sys2Proof.Machine
end

