-- ==== Sys2Proof/Safety.lean ====
section
/-!
DEFINITION. The terms claims are stated in: runs and how they end (00_scope.md R8), the constraints on the parameters (R4, R52,
R63), fairness (41_clock_generator.md R119), the invariants (10_state.md R35 and section 4), and what each command may write.
-/
namespace Sys2Proof.Safety

open Sys2Proof.Machine

/-! ### Parameters -/

/-- The base addresses of the boundary regions (20_memory.md R64, 60_exceptions.md R208): the spec names no sizes. -/
def boundaryBases : List Nat := [0x43FE0800, 0x43FE1000, 0x4006A000, 0xE000ED0C]

/-- The constraints on the parameters: the host window overlaps no region of R61 and no named base of R64 (R63), and `RST_S`
classifies as `INTERNAL_LOCKED` (R52). Its alignment holds by `Params.ctrlBase`. -/
def paramsOk (p : Params) : Bool :=
  classify p.rstS == .internalLocked &&
  (List.range 16).all fun k =>
    (fixedRegionAt (p.ctrlBase.toNat + k)).isNone && !boundaryBases.contains (p.ctrlBase.toNat + k)

/-! ### Runs -/

/-- The state after `n` steps; `none` if a model fault has stopped the run by then. -/
def after : Nat → State → Option State
  | 0, s => some s
  | n + 1, s =>
    match step s with
    | .next t => after n t
    | .fault _ => none
    | .refused _ => none

/-- The run has ended (R8): every access is performed and the phase is IDLE or FATAL. -/
def ended (s : State) : Bool := s.program == [] && !s.phase.isWait

/-- The run succeeded (R8). -/
def succeeded (s : State) : Bool := ended s && s.phase == .idle && s.fatalByte == 0x00

/-- The run failed with a code (R8). -/
def failedWith (s : State) (c : FatalCode) : Bool := ended s && s.phase == .fatal && s.fatalCode == some c

/-- The run hangs (R8): it stays in a wait phase for ever. -/
def hangs (s : State) : Prop := ∀ n, ∃ t, after n s = some t ∧ t.phase.isWait = true

/-- From `u` on, the awaited condition holds at every state up to the first change of phase. -/
def keepsConfirming (u : State) : Prop :=
  ∀ k v, after k u = some v → (∀ j x, j ≤ k → after j u = some x → x.phase = u.phase) → v.blockEnabled = true

/-- The fairness of a run, in the model's reading of R119 (DESIGN CHOICE, assumption 21): under
`P_ENV_FAIR = true`, from every wait phase of the run on, unless the run stops or the phase changes first, ENV makes the awaited condition true and keeps it true until BLOCK steps. -/
def fair (s : State) : Prop :=
  s.params.envFair = true → ∀ n t, after n s = some t → t.phase.isWait = true →
    (∃ m, after m t = none) ∨ ∃ m u, after m t = some u ∧ (u.phase ≠ t.phase ∨ keepsConfirming u)

/-! ### The error entry -/

/-- The answer that raises a fatal error (60_exceptions.md R195): only the phase and the code change. -/
def fatalWith (s : State) (c : FatalCode) : Host.Outcome State Fault Refusal :=
  .next { s with phase := .fatal, fatalCode := some c }

/-! ### The common checks of the pin commands -/

/-- A pin command begins with `check_pin` (44_port_pin.md R149): the port, its holding, the index, in this order. -/
def ChecksPin (command : Nat → Nat → Instr) : Prop :=
  ∀ (port idx : Nat) (s : State), s.phase = .idle →
    (port ≠ 1 → port ≠ 2 → exec (command port idx) s = fatalWith s .badPort) ∧
    (port = 1 → s.portHeld .b = false → exec (command port idx) s = fatalWith s .notOwned) ∧
    (port = 2 → s.portHeld .c = false → exec (command port idx) s = fatalWith s .notOwned) ∧
    (port = 1 → s.portHeld .b = true → 31 < idx → exec (command port idx) s = fatalWith s .badPinIndex) ∧
    (port = 2 → s.portHeld .c = true → 31 < idx → exec (command port idx) s = fatalWith s .badPinIndex)

/-- A conversion goes on to check that the pin holds a plain PIN (44_port_pin.md R155). -/
def ChecksPlainPin (command : Nat → Nat → Instr) : Prop :=
  ∀ (q : Pin) (s : State), s.phase = .idle → s.portHeld q.port = true →
    (s.capOf q = .free → exec (command (portNumber q.port) q.idx) s = fatalWith s .notOwned) ∧
    (s.capOf q ≠ .free → s.capOf q ≠ .pin →
      exec (command (portNumber q.port) q.idx) s = fatalWith s .pinAlreadyConverted)

/-! ### Invariants -/

/-- The invariants of R35 (its fifth holds by the shape of State), and that a code is recorded exactly in FATAL (R28, R195). -/
structure OwnershipInv (s : State) : Prop where
  /-- R35.1 -/
  mode_held : s.mode ≠ .noMode → s.mcgHeld = true
  /-- R35.2, the two consuming transitions -/
  wait_consumed : s.phase = .wOscinit ∨ s.phase = .wIrefst ∨ s.phase = .wClkstExt ∨ s.phase = .wPllst ∨ s.phase = .wLock →
    s.mode = .noMode ∧ s.mcgHeld = true
  /-- R35.2, the source selection -/
  wait_select : s.phase = .wClkstPll → s.mode = .phaseLocked
  /-- R35.3 -/
  owned_set : ∀ g, s.ownerOf g ≠ .nobody → s.gateBit g = true
  /-- R35.4 -/
  cap_port : ∀ q, s.locked q = true → s.portHeld q.port = true
  /-- R28, R195 -/
  code_fatal : s.phase = .fatal ↔ s.fatalCode ≠ none

/-- Every bit no rule writes is at its reset value (10_state.md section 4, R39 to R48), and a gate bit differs from its reset
value exactly while somebody owns the gate (R47, R140, R141, R151, R152). -/
structure UnwrittenBitsInv (s : State) : Prop where
  /-- R39: `[1:0]` -/
  c1 : s.mcgC1 &&& 0x03 = s.params.rstC1 &&& 0x03
  /-- R40: `[7]`, `[6]`, `[3]`, `[1]`, `[0]` -/
  c2 : s.mcgC2 &&& 0xCB = s.params.rstC2 &&& 0xCB
  /-- R41: `[7:5]` -/
  c5 : s.mcgC5 &&& 0xE0 = s.params.rstC5 &&& 0xE0
  /-- R42: `[7]`, `[5]` -/
  c6 : s.mcgC6 &&& 0xA0 = s.params.rstC6 &&& 0xA0
  /-- R45: written whole by `OSC_ENABLE`, with `[7] = 1` and `[6:4] = 0` -/
  osc : s.oscCr = s.params.rstOscCr ∨ s.oscCr &&& 0xF0 = 0x80
  /-- R46: `[23:20]`, `[15:0]` -/
  div : s.clkdiv1 &&& 0x00F0FFFF = s.params.rstClkdiv1 &&& 0x00F0FFFF
  /-- R48: all but `[10:8]` -/
  pcr : ∀ q, s.pcrOf q &&& 0xFFFFF8FF = s.params.rstPcr &&& 0xFFFFF8FF
  /-- R47: a gate nobody owns has its reset value -/
  gate_free : ∀ g, s.ownerOf g = .nobody → s.gateBit g = (s.params.rstScgc g.reg).getLsbD g.bit
  /-- R47: an owned gate is set, and was clear at reset -/
  gate_owned : ∀ g, s.ownerOf g ≠ .nobody → s.gateBit g = true ∧ (s.params.rstScgc g.reg).getLsbD g.bit = false

/-! ### What a command may write -/

/-- The opcodes of R86 with the reserved mask of each one's format (R82). -/
def opcodeMasks : List (Nat × Word) :=
  [(0x01, 0x00FFFFFF), (0x02, 0x00FFFFFF), (0x03, 0x00FFFF00), (0x08, 0x00FFFFFF), (0x09, 0x00FFFFFF),
   (0x0A, 0x00FC0000), (0x0B, 0x00FF0000), (0x0C, 0x00FFFFFF), (0x10, 0x00FFFFFF), (0x11, 0x00FFFFFF),
   (0x12, 0x00FF0000), (0x13, 0x00FF0000), (0x14, 0x00000000), (0x18, 0x00FF00FF), (0x19, 0x00FF00FF),
   (0x1A, 0x00FF0000), (0x1B, 0x00FF0000), (0x1C, 0x00FF0000), (0x1D, 0x00000000), (0x1E, 0x00000000)]

/-- A gate's register and its alias word, the two views of one bit (R47). -/
def gateRegions (g : Gate) : List Region := [.scgc g.reg, .gateWord g]

/-- The regions of a gate command: none if its operands name no gate. -/
def gateOperandRegions (reg bit : Nat) : List Region :=
  match gateRegOf reg, below32 bit with
  | some n, some b => gateRegions ⟨n, b⟩
  | _, _ => []

/-- The regions of a port command. -/
def portOperandRegions (p : Params) (port : Nat) : List Region :=
  match portOf port with
  | some q => gateRegions (p.portGate q)
  | none => []

/-- The pin a pin command's operands name. -/
def pinOperand (port idx : Nat) : Option Pin :=
  match portOf port, below32 idx with
  | some p, some i => some ⟨p, i⟩
  | _, _ => none

/-- The lock word of a pin command. -/
def lockRegions (port : Nat) : List Region :=
  match portOf port with
  | some p => [.locks p]
  | none => []

/-- The pin-control register of a conversion. -/
def pcrRegions (port idx : Nat) : List Region :=
  match pinOperand port idx with
  | some q => [.pcr q]
  | none => []

/-- The "state written" of each command's rule, as regions of the map (R61), besides STATUS. -/
def writtenRegions (p : Params) : Instr → List Region
  | .oscAcquire | .oscRelease | .mcgAcquire | .mcgRelease | .simAcquire | .simRelease => []
  | .oscEnable _ => [.oscCr]
  | .mcgEnableExtRef _ _ => [.mcgC1, .mcgC2]
  | .mcgEnablePll _ _ => [.mcgC5, .mcgC6]
  | .mcgSelectPll => [.mcgC1]
  | .gateAcquire reg bit | .gateRelease reg bit => gateOperandRegions reg bit
  | .simSetDividers _ _ _ => [.clkdiv1]
  | .portAcquire port | .portRelease port => portOperandRegions p port
  | .pinAcquire port _ | .pinRelease port _ => lockRegions port
  | .pinMakeGpio port idx | .pinMakeRx _ port idx | .pinMakeTx _ port idx => pcrRegions port idx

end Sys2Proof.Safety
end

