-- ==== Sys2Proof/Certificates/Slice0/Obligations.lean ====
section
/-!
DEFINITION. The statements for the provers.
-/

open Sys2Proof Sys2Proof.Machine Sys2Proof.Safety

/-! ### Encoding -/

/-- R82, R83, R86: every well-formed command is read back from its own word. -/
def Obligations.DecodeEncodeRoundTrip : Prop :=
  ∀ i : Instr, i.WellFormed → decode (encode i) = .ok i

/-- R82, R83, R86: a word that decodes has one meaning: the command is well-formed and its word is that word. -/
def Obligations.DecodedWordReencodes : Prop :=
  ∀ (w : Word) (i : Instr), decode w = .ok i → i.WellFormed ∧ encode i = w

/-- R88: an opcode outside the table, or a reserved bit of a defined one, raises its fatal error when written to CMD, and
writes no state but the fatal state; every other word is a command. -/
def Obligations.ReservedEncodingsAreFatal : Prop :=
  (∀ (w : Word) (s : State), s.phase = .idle →
    ((∀ m, (field w 24 8, m) ∉ opcodeMasks) →
      s.memWrite s.params.ctrlBase 4 w = fatalWith s .undefinedOpcode) ∧
    (∀ m, (field w 24 8, m) ∈ opcodeMasks → w &&& m ≠ 0 →
      s.memWrite s.params.ctrlBase 4 w = fatalWith s .reservedNonzero) ∧
    (∀ m, (field w 24 8, m) ∈ opcodeMasks → w &&& m = 0 → ∃ i, decode w = .ok i)) ∧
  FatalCode.undefinedOpcode.code = 0x47 ∧ FatalCode.reservedNonzero.code = 0x48

/-- R87: the worked encodings, read from their words and assembled from their text. -/
def Obligations.WorkedEncodingsDecode : Prop :=
  decode 0x0300000A = .ok (.oscEnable 10) ∧
  decode 0x0A020200 = .ok (.mcgEnableExtRef 2 512) ∧
  decode 0x0B001B06 = .ok (.mcgEnablePll 27 6) ∧
  decode 0x0C000000 = .ok .mcgSelectPll ∧
  decode 0x14010203 = .ok (.simSetDividers 1 2 3) ∧
  decode 0x1200040A = .ok (.gateAcquire 4 10) ∧
  decode 0x18000100 = .ok (.portAcquire 1) ∧
  decode 0x1A000110 = .ok (.pinAcquire 1 16) ∧
  decode 0x1D000110 = .ok (.pinMakeRx 0 1 16) ∧
  decode 0x1E000111 = .ok (.pinMakeTx 0 1 17) ∧
  decode 0x1C000205 = .ok (.pinMakeGpio 2 5) ∧
  assemble ["osc.enable 10".toList, "mcg.extref vhigh, 512".toList, "mcg.pll 27, 6".toList, "mcg.selpll".toList,
    "sim.dividers 1, 2, 3".toList, "gate.acquire 4, 10".toList, "port.acquire B".toList, "pin.acquire B, 16".toList,
    "pin.rx 0, B, 16".toList, "pin.tx 0, B, 17".toList, "pin.gpio C, 5".toList]
    = some [0x0300000A, 0x0A020200, 0x0B001B06, 0x0C000000, 0x14010203, 0x1200040A, 0x18000100, 0x1A000110, 0x1D000110,
      0x1E000111, 0x1C000205]

/-! ### The step -/

/-- R81, R89: when HOST's turn comes and its next access writes a command's word to CMD, the step is that command's `exec` on
the state with the turn and the access taken off; in particular after `withFetchWord`. -/
def Obligations.StepRunsTheDecodedCommand : Prop :=
  (∀ (s : State) (w : Word) (i : Instr) (accesses : List Access) (turns : List Turn),
    decode w = .ok i → s.schedule = .host :: turns → s.program = .write s.params.ctrlBase 4 w :: accesses →
    step s = exec i { s with program := accesses, schedule := turns }) ∧
  (∀ (s : State) (nbits w : Nat) (i : Instr), decodeTableWord nbits w = some i →
    step (s.withFetchWord nbits w) = exec i s)

/-- R199: whatever word is written to CMD in a wait phase, the answer is CMD_WHILE_BUSY (0x46), and nothing but the phase and
the code changes; and no CMD write outside a wait phase raises that code. -/
def Obligations.CommandWhileBusyIsFatal : Prop :=
  (∀ (w : Word) (s : State), s.phase.isWait = true →
    s.memWrite s.params.ctrlBase 4 w = fatalWith s .cmdWhileBusy) ∧
  FatalCode.cmdWhileBusy.code = 0x46 ∧
  (∀ (w : Word) (s : State), s.phase.isWait = false → s.fatalCode ≠ some .cmdWhileBusy →
    ∃ t, s.memWrite s.params.ctrlBase 4 w = .next t ∧ t.fatalCode ≠ some .cmdWhileBusy)

/-- R9, R199, in the model's deterministic order (assumption 8): a host that waits while the block is busy never raises
CMD_WHILE_BUSY. -/
def Obligations.BlockingHostNeverInterruptsAWait : Prop :=
  ∀ s t : State, s.schedule = [] → s.fatalCode ≠ some .cmdWhileBusy → step s = .next t →
    t.fatalCode ≠ some .cmdWhileBusy ∧ (s.phase.isWait = true → t.program = s.program)

/-- R197: in FATAL every CMD write is ignored, and a host read is as in any other phase (STATUS reads the STATUS word, and
every other address reads as before the error). -/
def Obligations.CommandsInFatalAreIgnored : Prop :=
  (∀ (w : Word) (s : State), s.phase = .fatal → s.memWrite s.params.ctrlBase 4 w = .next s) ∧
  (∀ (s : State) (c : FatalCode) (a : Word) (n : Nat), regionAt s.params a ≠ some .status →
    ({ s with phase := .fatal, fatalCode := some c } : State).memRead a n = s.memRead a n) ∧
  (∀ s : State, s.memRead (s.params.ctrlBase + 4) 4 = .ok s.status)

/-! ### Fatal errors -/

/-- R195: a command that enters FATAL changes nothing but the phase and the code, and afterwards STATUS reads FATAL 1, BUSY 0,
PHASE 7 and the code, its other fields as before. -/
def Obligations.FatalEntryWritesNothingElse : Prop :=
  (∀ (i : Instr) (s t : State), exec i s = .next t → s.phase ≠ .fatal → t.phase = .fatal →
    ∃ c, t = { s with phase := .fatal, fatalCode := some c }) ∧
  (∀ (s : State) (c : FatalCode),
    let t : State := { s with phase := .fatal, fatalCode := some c }
    field t.status 1 1 = 1 ∧ field t.status 0 1 = 0 ∧ field t.status 2 3 = 7 ∧
    field t.status 8 8 = c.code.toNat ∧ field t.status 16 8 = field s.status 16 8) ∧
  (∀ p : Params, ({ State.ofParams p with
      mcgHeld := true, mode := .internalLocked, phase := .fatal, fatalCode := some .noOscToken } : State).status
    = 0x0005431E)

/-- R196: no step but a reset leaves FATAL or overwrites the code. -/
def Obligations.FatalIsLeftOnlyByReset : Prop :=
  (∀ s t : State, s.phase = .fatal → step s = .next t → (∀ src rest, s.schedule ≠ .reset src :: rest) →
    t.phase = .fatal ∧ t.fatalCode = s.fatalCode) ∧
  (∀ (s : State) (src : ResetSource) (rest : List Turn), s.schedule = .reset src :: rest →
    ∃ t, step s = .next t ∧ t.phase = .idle ∧ t.fatalCode = none)

/-- R192: no poll step, no ENV step, no reset and no host read raises a fatal error: only HOST's write to CMD does. -/
def Obligations.OnlyCommandWritesRaiseFatal : Prop :=
  (∀ (s t : State) (u : Turn), u ≠ .host → s.phase ≠ .fatal → s.take u = .next t → t.phase ≠ .fatal) ∧
  (∀ (s t : State) (a : Access), s.phase ≠ .fatal → s.access a = .next t → t.phase = .fatal →
    ∃ w, a = .write s.params.ctrlBase 4 w)

/-- R193: the codes are pairwise different, none is 0x00, and each has the table's number. -/
def Obligations.FatalCodesHaveTheirNumbers : Prop :=
  (∀ c d : FatalCode, c.code = d.code → c = d) ∧
  (∀ c : FatalCode, c.code ≠ 0x00) ∧
  [FatalCode.badCapacitance, .badRange, .badDivisor, .badPllNumerator, .badPllDenominator, .badDividerCore,
    .badDividerBus, .badDividerFlash, .badGateRegister, .badGateBit, .badPort, .badPinIndex, .badSerialUnit,
    .modeMismatch].map FatalCode.code
    = [0x11, 0x12, 0x13, 0x14, 0x15, 0x16, 0x17, 0x18, 0x19, 0x1A, 0x1B, 0x1C, 0x1D, 0x1E] ∧
  [FatalCode.oscOwned, .mcgOwned, .simOwned, .gateSet, .pinLocked].map FatalCode.code
    = [0x21, 0x22, 0x23, 0x24, 0x25] ∧
  [FatalCode.rxPinMismatch, .txPinMismatch].map FatalCode.code = [0x31, 0x32] ∧
  [FatalCode.notOwned, .illegalTransition, .noOscToken, .pinAlreadyConverted, .portInUse, .cmdWhileBusy,
    .undefinedOpcode, .reservedNonzero].map FatalCode.code
    = [0x41, 0x42, 0x43, 0x44, 0x45, 0x46, 0x47, 0x48]

/-! ### The singletons -/

/-- R176: OSC_ACQUIRE. -/
def Obligations.OscAcquireSetsItsFlag : Prop :=
  decode 0x01000000 = .ok .oscAcquire ∧
  (∀ s : State, s.phase = .idle →
    (s.oscHeld = true → exec .oscAcquire s = fatalWith s .oscOwned) ∧
    (s.oscHeld = false → exec .oscAcquire s = .next { s with oscHeld := true })) ∧
  (∀ p : Params, ∃ t, exec .oscAcquire (State.ofParams p) = .next t ∧ t.status = 0x00080000) ∧
  FatalCode.oscOwned.code = 0x21

/-- R177: OSC_RELEASE; it leaves `OSC_CR` and the token as they are. -/
def Obligations.OscReleaseClearsItsFlag : Prop :=
  decode 0x02000000 = .ok .oscRelease ∧
  (∀ s : State, s.phase = .idle →
    (s.oscHeld = false → exec .oscRelease s = fatalWith s .notOwned) ∧
    (s.oscHeld = true → exec .oscRelease s = .next { s with oscHeld := false })) ∧
  FatalCode.notOwned.code = 0x41

/-- R178: MCG_ACQUIRE takes the singleton and the mode the status classifies as. -/
def Obligations.McgAcquireTakesTheClassifiedMode : Prop :=
  decode 0x08000000 = .ok .mcgAcquire ∧
  (∀ s : State, s.phase = .idle →
    (s.mcgHeld = true → exec .mcgAcquire s = fatalWith s .mcgOwned) ∧
    (s.mcgHeld = false → classify s.mcgS = .noMode → exec .mcgAcquire s = fatalWith s .modeMismatch) ∧
    (s.mcgHeld = false → classify s.mcgS ≠ .noMode →
      exec .mcgAcquire s = .next { s with mcgHeld := true, mode := classify s.mcgS })) ∧
  (∀ p : Params, p.rstS = 0x10 →
    ∃ t, exec .mcgAcquire (State.ofParams p) = .next t ∧ t.mode = .internalLocked ∧ t.status = 0x00050000) ∧
  classify 0x00 = .noMode ∧ classify 0x6E = .phaseLocked ∧
  FatalCode.mcgOwned.code = 0x22 ∧ FatalCode.modeMismatch.code = 0x1E

/-- R179: MCG_RELEASE. -/
def Obligations.McgReleaseEndsTheMode : Prop :=
  decode 0x09000000 = .ok .mcgRelease ∧
  (∀ s : State, s.phase = .idle →
    (s.mcgHeld = false → exec .mcgRelease s = fatalWith s .notOwned) ∧
    (s.mcgHeld = true → exec .mcgRelease s = .next { s with mcgHeld := false, mode := .noMode })) ∧
  (∀ s : State, s.phase.isWait = true → exec .mcgRelease s = fatalWith s .cmdWhileBusy) ∧
  (∀ p : Params, p.rstS = 0x10 →
    ∃ t u, exec .mcgAcquire (State.ofParams p) = .next t ∧ exec .mcgRelease t = .next u ∧ u.mcgHeld = false ∧
      u.mode = .noMode ∧ u.status = 0x00000000) ∧
  FatalCode.notOwned.code = 0x41 ∧ FatalCode.cmdWhileBusy.code = 0x46

/-- R180: SIM_ACQUIRE. -/
def Obligations.SimAcquireSetsItsFlag : Prop :=
  decode 0x10000000 = .ok .simAcquire ∧
  (∀ s : State, s.phase = .idle →
    (s.simHeld = true → exec .simAcquire s = fatalWith s .simOwned) ∧
    (s.simHeld = false → exec .simAcquire s = .next { s with simHeld := true })) ∧
  (∀ p : Params, ∃ t, exec .simAcquire (State.ofParams p) = .next t ∧ t.status = 0x00100000) ∧
  FatalCode.simOwned.code = 0x23

/-- R181: SIM_RELEASE; the gates and ports acquired before stay owned and can still be released, and without `sim_held` no gate
or port is acquired and no divider written. -/
def Obligations.SimReleaseKeepsGatesAndPorts : Prop :=
  decode 0x11000000 = .ok .simRelease ∧
  (∀ s : State, s.phase = .idle →
    (s.simHeld = false → exec .simRelease s = fatalWith s .notOwned) ∧
    (s.simHeld = true → exec .simRelease s = .next { s with simHeld := false })) ∧
  (∀ (s : State) (a b c : Nat), s.phase = .idle → s.simHeld = false →
    exec (.gateAcquire a b) s = fatalWith s .notOwned ∧ exec (.portAcquire a) s = fatalWith s .notOwned ∧
    exec (.simSetDividers a b c) s = fatalWith s .notOwned) ∧
  (∀ (s : State) (g : Gate), s.phase = .idle → s.simHeld = false → s.ownerOf g = .host →
    ∃ t, exec (.gateRelease (gateRegNumber g.reg) g.bit) s = .next t ∧ t.ownerOf g = .nobody) ∧
  (∀ (s : State) (p : Port), s.phase = .idle → s.simHeld = false → s.portHeld p = true →
    (∀ i, s.capOf ⟨p, i⟩ = .free) →
    ∃ t, exec (.portRelease (portNumber p)) s = .next t ∧ t.portHeld p = false) ∧
  FatalCode.notOwned.code = 0x41

/-- R175: each singleton flag changes only by its own acquire, its own release, or reset: no other command and no turn of
BLOCK or ENV writes it. -/
def Obligations.SingletonFlagsChangeOnlyByTheirCommands : Prop :=
  (∀ (i : Instr) (s t : State), exec i s = .next t →
    (t.oscHeld ≠ s.oscHeld → i = .oscAcquire ∨ i = .oscRelease) ∧
    (t.mcgHeld ≠ s.mcgHeld → i = .mcgAcquire ∨ i = .mcgRelease) ∧
    (t.simHeld ≠ s.simHeld → i = .simAcquire ∨ i = .simRelease)) ∧
  (∀ (s t : State) (v : Byte), s.take .block = .next t ∨ s.take (.env v) = .next t →
    t.oscHeld = s.oscHeld ∧ t.mcgHeld = s.mcgHeld ∧ t.simHeld = s.simHeld)

/-! ### The oscillator -/

/-- R131, R132, R133: OSC_ENABLE writes bit 7, clears bits 6 to 4, reverses the four bits of `CAP / 2` into bits 3 to 0, and
sets the token; an odd or too large capacitance is fatal. -/
def Obligations.OscEnableWritesTheControlByte : Prop :=
  (∀ cap, cap < 256 → decode (BitVec.ofNat 32 (0x03 * 2 ^ 24 + cap)) = .ok (.oscEnable cap)) ∧
  (∀ (cap : Nat) (s : State), s.phase = .idle →
    (s.oscHeld = false → exec (.oscEnable cap) s = fatalWith s .notOwned) ∧
    (s.oscHeld = true → cap % 2 = 1 ∨ 30 < cap → exec (.oscEnable cap) s = fatalWith s .badCapacitance) ∧
    (s.oscHeld = true → cap % 2 = 0 → cap ≤ 30 →
      ∃ v : Byte, exec (.oscEnable cap) s = .next { s with oscCr := v, oscToken := true } ∧
        field v 7 1 = 1 ∧ field v 4 3 = 0 ∧
        v.getLsbD 3 = (cap / 2).testBit 0 ∧ v.getLsbD 2 = (cap / 2).testBit 1 ∧
        v.getLsbD 1 = (cap / 2).testBit 2 ∧ v.getLsbD 0 = (cap / 2).testBit 3)) ∧
  (∀ s : State, s.phase = .idle → s.oscHeld = true →
    (List.range 16).map (fun c => exec (.oscEnable (2 * c)) s)
      = [0x80, 0x88, 0x84, 0x8C, 0x82, 0x8A, 0x86, 0x8E, 0x81, 0x89, 0x85, 0x8D, 0x83, 0x8B, 0x87, 0x8F].map
          fun v => .next { s with oscCr := v, oscToken := true }) ∧
  FatalCode.notOwned.code = 0x41 ∧ FatalCode.badCapacitance.code = 0x11

/-- R134: only OSC_ENABLE writes `OSC_CR` or sets the token, which besides it only MCG_ENABLE_EXT_REF clears; releasing the
controller changes neither. -/
def Obligations.OnlyOscEnableMakesTheToken : Prop :=
  (∀ (i : Instr) (s t : State), exec i s = .next t →
    (t.oscCr ≠ s.oscCr → ∃ cap, i = .oscEnable cap) ∧
    (s.oscToken = false → t.oscToken = true → ∃ cap, i = .oscEnable cap) ∧
    (s.oscToken = true → t.oscToken = false → ∃ range div, i = .mcgEnableExtRef range div) ∧
    (i = .oscRelease → t.oscCr = s.oscCr ∧ t.oscToken = s.oscToken)) ∧
  (∀ (s t : State) (v : Byte), s.take .block = .next t ∨ s.take (.env v) = .next t →
    t.oscCr = s.oscCr ∧ t.oscToken = s.oscToken)

/-! ### The clock generator -/

/-- R101: the classification of a status, bit by bit. -/
def Obligations.ClassifyReadsTheStatusBits : Prop :=
  ∀ v : Byte,
    (classify v = .internalLocked ↔ field v 4 1 = 1 ∧ field v 5 1 = 0 ∧ field v 2 2 = 0) ∧
    (classify v = .externalReference ↔ field v 4 1 = 0 ∧ field v 5 1 = 0 ∧ field v 2 2 = 2) ∧
    (classify v = .phaseLocked ↔ field v 4 1 = 0 ∧ field v 5 1 = 1 ∧ (field v 2 2 = 2 ∨ field v 2 2 = 3))

/-- R102, R105: MCG_ENABLE_EXT_REF: its errors in their order, and its writes. -/
def Obligations.ExtRefWritesItsFieldsAndWaits : Prop :=
  (∀ range div, range < 4 → div < 65536 →
    decode (BitVec.ofNat 32 (0x0A * 2 ^ 24 + range * 2 ^ 16 + div)) = .ok (.mcgEnableExtRef range div)) ∧
  (∀ (range div : Nat) (s : State), s.phase = .idle →
    let table := if range = 0 then [1, 2, 4, 8, 16, 32, 64, 128] else [32, 64, 128, 256, 512, 1024, 1280, 1536]
    let answer := exec (.mcgEnableExtRef range div) s
    (s.mcgHeld = false → answer = fatalWith s .notOwned) ∧
    (s.mcgHeld = true → s.mode ≠ .internalLocked → answer = fatalWith s .illegalTransition) ∧
    (s.mcgHeld = true → s.mode = .internalLocked → s.oscToken = false → answer = fatalWith s .noOscToken) ∧
    (s.mcgHeld = true → s.mode = .internalLocked → s.oscToken = true → 2 < range →
      answer = fatalWith s .badRange) ∧
    (s.mcgHeld = true → s.mode = .internalLocked → s.oscToken = true → range ≤ 2 → div ∉ table →
      answer = fatalWith s .badDivisor) ∧
    (∀ idx, s.mcgHeld = true → s.mode = .internalLocked → s.oscToken = true → range ≤ 2 → table[idx]? = some div →
      ∃ c1 c2 : Byte,
        answer = .next { s with
          mcgC1 := c1, mcgC2 := c2, oscToken := false, mode := .noMode, phase := .wOscinit } ∧
        field c2 4 2 = range ∧ field c2 2 1 = 1 ∧ c2 &&& 0xCB = s.mcgC2 &&& 0xCB ∧
        field c1 6 2 = 2 ∧ field c1 3 3 = idx ∧ field c1 2 1 = 0 ∧ c1 &&& 0x03 = s.mcgC1 &&& 0x03)) ∧
  (∀ s : State, s.phase = .idle → s.mcgHeld = true → s.mode = .internalLocked → s.oscToken = true →
    s.mcgC1 = 0x04 → s.mcgC2 = 0x80 →
    ∃ t, exec (.mcgEnableExtRef 2 512) s = .next t ∧ t.mcgC2 = 0xA4 ∧ t.mcgC1 = 0xA0 ∧ t.phase = .wOscinit) ∧
  [FatalCode.notOwned, .illegalTransition, .noOscToken, .badRange, .badDivisor].map FatalCode.code
    = [0x41, 0x42, 0x43, 0x12, 0x13]

/-- R109: MCG_ENABLE_PLL: its errors in their order, and its writes. -/
def Obligations.PllWritesItsFieldsAndWaits : Prop :=
  (∀ num den, num < 256 → den < 256 →
    decode (BitVec.ofNat 32 (0x0B * 2 ^ 24 + num * 2 ^ 8 + den)) = .ok (.mcgEnablePll num den)) ∧
  (∀ (num den : Nat) (s : State), s.phase = .idle →
    let answer := exec (.mcgEnablePll num den) s
    (s.mcgHeld = false → answer = fatalWith s .notOwned) ∧
    (s.mcgHeld = true → s.mode ≠ .externalReference → answer = fatalWith s .illegalTransition) ∧
    (s.mcgHeld = true → s.mode = .externalReference → num < 24 ∨ 55 < num →
      answer = fatalWith s .badPllNumerator) ∧
    (s.mcgHeld = true → s.mode = .externalReference → 24 ≤ num → num ≤ 55 → den < 1 ∨ 25 < den →
      answer = fatalWith s .badPllDenominator) ∧
    (s.mcgHeld = true → s.mode = .externalReference → 24 ≤ num → num ≤ 55 → 1 ≤ den → den ≤ 25 →
      ∃ c5 c6 : Byte,
        answer = .next { s with mcgC5 := c5, mcgC6 := c6, mode := .noMode, phase := .wPllst } ∧
        field c5 0 5 = den - 1 ∧ c5 &&& 0xE0 = s.mcgC5 &&& 0xE0 ∧
        field c6 6 1 = 1 ∧ field c6 0 5 = num - 24 ∧ c6 &&& 0xA0 = s.mcgC6 &&& 0xA0)) ∧
  (∀ s : State, s.phase = .idle → s.mcgHeld = true → s.mode = .externalReference → s.mcgC5 = 0x00 → s.mcgC6 = 0x00 →
    ∃ t, exec (.mcgEnablePll 27 6) s = .next t ∧ t.mcgC5 = 0x05 ∧ t.mcgC6 = 0x43 ∧ t.phase = .wPllst) ∧
  [FatalCode.notOwned, .illegalTransition, .badPllNumerator, .badPllDenominator].map FatalCode.code
    = [0x41, 0x42, 0x14, 0x15]

/-- R112: MCG_SELECT_PLL. -/
def Obligations.SelectPllSwitchesTheSourceAndWaits : Prop :=
  decode 0x0C000000 = .ok .mcgSelectPll ∧
  (∀ s : State, s.phase = .idle →
    (s.mcgHeld = false → exec .mcgSelectPll s = fatalWith s .notOwned) ∧
    (s.mcgHeld = true → s.mode ≠ .phaseLocked → exec .mcgSelectPll s = fatalWith s .illegalTransition) ∧
    (s.mcgHeld = true → s.mode = .phaseLocked →
      ∃ c1 : Byte, exec .mcgSelectPll s = .next { s with mcgC1 := c1, phase := .wClkstPll } ∧
        field c1 6 2 = 0 ∧ c1 &&& 0x3F = s.mcgC1 &&& 0x3F)) ∧
  (∀ s : State, s.phase = .idle → s.mcgHeld = true → s.mode = .phaseLocked → s.mcgC1 = 0xA0 →
    ∃ t, exec .mcgSelectPll s = .next t ∧ t.mcgC1 = 0x20 ∧ t.phase = .wClkstPll) ∧
  FatalCode.notOwned.code = 0x41 ∧ FatalCode.illegalTransition.code = 0x42

/-- R106, R107, R108: the three waits of the external-reference transition. -/
def Obligations.ExtRefWaitsInOrder : Prop :=
  ∀ s : State,
    (s.phase = .wOscinit →
      (s.mcgS.getLsbD 1 = true → s.take .block = .next { s with phase := .wIrefst }) ∧
      (s.mcgS.getLsbD 1 = false → s.take .block = .next s)) ∧
    (s.phase = .wIrefst →
      (s.mcgS.getLsbD 4 = false → s.take .block = .next { s with phase := .wClkstExt }) ∧
      (s.mcgS.getLsbD 4 = true → s.take .block = .next s)) ∧
    (s.phase = .wClkstExt →
      (field s.mcgS 2 2 = 2 → s.take .block = .next { s with mode := .externalReference, phase := .idle }) ∧
      (field s.mcgS 2 2 ≠ 2 → s.take .block = .next s))

/-- R110, R111, R113: the waits of the phase-lock transition and of the source selection. -/
def Obligations.PllWaitsInOrder : Prop :=
  ∀ s : State,
    (s.phase = .wPllst →
      (s.mcgS.getLsbD 5 = true → s.take .block = .next { s with phase := .wLock }) ∧
      (s.mcgS.getLsbD 5 = false → s.take .block = .next s)) ∧
    (s.phase = .wLock →
      (s.mcgS.getLsbD 6 = true → s.take .block = .next { s with mode := .phaseLocked, phase := .idle }) ∧
      (s.mcgS.getLsbD 6 = false → s.take .block = .next s)) ∧
    (s.phase = .wClkstPll →
      (field s.mcgS 2 2 = 3 → s.take .block = .next { s with phase := .idle }) ∧
      (field s.mcgS 2 2 ≠ 3 → s.take .block = .next s))

/-- R103: the mode graph, over every step: a mode value appears only at an acquisition that reads it off the status, at a
reset that takes it away, or where a wait that was entered from the mode before it completes; and the transitions are
issued only from their one mode. -/
def Obligations.ModeGraphIsOneWay : Prop :=
  (∀ s t : State, step s = .next t → t.mode ≠ s.mode → t.mode ≠ .noMode →
    (s.mcgHeld = false ∧ t.mcgHeld = true ∧ t.mode = classify s.mcgS) ∨
    (s.phase = .wClkstExt ∧ t.mode = .externalReference) ∨
    (s.phase = .wLock ∧ t.mode = .phaseLocked)) ∧
  (∀ s t : State, step s = .next t → t.phase ≠ s.phase →
    (t.phase = .wOscinit → s.phase = .idle ∧ s.mode = .internalLocked) ∧
    (t.phase = .wIrefst → s.phase = .wOscinit) ∧
    (t.phase = .wClkstExt → s.phase = .wIrefst) ∧
    (t.phase = .wPllst → s.phase = .idle ∧ s.mode = .externalReference) ∧
    (t.phase = .wLock → s.phase = .wPllst) ∧
    (t.phase = .wClkstPll → s.phase = .idle ∧ s.mode = .phaseLocked ∧ t.mode = .phaseLocked))

/-- R7: no turn of HOST and no hold of BLOCK lifts an unconfirmed wait: the phase stays, becomes FATAL, or the block is
reset. -/
def Obligations.OnlyConfirmationLiftsAWait : Prop :=
  ∀ (s t : State) (u : Turn), s.phase.isWait = true → s.phase.awaited s.mcgS = false → s.take u = .next t →
    t.phase = s.phase ∨ (u = .host ∧ t.phase = .fatal) ∨ ∃ src, u = .reset src

/-- R114: once ENV has put a status that meets the later waits of the external-reference transition, BLOCK completes them one
after the other, each tested once, whatever the status was when the earlier ones were passed. -/
def Obligations.ConfirmedTransitionsComplete : Prop :=
  (∀ (s : State) (v1 v2 v3 : Byte) (rest : List Turn), s.params.env = .free → s.phase = .wOscinit →
    v1.getLsbD 1 = true → v2.getLsbD 4 = false → field v3 2 2 = 2 →
    s.schedule = .env v1 :: .block :: .env v2 :: .block :: .env v3 :: .block :: rest →
    after 6 s = some { s with mcgS := v3, mode := .externalReference, phase := .idle, schedule := rest }) ∧
  (∀ (s : State) (v1 v2 : Byte) (rest : List Turn), s.params.env = .free → s.phase = .wPllst →
    v1.getLsbD 5 = true → v2.getLsbD 6 = true →
    s.schedule = .env v1 :: .block :: .env v2 :: .block :: rest →
    after 4 s = some { s with mcgS := v2, mode := .phaseLocked, phase := .idle, schedule := rest })

/-- R115 (with the model's deterministic order, assumption 8): under FREE, with no turn listed, a wait whose condition does not
hold lasts for ever. -/
def Obligations.UnconfirmedWaitHangs : Prop :=
  ∀ s : State, s.params.env = .free → s.schedule = [] → s.phase.isWait = true → s.phase.awaited s.mcgS = false →
    hangs s ∧ ∀ n, after n s = some s

/-- R119, in the model's reading of its fairness (`Safety.fair`, a DESIGN CHOICE: assumption 21) and with the model's
deterministic order (assumption 8): every fair run that no model fault stops leaves every wait phase it enters. -/
def Obligations.FairRunsLeaveEveryWait : Prop :=
  ∀ s : State, s.params.envFair = true → fair s → ∀ n t, after n s = some t → t.phase.isWait = true →
    (∃ m, after m t = none) ∨ ∃ m u, after m t = some u ∧ u.phase ≠ t.phase

/-- R118 and R106 to R108, in the model's deterministic order (assumption 8): under REFERENCE, with no turn listed, the waits of
an external-reference transition whose control fields are written end within four steps, in the mode EXTERNAL_REFERENCE. -/
def Obligations.ReferenceCompletesTheExternalReference : Prop :=
  ∀ s : State, s.params.env = .reference → s.schedule = [] → s.phase = .wOscinit →
    field s.mcgC2 2 1 = 1 → field s.mcgC1 2 1 = 0 → field s.mcgC1 6 2 = 2 →
    ∃ n t, n ≤ 4 ∧ after n s = some t ∧ t.phase = .idle ∧ t.mode = .externalReference ∧ t.program = s.program

/-- R117, R118: ENV's turn changes `MCG_S` alone: to any value under FREE, to `settle()` under REFERENCE. -/
def Obligations.EnvDrivesOnlyTheStatus : Prop :=
  (∀ (s : State) (v : Byte), s.params.env = .free → s.take (.env v) = .next { s with mcgS := v }) ∧
  (∀ (s : State) (v : Byte), s.params.env = .reference →
    ∃ w : Byte, s.take (.env v) = .next { s with mcgS := w } ∧
      field w 7 1 = 0 ∧ field w 6 1 = field s.mcgC6 6 1 ∧ field w 5 1 = field s.mcgC6 6 1 ∧
      field w 4 1 = field s.mcgC1 2 1 ∧
      field w 2 2 = (if field s.mcgC1 6 2 = 0 then (if field s.mcgC6 6 1 = 1 then 3 else 0) else field s.mcgC1 6 2) ∧
      field w 1 1 = field s.mcgC2 2 1 ∧ field w 0 1 = 0) ∧
  (∀ (s t : State) (u : Turn), s.take u = .next t → t.mcgS ≠ s.mcgS →
    (∃ v, u = .env v) ∨ ∃ src, u = .reset src) ∧
  State.reset.settle = 0x10

/-! ### Gates and dividers -/

/-- R140: GATE_ACQUIRE: its errors in their order; the one gate bit and its owner. -/
def Obligations.GateAcquireSetsOneBit : Prop :=
  (∀ reg bit, reg < 256 → bit < 256 →
    decode (BitVec.ofNat 32 (0x12 * 2 ^ 24 + reg * 2 ^ 8 + bit)) = .ok (.gateAcquire reg bit)) ∧
  (∀ (reg bit : Nat) (s : State), s.phase = .idle →
    (s.simHeld = false → exec (.gateAcquire reg bit) s = fatalWith s .notOwned) ∧
    (s.simHeld = true → reg < 4 ∨ 7 < reg → exec (.gateAcquire reg bit) s = fatalWith s .badGateRegister) ∧
    (s.simHeld = true → 4 ≤ reg → reg ≤ 7 → 31 < bit →
      exec (.gateAcquire reg bit) s = fatalWith s .badGateBit)) ∧
  (∀ (g : Gate) (s : State), s.phase = .idle → s.simHeld = true →
    (s.gateBit g = true → exec (.gateAcquire (gateRegNumber g.reg) g.bit) s = fatalWith s .gateSet) ∧
    (s.gateBit g = false →
      ∃ t, exec (.gateAcquire (gateRegNumber g.reg) g.bit) s = .next t ∧
        t = { s with scgc := t.scgc, gateOwner := t.gateOwner } ∧
        (∀ h, t.gateBit h = if h = g then true else s.gateBit h) ∧
        (∀ h, t.ownerOf h = if h = g then .host else s.ownerOf h))) ∧
  (∀ s : State, s.phase = .idle → s.simHeld = true → s.scgcOf .scgc4 = 0xF0100030 →
    ∃ t, exec (.gateAcquire 4 10) s = .next t ∧ t.scgcOf .scgc4 = 0xF0100430 ∧ t.ownerOf ⟨.scgc4, 10⟩ = .host) ∧
  [FatalCode.notOwned, .badGateRegister, .badGateBit, .gateSet].map FatalCode.code = [0x41, 0x19, 0x1A, 0x24]

/-- R141: GATE_RELEASE: its errors in their order; the one gate bit and its owner; `sim_held` is not needed. -/
def Obligations.GateReleaseClearsOneBit : Prop :=
  (∀ reg bit, reg < 256 → bit < 256 →
    decode (BitVec.ofNat 32 (0x13 * 2 ^ 24 + reg * 2 ^ 8 + bit)) = .ok (.gateRelease reg bit)) ∧
  (∀ (reg bit : Nat) (s : State), s.phase = .idle →
    (reg < 4 ∨ 7 < reg → exec (.gateRelease reg bit) s = fatalWith s .badGateRegister) ∧
    (4 ≤ reg → reg ≤ 7 → 31 < bit → exec (.gateRelease reg bit) s = fatalWith s .badGateBit)) ∧
  (∀ (g : Gate) (s : State), s.phase = .idle →
    (s.ownerOf g ≠ .host → exec (.gateRelease (gateRegNumber g.reg) g.bit) s = fatalWith s .notOwned) ∧
    (s.ownerOf g = .host →
      ∃ t, exec (.gateRelease (gateRegNumber g.reg) g.bit) s = .next t ∧
        t = { s with scgc := t.scgc, gateOwner := t.gateOwner } ∧
        (∀ h, t.gateBit h = if h = g then false else s.gateBit h) ∧
        (∀ h, t.ownerOf h = if h = g then .nobody else s.ownerOf h))) ∧
  (∀ s : State, s.phase = .idle → s.scgcOf .scgc4 = 0xF0100430 → s.ownerOf ⟨.scgc4, 10⟩ = .host →
    ∃ t, exec (.gateRelease 4 10) s = .next t ∧ t.scgcOf .scgc4 = 0xF0100030 ∧ t.ownerOf ⟨.scgc4, 10⟩ = .nobody) ∧
  [FatalCode.badGateRegister, .badGateBit, .notOwned].map FatalCode.code = [0x19, 0x1A, 0x41]

/-- R143, R146: SIM_SET_DIVIDERS: its errors in their order, and the three fields. -/
def Obligations.SetDividersWritesThreeFields : Prop :=
  (∀ core bus flash, core < 256 → bus < 256 → flash < 256 →
    decode (BitVec.ofNat 32 (0x14 * 2 ^ 24 + core * 2 ^ 16 + bus * 2 ^ 8 + flash))
      = .ok (.simSetDividers core bus flash)) ∧
  (∀ (core bus flash : Nat) (s : State), s.phase = .idle →
    let answer := exec (.simSetDividers core bus flash) s
    (s.simHeld = false → answer = fatalWith s .notOwned) ∧
    (s.simHeld = true → core < 1 ∨ 16 < core → answer = fatalWith s .badDividerCore) ∧
    (s.simHeld = true → 1 ≤ core → core ≤ 16 → bus < 1 ∨ 16 < bus → answer = fatalWith s .badDividerBus) ∧
    (s.simHeld = true → 1 ≤ core → core ≤ 16 → 1 ≤ bus → bus ≤ 16 → flash < 1 ∨ 16 < flash →
      answer = fatalWith s .badDividerFlash) ∧
    (s.simHeld = true → 1 ≤ core → core ≤ 16 → 1 ≤ bus → bus ≤ 16 → 1 ≤ flash → flash ≤ 16 →
      ∃ d : Word, answer = .next { s with clkdiv1 := d } ∧
        field d 28 4 = core - 1 ∧ field d 24 4 = bus - 1 ∧ field d 16 4 = flash - 1 ∧
        d &&& 0x00F0FFFF = s.clkdiv1 &&& 0x00F0FFFF)) ∧
  (∀ s : State, s.phase = .idle → s.simHeld = true → s.clkdiv1 = 0x00010000 →
    exec (.simSetDividers 1 2 3) s = .next { s with clkdiv1 := 0x01020000 }) ∧
  [FatalCode.notOwned, .badDividerCore, .badDividerBus, .badDividerFlash].map FatalCode.code = [0x41, 0x16, 0x17, 0x18]

/-- R138: the gate word of `(n, b)` is at its alias address, reads the one gate bit, and follows GATE_ACQUIRE and
GATE_RELEASE. -/
def Obligations.GateAliasShowsTheGateBit : Prop :=
  (∀ (n : GateReg) (b : Fin 32), gateAddr ⟨n, b⟩ = 0x42900500 + 128 * (gateRegNumber n - 1) + 4 * b.val) ∧
  (∀ (s : State) (g : Gate), paramsOk s.params = true →
    s.memRead (BitVec.ofNat 32 (gateAddr g)) 4 = .ok (if s.gateBit g = true then 1 else 0) ∧
    s.memRead (BitVec.ofNat 32 (0x40048034 + 4 * (gateRegNumber g.reg - 4))) 4 = .ok (s.scgcOf g.reg) ∧
    (s.scgcOf g.reg).getLsbD g.bit = s.gateBit g) ∧
  (∀ (s : State) (g : Gate), paramsOk s.params = true → s.phase = .idle → s.simHeld = true → s.gateBit g = false →
    ∃ t, exec (.gateAcquire (gateRegNumber g.reg) g.bit) s = .next t ∧
      t.memRead (BitVec.ofNat 32 (gateAddr g)) 4 = .ok 1) ∧
  (∀ (s : State) (g : Gate), paramsOk s.params = true → s.phase = .idle → s.ownerOf g = .host →
    ∃ t, exec (.gateRelease (gateRegNumber g.reg) g.bit) s = .next t ∧
      t.memRead (BitVec.ofNat 32 (gateAddr g)) 4 = .ok 0) ∧
  [gateAddr ⟨.scgc4, 0⟩, gateAddr ⟨.scgc4, 10⟩, gateAddr ⟨.scgc5, 10⟩, gateAddr ⟨.scgc5, 11⟩, gateAddr ⟨.scgc7, 31⟩]
    = [0x42900680, 0x429006A8, 0x42900728, 0x4290072C, 0x4290087C]

/-! ### Ports and pins -/

/-- R151: PORT_ACQUIRE. -/
def Obligations.PortAcquireTakesThePortGate : Prop :=
  (∀ port, port < 256 → decode (BitVec.ofNat 32 (0x18 * 2 ^ 24 + port * 2 ^ 8)) = .ok (.portAcquire port)) ∧
  (∀ (port : Nat) (s : State), s.phase = .idle →
    (s.simHeld = false → exec (.portAcquire port) s = fatalWith s .notOwned) ∧
    (s.simHeld = true → port ≠ 1 → port ≠ 2 → exec (.portAcquire port) s = fatalWith s .badPort)) ∧
  (∀ (p : Port) (s : State), s.phase = .idle → s.simHeld = true →
    let port := match p with | .b => 1 | .c => 2
    (s.gateBit (s.params.portGate p) = true → exec (.portAcquire port) s = fatalWith s .gateSet) ∧
    (s.gateBit (s.params.portGate p) = false →
      ∃ t, exec (.portAcquire port) s = .next t ∧ t = { s with scgc := t.scgc, gateOwner := t.gateOwner } ∧
        (∀ h, t.gateBit h = if h = s.params.portGate p then true else s.gateBit h) ∧
        (∀ h, t.ownerOf h = if h = s.params.portGate p then .port p else s.ownerOf h) ∧
        t.portHeld p = true ∧ (OwnershipInv s → ∀ i, t.capOf ⟨p, i⟩ = .free))) ∧
  (∀ s : State, s.phase = .idle → s.simHeld = true → s.params.portGateB = ⟨.scgc5, 10⟩ →
    s.scgcOf .scgc5 = 0x00040182 →
    ∃ t, exec (.portAcquire 1) s = .next t ∧ t.scgcOf .scgc5 = 0x00040582 ∧ t.portHeld .b = true) ∧
  [FatalCode.notOwned, .badPort, .gateSet].map FatalCode.code = [0x41, 0x1B, 0x24]

/-- R152: PORT_RELEASE. -/
def Obligations.PortReleaseUngatesAFreePort : Prop :=
  (∀ port, port < 256 → decode (BitVec.ofNat 32 (0x19 * 2 ^ 24 + port * 2 ^ 8)) = .ok (.portRelease port)) ∧
  (∀ (port : Nat) (s : State), s.phase = .idle → port ≠ 1 → port ≠ 2 →
    exec (.portRelease port) s = fatalWith s .badPort) ∧
  (∀ (p : Port) (s : State), s.phase = .idle →
    let port := match p with | .b => 1 | .c => 2
    (s.portHeld p = false → exec (.portRelease port) s = fatalWith s .notOwned) ∧
    (s.portHeld p = true → (∃ i, s.capOf ⟨p, i⟩ ≠ .free) → exec (.portRelease port) s = fatalWith s .portInUse) ∧
    (s.portHeld p = true → (∀ i, s.capOf ⟨p, i⟩ = .free) →
      ∃ t, exec (.portRelease port) s = .next t ∧ t = { s with scgc := t.scgc, gateOwner := t.gateOwner } ∧
        (∀ h, t.gateBit h = if h = s.params.portGate p then false else s.gateBit h) ∧
        (∀ h, t.ownerOf h = if h = s.params.portGate p then .nobody else s.ownerOf h) ∧
        t.portHeld p = false)) ∧
  (∀ s : State, s.phase = .idle → s.params.portGateB = ⟨.scgc5, 10⟩ → s.scgcOf .scgc5 = 0x00040582 →
    s.portHeld .b = true → (∀ i, s.capOf ⟨.b, i⟩ = .free) →
    ∃ t, exec (.portRelease 1) s = .next t ∧ t.scgcOf .scgc5 = 0x00040182) ∧
  [FatalCode.badPort, .notOwned, .portInUse].map FatalCode.code = [0x1B, 0x41, 0x45]

/-- R149, R153: PIN_ACQUIRE. -/
def Obligations.PinAcquireLocksThePin : Prop :=
  (∀ port idx, port < 256 → idx < 256 →
    decode (BitVec.ofNat 32 (0x1A * 2 ^ 24 + port * 2 ^ 8 + idx)) = .ok (.pinAcquire port idx)) ∧
  ChecksPin .pinAcquire ∧
  (∀ (q : Pin) (s : State), s.phase = .idle → s.portHeld q.port = true →
    let port := match q.port with | .b => 1 | .c => 2
    (s.capOf q ≠ .free → exec (.pinAcquire port q.idx) s = fatalWith s .pinLocked) ∧
    (s.capOf q = .free →
      ∃ t, exec (.pinAcquire port q.idx) s = .next t ∧ t = { s with cap := t.cap } ∧
        (∀ r, t.capOf r = if r = q then .pin else s.capOf r) ∧ (t.locks q.port).getLsbD q.idx = true)) ∧
  [FatalCode.badPort, .notOwned, .badPinIndex, .pinLocked].map FatalCode.code = [0x1B, 0x41, 0x1C, 0x25]

/-- R149, R154: PIN_RELEASE, of any capability. -/
def Obligations.PinReleaseFreesThePin : Prop :=
  (∀ port idx, port < 256 → idx < 256 →
    decode (BitVec.ofNat 32 (0x1B * 2 ^ 24 + port * 2 ^ 8 + idx)) = .ok (.pinRelease port idx)) ∧
  ChecksPin .pinRelease ∧
  (∀ (q : Pin) (s : State), s.phase = .idle → s.portHeld q.port = true →
    let port := match q.port with | .b => 1 | .c => 2
    (s.capOf q = .free → exec (.pinRelease port q.idx) s = fatalWith s .notOwned) ∧
    (s.capOf q ≠ .free →
      ∃ t, exec (.pinRelease port q.idx) s = .next t ∧ t = { s with cap := t.cap } ∧
        (∀ r, t.capOf r = if r = q then .free else s.capOf r) ∧ (t.locks q.port).getLsbD q.idx = false)) ∧
  [FatalCode.badPort, .notOwned, .badPinIndex].map FatalCode.code = [0x1B, 0x41, 0x1C]

/-- R149, R155, R156: PIN_MAKE_GPIO. -/
def Obligations.MakeGpioWritesMuxOne : Prop :=
  (∀ port idx, port < 256 → idx < 256 →
    decode (BitVec.ofNat 32 (0x1C * 2 ^ 24 + port * 2 ^ 8 + idx)) = .ok (.pinMakeGpio port idx)) ∧
  ChecksPin .pinMakeGpio ∧ ChecksPlainPin .pinMakeGpio ∧
  (∀ (q : Pin) (s : State), s.phase = .idle → s.portHeld q.port = true → s.capOf q = .pin →
    ∃ t, exec (.pinMakeGpio (portNumber q.port) q.idx) s = .next t ∧ t = { s with cap := t.cap, pcr := t.pcr } ∧
      (∀ r, t.capOf r = if r = q then .gpio else s.capOf r) ∧
      (∀ r, r ≠ q → t.pcrOf r = s.pcrOf r) ∧
      field (t.pcrOf q) 8 3 = 1 ∧ t.pcrOf q &&& 0xFFFFF8FF = s.pcrOf q &&& 0xFFFFF8FF) ∧
  (∀ s : State, s.phase = .idle → s.portHeld .c = true → s.capOf ⟨.c, 5⟩ = .pin → s.pcrOf ⟨.c, 5⟩ = 0x00000000 →
    ∃ t, exec (.pinMakeGpio 2 5) s = .next t ∧ t.pcrOf ⟨.c, 5⟩ = 0x00000100 ∧ t.capOf ⟨.c, 5⟩ = .gpio) ∧
  [FatalCode.badPort, .notOwned, .badPinIndex, .pinAlreadyConverted].map FatalCode.code = [0x1B, 0x41, 0x1C, 0x44]

/-- R149, R155, R157: PIN_MAKE_RX. -/
def Obligations.MakeRxNeedsTheWiredPin : Prop :=
  (∀ unit port idx, unit < 256 → port < 256 → idx < 256 →
    decode (BitVec.ofNat 32 (0x1D * 2 ^ 24 + unit * 2 ^ 16 + port * 2 ^ 8 + idx)) = .ok (.pinMakeRx unit port idx)) ∧
  (∀ unit, ChecksPin (.pinMakeRx unit) ∧ ChecksPlainPin (.pinMakeRx unit)) ∧
  (∀ (unit : Nat) (q : Pin) (s : State), s.phase = .idle → s.portHeld q.port = true → s.capOf q = .pin →
    let answer := exec (.pinMakeRx unit (portNumber q.port) q.idx) s
    (unit ≠ 0 → answer = fatalWith s .badSerialUnit) ∧
    (unit = 0 → q ≠ s.params.rxPin0 → answer = fatalWith s .rxPinMismatch) ∧
    (unit = 0 → q = s.params.rxPin0 →
      ∃ t, answer = .next t ∧ t = { s with cap := t.cap, pcr := t.pcr } ∧
        (∀ r, t.capOf r = if r = q then .rx .unit0 else s.capOf r) ∧
        (∀ r, r ≠ q → t.pcrOf r = s.pcrOf r) ∧
        field (t.pcrOf q) 8 3 = 3 ∧ t.pcrOf q &&& 0xFFFFF8FF = s.pcrOf q &&& 0xFFFFF8FF)) ∧
  [FatalCode.badPort, .notOwned, .badPinIndex, .pinAlreadyConverted, .badSerialUnit, .rxPinMismatch].map FatalCode.code
    = [0x1B, 0x41, 0x1C, 0x44, 0x1D, 0x31]

/-- R149, R155, R158: PIN_MAKE_TX. -/
def Obligations.MakeTxNeedsTheWiredPin : Prop :=
  (∀ unit port idx, unit < 256 → port < 256 → idx < 256 →
    decode (BitVec.ofNat 32 (0x1E * 2 ^ 24 + unit * 2 ^ 16 + port * 2 ^ 8 + idx)) = .ok (.pinMakeTx unit port idx)) ∧
  (∀ unit, ChecksPin (.pinMakeTx unit) ∧ ChecksPlainPin (.pinMakeTx unit)) ∧
  (∀ (unit : Nat) (q : Pin) (s : State), s.phase = .idle → s.portHeld q.port = true → s.capOf q = .pin →
    let answer := exec (.pinMakeTx unit (portNumber q.port) q.idx) s
    (unit ≠ 0 → answer = fatalWith s .badSerialUnit) ∧
    (unit = 0 → q ≠ s.params.txPin0 → answer = fatalWith s .txPinMismatch) ∧
    (unit = 0 → q = s.params.txPin0 →
      ∃ t, answer = .next t ∧ t = { s with cap := t.cap, pcr := t.pcr } ∧
        (∀ r, t.capOf r = if r = q then .tx .unit0 else s.capOf r) ∧
        (∀ r, r ≠ q → t.pcrOf r = s.pcrOf r) ∧
        field (t.pcrOf q) 8 3 = 3 ∧ t.pcrOf q &&& 0xFFFFF8FF = s.pcrOf q &&& 0xFFFFF8FF)) ∧
  [FatalCode.badPort, .notOwned, .badPinIndex, .pinAlreadyConverted, .badSerialUnit, .txPinMismatch].map FatalCode.code
    = [0x1B, 0x41, 0x1C, 0x44, 0x1D, 0x32]

/-! ### Ownership -/

/-- R182: while a resource is held a second acquire raises its category-2 code, and right after its release the acquire
succeeds again; here for the singletons. -/
def Obligations.SingletonsAreExclusive : Prop :=
  (∀ s t : State, exec .oscAcquire s = .next t → t.phase = .idle →
    exec .oscAcquire t = fatalWith t .oscOwned ∧
    ∃ u v, exec .oscRelease t = .next u ∧ exec .oscAcquire u = .next v ∧ v.phase = .idle ∧ v.oscHeld = true) ∧
  (∀ s t : State, exec .mcgAcquire s = .next t → t.phase = .idle →
    exec .mcgAcquire t = fatalWith t .mcgOwned ∧
    ∃ u v, exec .mcgRelease t = .next u ∧ exec .mcgAcquire u = .next v ∧ v.phase = .idle ∧ v.mcgHeld = true) ∧
  (∀ s t : State, exec .simAcquire s = .next t → t.phase = .idle →
    exec .simAcquire t = fatalWith t .simOwned ∧
    ∃ u v, exec .simRelease t = .next u ∧ exec .simAcquire u = .next v ∧ v.phase = .idle ∧ v.simHeld = true)

/-- R182, for gates, ports and pins. In a state that meets the ownership invariant, a port just acquired holds no pin, so its
release succeeds. -/
def Obligations.GatesPortsAndPinsAreExclusive : Prop :=
  (∀ (s t : State) (reg bit : Nat), exec (.gateAcquire reg bit) s = .next t → t.phase = .idle →
    exec (.gateAcquire reg bit) t = fatalWith t .gateSet ∧
    ∃ u v, exec (.gateRelease reg bit) t = .next u ∧ exec (.gateAcquire reg bit) u = .next v ∧ v.phase = .idle) ∧
  (∀ (s t : State) (port : Nat), OwnershipInv s → exec (.portAcquire port) s = .next t → t.phase = .idle →
    exec (.portAcquire port) t = fatalWith t .gateSet ∧
    ∃ u v, exec (.portRelease port) t = .next u ∧ exec (.portAcquire port) u = .next v ∧ v.phase = .idle) ∧
  (∀ (s t : State) (port idx : Nat), exec (.pinAcquire port idx) s = .next t → t.phase = .idle →
    exec (.pinAcquire port idx) t = fatalWith t .pinLocked ∧
    ∃ u v, exec (.pinRelease port idx) t = .next u ∧ exec (.pinAcquire port idx) u = .next v ∧ v.phase = .idle)

/-- R35: the ownership invariant holds after reset, for every choice of the parameters. -/
def Obligations.OwnershipInvHoldsAtReset : Prop :=
  OwnershipInv State.reset ∧ ∀ p : Params, OwnershipInv (State.ofParams p)

/-- R35: every step keeps the ownership invariant. -/
def Obligations.StepKeepsOwnershipInv : Prop :=
  ∀ s t : State, OwnershipInv s → step s = .next t → OwnershipInv t

/-- Section 4 of 10_state.md, R32: after reset the bits no rule writes are at their reset values, and no gate is owned. -/
def Obligations.UnwrittenBitsHoldAtReset : Prop :=
  UnwrittenBitsInv State.reset ∧ (∀ g, State.reset.ownerOf g = .nobody) ∧
  ∀ p : Params, UnwrittenBitsInv (State.ofParams p) ∧ ∀ g, (State.ofParams p).ownerOf g = .nobody

/-- Section 4 of 10_state.md: every step keeps the bits no rule writes at their reset values, and a gate bit differs from its
reset value only while it is owned. -/
def Obligations.StepKeepsUnwrittenBits : Prop :=
  ∀ s t : State, UnwrittenBitsInv s → step s = .next t → UnwrittenBitsInv t

/-! ### The bus -/

/-- R37, R38: the fields of STATUS and LOCKS, what HOST reads at their addresses, and that a write there does nothing. -/
def Obligations.StatusAndLocksShowTheState : Prop :=
  (∀ s : State,
    field s.status 0 1 = (if s.phase.isWait = true then 1 else 0) ∧
    field s.status 1 1 = (if s.phase = .fatal then 1 else 0) ∧
    field s.status 2 3 = (match s.phase with
      | .idle => 0 | .wOscinit => 1 | .wIrefst => 2 | .wClkstExt => 3 | .wPllst => 4 | .wLock => 5 | .wClkstPll => 6
      | .fatal => 7) ∧
    field s.status 5 3 = 0 ∧
    field s.status 8 8 = s.fatalByte.toNat ∧
    field s.status 16 2 = (match s.mode with
      | .noMode => 0 | .internalLocked => 1 | .externalReference => 2 | .phaseLocked => 3) ∧
    field s.status 18 1 = s.mcgHeld.toNat ∧ field s.status 19 1 = s.oscHeld.toNat ∧
    field s.status 20 1 = s.simHeld.toNat ∧ field s.status 21 1 = s.oscToken.toNat ∧
    field s.status 22 1 = (s.portHeld .b).toNat ∧ field s.status 23 1 = (s.portHeld .c).toNat ∧
    field s.status 24 8 = 0) ∧
  (∀ (s : State) (p : Port) (i : Fin 32), (s.locks p).getLsbD i = decide (s.capOf ⟨p, i⟩ ≠ .free)) ∧
  (∀ s : State,
    s.access (.read (s.params.ctrlBase + 4) 4) = .next { s with readData := some s.status } ∧
    s.access (.read (s.params.ctrlBase + 8) 4) = .next { s with readData := some (s.locks .b) } ∧
    s.access (.read (s.params.ctrlBase + 12) 4) = .next { s with readData := some (s.locks .c) }) ∧
  (∀ (s : State) (v : Word),
    s.access (.write (s.params.ctrlBase + 4) 4 v) = .next s ∧
    s.access (.write (s.params.ctrlBase + 8) 4 v) = .next s ∧
    s.access (.write (s.params.ctrlBase + 12) 4 v) = .next s)

/-- R61, R69: every register of the map is read at its own address and width, and a pin-control register only while its port's
gate bit is set; then R61's table row by row, each address as a number with the value R69 returns there; and a read HOST makes
answers that value, or stops with that fault. The offsets R61 marks † are PRESUMED (assumption 17). -/
def Obligations.EveryRegisterReadsAtItsAddress : Prop :=
  (∀ (s : State) (r : Region), paramsOk s.params = true →
    (s.gateOpen r = true → s.memRead (BitVec.ofNat 32 (r.addr s.params)) r.bytes = .ok (s.regionValue r)) ∧
    (s.gateOpen r = false → s.memRead (BitVec.ofNat 32 (r.addr s.params)) r.bytes = .error .accessGated) ∧
    (s.gateOpen r = false ↔ ∃ q, r = .pcr q ∧ s.gateBit (s.params.portGate q.port) = false)) ∧
  (∀ s : State, paramsOk s.params = true →
    s.memRead s.params.ctrlBase 4 = .ok 0x00000000 ∧
    s.memRead (s.params.ctrlBase + 0x4) 4 = .ok s.status ∧
    s.memRead (s.params.ctrlBase + 0x8) 4 = .ok (s.locks .b) ∧
    s.memRead (s.params.ctrlBase + 0xC) 4 = .ok (s.locks .c) ∧
    s.memRead 0x40064000 1 = .ok (s.mcgC1.setWidth 32) ∧
    s.memRead 0x40064001 1 = .ok (s.mcgC2.setWidth 32) ∧
    s.memRead 0x40064004 1 = .ok (s.mcgC5.setWidth 32) ∧
    s.memRead 0x40064005 1 = .ok (s.mcgC6.setWidth 32) ∧
    s.memRead 0x40064006 1 = .ok (s.mcgS.setWidth 32) ∧
    s.memRead 0x40065000 1 = .ok (s.oscCr.setWidth 32) ∧
    s.memRead 0x40048034 4 = .ok (s.scgcOf .scgc4) ∧
    s.memRead 0x40048038 4 = .ok (s.scgcOf .scgc5) ∧
    s.memRead 0x4004803C 4 = .ok (s.scgcOf .scgc6) ∧
    s.memRead 0x40048040 4 = .ok (s.scgcOf .scgc7) ∧
    s.memRead 0x40048044 4 = .ok s.clkdiv1 ∧
    ∀ k : Fin 32,
      s.memRead (BitVec.ofNat 32 (0x42900500 + 128 * (4 - 1) + 4 * k)) 4 =
        .ok (if (s.scgcOf .scgc4).getLsbD k = true then 1 else 0) ∧
      s.memRead (BitVec.ofNat 32 (0x42900500 + 128 * (5 - 1) + 4 * k)) 4 =
        .ok (if (s.scgcOf .scgc5).getLsbD k = true then 1 else 0) ∧
      s.memRead (BitVec.ofNat 32 (0x42900500 + 128 * (6 - 1) + 4 * k)) 4 =
        .ok (if (s.scgcOf .scgc6).getLsbD k = true then 1 else 0) ∧
      s.memRead (BitVec.ofNat 32 (0x42900500 + 128 * (7 - 1) + 4 * k)) 4 =
        .ok (if (s.scgcOf .scgc7).getLsbD k = true then 1 else 0) ∧
      s.memRead (BitVec.ofNat 32 (0x4004A000 + 4 * k)) 4 =
        (if s.gateBit (s.params.portGate .b) = true then .ok (s.pcrOf ⟨.b, k⟩) else .error .accessGated) ∧
      s.memRead (BitVec.ofNat 32 (0x4004B000 + 4 * k)) 4 =
        (if s.gateBit (s.params.portGate .c) = true then .ok (s.pcrOf ⟨.c, k⟩) else .error .accessGated)) ∧
  ∀ (s : State) (a : Word) (n : Nat),
    (∀ v, s.memRead a n = .ok v → s.access (.read a n) = .next { s with readData := some v }) ∧
    ∀ e, s.memRead a n = .error e → s.access (.read a n) = .fault e

/-- R66, R67: an access that is not to a register's own address at its own width is refused, as is a write to a register the
host may not write; each is the model fault ACCESS_REFUSED of HOST's access. -/
def Obligations.OtherAccessesAreRefused : Prop :=
  (∀ (s : State) (a v : Word) (n : Nat), (∀ r : Region, a.toNat = r.addr s.params → n ≠ r.bytes) →
    s.access (.read a n) = .fault .accessRefused ∧ s.access (.write a n v) = .fault .accessRefused) ∧
  (∀ (s : State) (v : Word) (r : Region), paramsOk s.params = true →
    r ≠ .cmd → r ≠ .status → r ≠ .locks .b → r ≠ .locks .c →
    s.access (.write (BitVec.ofNat 32 (r.addr s.params)) r.bytes v) = .fault .accessRefused) ∧
  (∀ (s : State) (v : Word),
    s.access (.write (s.params.ctrlBase + 4) 4 v) = .next s ∧
    s.access (.write (s.params.ctrlBase + 8) 4 v) = .next s ∧
    s.access (.write (s.params.ctrlBase + 12) 4 v) = .next s)

/-- R71: a read changes no state of the block or of the peripherals, and reading again at once gives the same. -/
def Obligations.ReadsChangeNothing : Prop :=
  ∀ (s t : State) (a : Word) (n : Nat), s.access (.read a n) = .next t →
    (∃ v, s.memRead a n = .ok v ∧ t = { s with readData := some v }) ∧
    t.access (.read a n) = .next t

/-! ### Frames -/

/-- The frame of every command over the address space: a byte outside STATUS and outside the registers the command's rule
writes reads as before, whether the command is performed, ignored or raises its error. -/
def Obligations.CommandsWriteOnlyTheirRegisters : Prop :=
  ∀ (i : Instr) (s t : State), exec i s = .next t →
    ∀ a : Word, (∀ r, regionAt s.params a = some r → r ≠ .status ∧ r ∉ writtenRegions s.params i) →
      t.byteAt a = s.byteAt a

/-- The frame of every command over the rest of the state: what no command's rule writes, and what only the named commands
write (besides the phase and the code, which every command may write). -/
def Obligations.CommandsKeepTheOtherState : Prop :=
  ∀ (i : Instr) (s t : State), exec i s = .next t →
    t.params = s.params ∧ t.mcgS = s.mcgS ∧ t.readData = s.readData ∧ t.program = s.program ∧ t.schedule = s.schedule ∧
    (t.mode ≠ s.mode → i = .mcgAcquire ∨ i = .mcgRelease ∨ (∃ r d, i = .mcgEnableExtRef r d) ∨
      ∃ n d, i = .mcgEnablePll n d) ∧
    (t.mcgC1 ≠ s.mcgC1 → (∃ r d, i = .mcgEnableExtRef r d) ∨ i = .mcgSelectPll) ∧
    (t.mcgC2 ≠ s.mcgC2 → ∃ r d, i = .mcgEnableExtRef r d) ∧
    (t.mcgC5 ≠ s.mcgC5 ∨ t.mcgC6 ≠ s.mcgC6 → ∃ n d, i = .mcgEnablePll n d) ∧
    (t.clkdiv1 ≠ s.clkdiv1 → ∃ c b f, i = .simSetDividers c b f) ∧
    (t.scgc ≠ s.scgc ∨ t.gateOwner ≠ s.gateOwner → (∃ r b, i = .gateAcquire r b ∨ i = .gateRelease r b) ∨
      ∃ p, i = .portAcquire p ∨ i = .portRelease p) ∧
    (t.cap ≠ s.cap → ∃ u p j, i = .pinAcquire p j ∨ i = .pinRelease p j ∨ i = .pinMakeGpio p j ∨
      i = .pinMakeRx u p j ∨ i = .pinMakeTx u p j) ∧
    (t.pcr ≠ s.pcr → ∃ u p j, i = .pinMakeGpio p j ∨ i = .pinMakeRx u p j ∨ i = .pinMakeTx u p j)

/-! ### Reset -/

/-- R51, R52, R53, R217: what reset leaves, from every state and for every source: the block-internal state cleared, every
peripheral register at its parameter's value, the host window reading 0. -/
def Obligations.ResetSetsEveryRegister : Prop :=
  ∀ (s : State) (src : ResetSource),
    ∃ t, s.take (.reset src) = .next t ∧
      t.phase = .idle ∧ t.fatalCode = none ∧ t.oscHeld = false ∧ t.mcgHeld = false ∧ t.simHeld = false ∧
      t.oscToken = false ∧ t.mode = .noMode ∧ (∀ g, t.ownerOf g = .nobody) ∧ (∀ q, t.capOf q = .free) ∧
      t.mcgC1 = s.params.rstC1 ∧ t.mcgC2 = s.params.rstC2 ∧ t.mcgC5 = s.params.rstC5 ∧ t.mcgC6 = s.params.rstC6 ∧
      t.mcgS = s.params.rstS ∧ t.oscCr = s.params.rstOscCr ∧ t.clkdiv1 = s.params.rstClkdiv1 ∧
      t.scgcOf .scgc4 = s.params.rstScgc4 ∧ t.scgcOf .scgc5 = s.params.rstScgc5 ∧
      t.scgcOf .scgc6 = s.params.rstScgc6 ∧ t.scgcOf .scgc7 = s.params.rstScgc7 ∧
      (∀ q, t.pcrOf q = s.params.rstPcr) ∧ t.params = s.params ∧
      t.memRead s.params.ctrlBase 4 = .ok 0 ∧ t.memRead (s.params.ctrlBase + 4) 4 = .ok 0 ∧
      t.memRead (s.params.ctrlBase + 8) 4 = .ok 0 ∧ t.memRead (s.params.ctrlBase + 12) 4 = .ok 0

/-- R52 (the values are those the spec recommends, assumption 2): the machine's own reset state. -/
def Obligations.RecommendedResetValues : Prop :=
  let s := State.reset
  s.mcgC1 = 0x04 ∧ s.mcgC2 = 0x80 ∧ s.mcgC5 = 0x00 ∧ s.mcgC6 = 0x00 ∧ s.mcgS = 0x10 ∧ s.oscCr = 0x00 ∧
  s.clkdiv1 = 0x00010000 ∧ s.scgcOf .scgc4 = 0xF0100030 ∧ s.scgcOf .scgc5 = 0x00040182 ∧
  s.scgcOf .scgc6 = 0x40000001 ∧ s.scgcOf .scgc7 = 0x00000006 ∧ (∀ q, s.pcrOf q = 0x00000000) ∧
  s.status = 0x00000000 ∧ s.locks .b = 0 ∧ s.locks .c = 0 ∧ paramsOk s.params = true ∧
  classify s.mcgS = .internalLocked

/-- R231 (for a blocking HOST, assumption 8): with no turn listed BLOCK moves first, then ENV under REFERENCE, then HOST, and
HOST only while the block is not busy. -/
def Obligations.DefaultOrderIsBlockEnvHost : Prop :=
  ∀ s : State, s.schedule = [] →
    (s.blockEnabled = true → step s = s.take .block) ∧
    (s.blockEnabled = false → s.params.env = .reference → s.mcgS ≠ s.settle →
      step s = .next { s with mcgS := s.settle }) ∧
    (s.blockEnabled = false → (s.params.env = .free ∨ s.mcgS = s.settle) → s.busy = false → step s = s.take .host) ∧
    (s.blockEnabled = false → (s.params.env = .free ∨ s.mcgS = s.settle) → s.busy = true → step s = .next s)
end

