-- ==== Sys2Proof/Laws/Bits.lean ====
section
/-!
SUPPORT. What the bit-field operations do, bit by bit.
-/
namespace Sys2Proof.Machine

variable {n : Nat}

theorem getLsbD_fieldMask (lo len i : Nat) :
    (fieldMask n lo len).getLsbD i = (decide (i < n) && decide (lo ≤ i) && decide (i < lo + len)) := by
  simp only [fieldMask, BitVec.getLsbD_shiftLeft, BitVec.getLsbD_ofNat, Nat.testBit_two_pow_sub_one]
  grind

/-- A field write puts the value's bits in the field and keeps every other bit. -/
theorem getLsbD_setField (x : BitVec n) (lo len v i : Nat) (hi : i < n) :
    (setField x lo len v).getLsbD i =
      if lo ≤ i ∧ i < lo + len then v.testBit (i - lo) else x.getLsbD i := by
  simp only [setField, BitVec.getLsbD_or, BitVec.getLsbD_and, BitVec.getLsbD_not, getLsbD_fieldMask,
    BitVec.getLsbD_shiftLeft, BitVec.getLsbD_ofNat, Nat.testBit_mod_two_pow]
  split <;> grind

theorem getLsbD_setBit (x : BitVec n) (b : Nat) (v : Bool) (i : Nat) (hi : i < n) :
    (setBit x b v).getLsbD i = if i = b then v else x.getLsbD i := by
  rw [setBit, getLsbD_setField x b 1 _ i hi]
  by_cases h : i = b
  · subst h; cases v <;> simp
  · rw [if_neg (by omega), if_neg h]

/-- The number in a field, bit by bit. -/
theorem testBit_field (x : BitVec n) (lo len k : Nat) :
    (field x lo len).testBit k = (decide (k < len) && x.getLsbD (lo + k)) := by
  simp [field, BitVec.extractLsb'_toNat, Nat.testBit_mod_two_pow, Nat.testBit_shiftRight, BitVec.getLsbD]

/-- A field holds what was written to it, cut to the field's width. -/
theorem field_setField_same (x : BitVec n) (lo len v : Nat) (h : lo + len ≤ n) :
    field (setField x lo len v) lo len = v % 2 ^ len := by
  apply Nat.eq_of_testBit_eq
  intro k
  rw [testBit_field, Nat.testBit_mod_two_pow]
  by_cases hk : k < len
  · rw [getLsbD_setField _ _ _ _ _ (by omega), if_pos (by omega)]
    simp
  · simp [hk]

/-- A field that does not meet the written one is unchanged. -/
theorem field_setField_other (x : BitVec n) (lo len v lo' len' : Nat) (hw : lo' + len' ≤ n)
    (h : lo' + len' ≤ lo ∨ lo + len ≤ lo') :
    field (setField x lo len v) lo' len' = field x lo' len' := by
  apply Nat.eq_of_testBit_eq
  intro k
  rw [testBit_field, testBit_field]
  by_cases hk : k < len'
  · rw [getLsbD_setField _ _ _ _ _ (by omega), if_neg (by omega)]
  · simp [hk]

/-- A field write keeps the bits of every mask that misses the field. -/
theorem setField_and_mask (x m : BitVec n) (lo len v : Nat)
    (h : m &&& fieldMask n lo len = 0) : setField x lo len v &&& m = x &&& m := by
  apply BitVec.eq_of_getLsbD_eq
  intro i hi
  have hm := congrArg (fun y : BitVec n => y.getLsbD i) h
  simp only [BitVec.getLsbD_and, getLsbD_fieldMask] at hm
  rw [BitVec.getLsbD_and, BitVec.getLsbD_and, getLsbD_setField _ _ _ _ _ hi]
  split
  · rename_i hc
    have : m.getLsbD i = false := by simpa [hi, hc.1, hc.2] using hm
    simp [this]
  · rfl

/-- The bits of a mask-shaped field are all 0 exactly when the field reads 0. -/
theorem and_fieldMask_eq_zero (x : BitVec n) (lo len : Nat) (h : lo + len ≤ n) :
    x &&& fieldMask n lo len = 0 ↔ field x lo len = 0 := by
  constructor
  · intro hx
    apply Nat.eq_of_testBit_eq
    intro k
    have hk := congrArg (fun y : BitVec n => y.getLsbD (lo + k)) hx
    simp only [BitVec.getLsbD_and, getLsbD_fieldMask] at hk
    rw [testBit_field, Nat.zero_testBit]
    by_cases hl : k < len
    · simpa [hl, show lo + k < n by omega, show lo + k < lo + len by omega] using hk
    · simp [hl]
  · intro hf
    apply BitVec.eq_of_getLsbD_eq
    intro i hi
    rw [BitVec.getLsbD_and, getLsbD_fieldMask]
    by_cases hl : lo ≤ i ∧ i < lo + len
    · have hk := testBit_field x lo len (i - lo)
      rw [hf, Nat.zero_testBit, show lo + (i - lo) = i by omega] at hk
      have : x.getLsbD i = false := by simpa [show i - lo < len by omega] using hk.symm
      simp [this]
    · have : ¬ (lo ≤ i) ∨ ¬ (i < lo + len) := by omega
      rcases this with h' | h' <;> simp [h']

theorem field_lt (x : BitVec n) (lo len : Nat) : field x lo len < 2 ^ len :=
  (x.extractLsb' lo len).isLt

/-- A field of the upper part of a concatenation. -/
theorem field_append_high {n m : Nat} (x : BitVec n) (y : BitVec m) {lo len : Nat} (h : m ≤ lo) :
    field (x ++ y) lo len = field x (lo - m) len := by
  unfold field
  congr 1
  apply BitVec.eq_of_getLsbD_eq
  intro i hi
  simp only [BitVec.getLsbD_extractLsb', BitVec.getLsbD_append]
  rw [if_neg (by omega)]
  congr 2
  omega

/-- A field of the lower part of a concatenation. -/
theorem field_append_low {n m : Nat} (x : BitVec n) (y : BitVec m) {lo len : Nat} (h : lo + len ≤ m) :
    field (x ++ y) lo len = field y lo len := by
  unfold field
  congr 1
  apply BitVec.eq_of_getLsbD_eq
  intro i hi
  simp only [BitVec.getLsbD_extractLsb', BitVec.getLsbD_append]
  rw [if_pos (by omega)]

end Sys2Proof.Machine
end

