-- ==== Sys2Proof/Laws/State.lean ====
section
/-!
SUPPORT. What each named update of the state does to each field: one lemma per field per update, by `rfl`.
-/
namespace Sys2Proof.Machine

/-! ### `State.raise` -/

@[simp] theorem State.raise_params (s : State) (c : FatalCode) :
    (s.raise c).params = s.params := rfl
@[simp] theorem State.raise_phase (s : State) (c : FatalCode) :
    (s.raise c).phase = .fatal := rfl
@[simp] theorem State.raise_fatalCode (s : State) (c : FatalCode) :
    (s.raise c).fatalCode = some c := rfl
@[simp] theorem State.raise_oscHeld (s : State) (c : FatalCode) :
    (s.raise c).oscHeld = s.oscHeld := rfl
@[simp] theorem State.raise_mcgHeld (s : State) (c : FatalCode) :
    (s.raise c).mcgHeld = s.mcgHeld := rfl
@[simp] theorem State.raise_simHeld (s : State) (c : FatalCode) :
    (s.raise c).simHeld = s.simHeld := rfl
@[simp] theorem State.raise_oscToken (s : State) (c : FatalCode) :
    (s.raise c).oscToken = s.oscToken := rfl
@[simp] theorem State.raise_mode (s : State) (c : FatalCode) :
    (s.raise c).mode = s.mode := rfl
@[simp] theorem State.raise_gateOwner (s : State) (c : FatalCode) :
    (s.raise c).gateOwner = s.gateOwner := rfl
@[simp] theorem State.raise_cap (s : State) (c : FatalCode) :
    (s.raise c).cap = s.cap := rfl
@[simp] theorem State.raise_mcgC1 (s : State) (c : FatalCode) :
    (s.raise c).mcgC1 = s.mcgC1 := rfl
@[simp] theorem State.raise_mcgC2 (s : State) (c : FatalCode) :
    (s.raise c).mcgC2 = s.mcgC2 := rfl
@[simp] theorem State.raise_mcgC5 (s : State) (c : FatalCode) :
    (s.raise c).mcgC5 = s.mcgC5 := rfl
@[simp] theorem State.raise_mcgC6 (s : State) (c : FatalCode) :
    (s.raise c).mcgC6 = s.mcgC6 := rfl
@[simp] theorem State.raise_mcgS (s : State) (c : FatalCode) :
    (s.raise c).mcgS = s.mcgS := rfl
@[simp] theorem State.raise_oscCr (s : State) (c : FatalCode) :
    (s.raise c).oscCr = s.oscCr := rfl
@[simp] theorem State.raise_clkdiv1 (s : State) (c : FatalCode) :
    (s.raise c).clkdiv1 = s.clkdiv1 := rfl
@[simp] theorem State.raise_scgc (s : State) (c : FatalCode) :
    (s.raise c).scgc = s.scgc := rfl
@[simp] theorem State.raise_pcr (s : State) (c : FatalCode) :
    (s.raise c).pcr = s.pcr := rfl
@[simp] theorem State.raise_readData (s : State) (c : FatalCode) :
    (s.raise c).readData = s.readData := rfl
@[simp] theorem State.raise_program (s : State) (c : FatalCode) :
    (s.raise c).program = s.program := rfl
@[simp] theorem State.raise_schedule (s : State) (c : FatalCode) :
    (s.raise c).schedule = s.schedule := rfl

/-! ### `State.setGate` -/

@[simp] theorem State.setGate_params (s : State) (g : Gate) (on : Bool) (o : Owner) :
    (s.setGate g on o).params = s.params := rfl
@[simp] theorem State.setGate_phase (s : State) (g : Gate) (on : Bool) (o : Owner) :
    (s.setGate g on o).phase = s.phase := rfl
@[simp] theorem State.setGate_fatalCode (s : State) (g : Gate) (on : Bool) (o : Owner) :
    (s.setGate g on o).fatalCode = s.fatalCode := rfl
@[simp] theorem State.setGate_oscHeld (s : State) (g : Gate) (on : Bool) (o : Owner) :
    (s.setGate g on o).oscHeld = s.oscHeld := rfl
@[simp] theorem State.setGate_mcgHeld (s : State) (g : Gate) (on : Bool) (o : Owner) :
    (s.setGate g on o).mcgHeld = s.mcgHeld := rfl
@[simp] theorem State.setGate_simHeld (s : State) (g : Gate) (on : Bool) (o : Owner) :
    (s.setGate g on o).simHeld = s.simHeld := rfl
@[simp] theorem State.setGate_oscToken (s : State) (g : Gate) (on : Bool) (o : Owner) :
    (s.setGate g on o).oscToken = s.oscToken := rfl
@[simp] theorem State.setGate_mode (s : State) (g : Gate) (on : Bool) (o : Owner) :
    (s.setGate g on o).mode = s.mode := rfl
@[simp] theorem State.setGate_gateOwner (s : State) (g : Gate) (on : Bool) (o : Owner) :
    (s.setGate g on o).gateOwner = s.gateOwner.set (gateIndex g) o := rfl
@[simp] theorem State.setGate_cap (s : State) (g : Gate) (on : Bool) (o : Owner) :
    (s.setGate g on o).cap = s.cap := rfl
@[simp] theorem State.setGate_mcgC1 (s : State) (g : Gate) (on : Bool) (o : Owner) :
    (s.setGate g on o).mcgC1 = s.mcgC1 := rfl
@[simp] theorem State.setGate_mcgC2 (s : State) (g : Gate) (on : Bool) (o : Owner) :
    (s.setGate g on o).mcgC2 = s.mcgC2 := rfl
@[simp] theorem State.setGate_mcgC5 (s : State) (g : Gate) (on : Bool) (o : Owner) :
    (s.setGate g on o).mcgC5 = s.mcgC5 := rfl
@[simp] theorem State.setGate_mcgC6 (s : State) (g : Gate) (on : Bool) (o : Owner) :
    (s.setGate g on o).mcgC6 = s.mcgC6 := rfl
@[simp] theorem State.setGate_mcgS (s : State) (g : Gate) (on : Bool) (o : Owner) :
    (s.setGate g on o).mcgS = s.mcgS := rfl
@[simp] theorem State.setGate_oscCr (s : State) (g : Gate) (on : Bool) (o : Owner) :
    (s.setGate g on o).oscCr = s.oscCr := rfl
@[simp] theorem State.setGate_clkdiv1 (s : State) (g : Gate) (on : Bool) (o : Owner) :
    (s.setGate g on o).clkdiv1 = s.clkdiv1 := rfl
@[simp] theorem State.setGate_scgc (s : State) (g : Gate) (on : Bool) (o : Owner) :
    (s.setGate g on o).scgc = s.scgc.set (gateRegIndex g.reg) (setBit (s.scgcOf g.reg) g.bit on) := rfl
@[simp] theorem State.setGate_pcr (s : State) (g : Gate) (on : Bool) (o : Owner) :
    (s.setGate g on o).pcr = s.pcr := rfl
@[simp] theorem State.setGate_readData (s : State) (g : Gate) (on : Bool) (o : Owner) :
    (s.setGate g on o).readData = s.readData := rfl
@[simp] theorem State.setGate_program (s : State) (g : Gate) (on : Bool) (o : Owner) :
    (s.setGate g on o).program = s.program := rfl
@[simp] theorem State.setGate_schedule (s : State) (g : Gate) (on : Bool) (o : Owner) :
    (s.setGate g on o).schedule = s.schedule := rfl

/-! ### `State.setCap` -/

@[simp] theorem State.setCap_params (s : State) (q : Pin) (c : Cap) :
    (s.setCap q c).params = s.params := rfl
@[simp] theorem State.setCap_phase (s : State) (q : Pin) (c : Cap) :
    (s.setCap q c).phase = s.phase := rfl
@[simp] theorem State.setCap_fatalCode (s : State) (q : Pin) (c : Cap) :
    (s.setCap q c).fatalCode = s.fatalCode := rfl
@[simp] theorem State.setCap_oscHeld (s : State) (q : Pin) (c : Cap) :
    (s.setCap q c).oscHeld = s.oscHeld := rfl
@[simp] theorem State.setCap_mcgHeld (s : State) (q : Pin) (c : Cap) :
    (s.setCap q c).mcgHeld = s.mcgHeld := rfl
@[simp] theorem State.setCap_simHeld (s : State) (q : Pin) (c : Cap) :
    (s.setCap q c).simHeld = s.simHeld := rfl
@[simp] theorem State.setCap_oscToken (s : State) (q : Pin) (c : Cap) :
    (s.setCap q c).oscToken = s.oscToken := rfl
@[simp] theorem State.setCap_mode (s : State) (q : Pin) (c : Cap) :
    (s.setCap q c).mode = s.mode := rfl
@[simp] theorem State.setCap_gateOwner (s : State) (q : Pin) (c : Cap) :
    (s.setCap q c).gateOwner = s.gateOwner := rfl
@[simp] theorem State.setCap_cap (s : State) (q : Pin) (c : Cap) :
    (s.setCap q c).cap = s.cap.set (pinIndex q) c := rfl
@[simp] theorem State.setCap_mcgC1 (s : State) (q : Pin) (c : Cap) :
    (s.setCap q c).mcgC1 = s.mcgC1 := rfl
@[simp] theorem State.setCap_mcgC2 (s : State) (q : Pin) (c : Cap) :
    (s.setCap q c).mcgC2 = s.mcgC2 := rfl
@[simp] theorem State.setCap_mcgC5 (s : State) (q : Pin) (c : Cap) :
    (s.setCap q c).mcgC5 = s.mcgC5 := rfl
@[simp] theorem State.setCap_mcgC6 (s : State) (q : Pin) (c : Cap) :
    (s.setCap q c).mcgC6 = s.mcgC6 := rfl
@[simp] theorem State.setCap_mcgS (s : State) (q : Pin) (c : Cap) :
    (s.setCap q c).mcgS = s.mcgS := rfl
@[simp] theorem State.setCap_oscCr (s : State) (q : Pin) (c : Cap) :
    (s.setCap q c).oscCr = s.oscCr := rfl
@[simp] theorem State.setCap_clkdiv1 (s : State) (q : Pin) (c : Cap) :
    (s.setCap q c).clkdiv1 = s.clkdiv1 := rfl
@[simp] theorem State.setCap_scgc (s : State) (q : Pin) (c : Cap) :
    (s.setCap q c).scgc = s.scgc := rfl
@[simp] theorem State.setCap_pcr (s : State) (q : Pin) (c : Cap) :
    (s.setCap q c).pcr = s.pcr := rfl
@[simp] theorem State.setCap_readData (s : State) (q : Pin) (c : Cap) :
    (s.setCap q c).readData = s.readData := rfl
@[simp] theorem State.setCap_program (s : State) (q : Pin) (c : Cap) :
    (s.setCap q c).program = s.program := rfl
@[simp] theorem State.setCap_schedule (s : State) (q : Pin) (c : Cap) :
    (s.setCap q c).schedule = s.schedule := rfl

/-! ### `State.setMux` -/

@[simp] theorem State.setMux_params (s : State) (q : Pin) (m : Nat) :
    (s.setMux q m).params = s.params := rfl
@[simp] theorem State.setMux_phase (s : State) (q : Pin) (m : Nat) :
    (s.setMux q m).phase = s.phase := rfl
@[simp] theorem State.setMux_fatalCode (s : State) (q : Pin) (m : Nat) :
    (s.setMux q m).fatalCode = s.fatalCode := rfl
@[simp] theorem State.setMux_oscHeld (s : State) (q : Pin) (m : Nat) :
    (s.setMux q m).oscHeld = s.oscHeld := rfl
@[simp] theorem State.setMux_mcgHeld (s : State) (q : Pin) (m : Nat) :
    (s.setMux q m).mcgHeld = s.mcgHeld := rfl
@[simp] theorem State.setMux_simHeld (s : State) (q : Pin) (m : Nat) :
    (s.setMux q m).simHeld = s.simHeld := rfl
@[simp] theorem State.setMux_oscToken (s : State) (q : Pin) (m : Nat) :
    (s.setMux q m).oscToken = s.oscToken := rfl
@[simp] theorem State.setMux_mode (s : State) (q : Pin) (m : Nat) :
    (s.setMux q m).mode = s.mode := rfl
@[simp] theorem State.setMux_gateOwner (s : State) (q : Pin) (m : Nat) :
    (s.setMux q m).gateOwner = s.gateOwner := rfl
@[simp] theorem State.setMux_cap (s : State) (q : Pin) (m : Nat) :
    (s.setMux q m).cap = s.cap := rfl
@[simp] theorem State.setMux_mcgC1 (s : State) (q : Pin) (m : Nat) :
    (s.setMux q m).mcgC1 = s.mcgC1 := rfl
@[simp] theorem State.setMux_mcgC2 (s : State) (q : Pin) (m : Nat) :
    (s.setMux q m).mcgC2 = s.mcgC2 := rfl
@[simp] theorem State.setMux_mcgC5 (s : State) (q : Pin) (m : Nat) :
    (s.setMux q m).mcgC5 = s.mcgC5 := rfl
@[simp] theorem State.setMux_mcgC6 (s : State) (q : Pin) (m : Nat) :
    (s.setMux q m).mcgC6 = s.mcgC6 := rfl
@[simp] theorem State.setMux_mcgS (s : State) (q : Pin) (m : Nat) :
    (s.setMux q m).mcgS = s.mcgS := rfl
@[simp] theorem State.setMux_oscCr (s : State) (q : Pin) (m : Nat) :
    (s.setMux q m).oscCr = s.oscCr := rfl
@[simp] theorem State.setMux_clkdiv1 (s : State) (q : Pin) (m : Nat) :
    (s.setMux q m).clkdiv1 = s.clkdiv1 := rfl
@[simp] theorem State.setMux_scgc (s : State) (q : Pin) (m : Nat) :
    (s.setMux q m).scgc = s.scgc := rfl
@[simp] theorem State.setMux_pcr (s : State) (q : Pin) (m : Nat) :
    (s.setMux q m).pcr = s.pcr.set (pinIndex q) (setField (s.pcrOf q) 8 3 m) := rfl
@[simp] theorem State.setMux_readData (s : State) (q : Pin) (m : Nat) :
    (s.setMux q m).readData = s.readData := rfl
@[simp] theorem State.setMux_program (s : State) (q : Pin) (m : Nat) :
    (s.setMux q m).program = s.program := rfl
@[simp] theorem State.setMux_schedule (s : State) (q : Pin) (m : Nat) :
    (s.setMux q m).schedule = s.schedule := rfl

/-! ### `State.convert` -/

@[simp] theorem State.convert_params (s : State) (q : Pin) (m : Nat) (c : Cap) :
    (s.convert q m c).params = s.params := rfl
@[simp] theorem State.convert_phase (s : State) (q : Pin) (m : Nat) (c : Cap) :
    (s.convert q m c).phase = s.phase := rfl
@[simp] theorem State.convert_fatalCode (s : State) (q : Pin) (m : Nat) (c : Cap) :
    (s.convert q m c).fatalCode = s.fatalCode := rfl
@[simp] theorem State.convert_oscHeld (s : State) (q : Pin) (m : Nat) (c : Cap) :
    (s.convert q m c).oscHeld = s.oscHeld := rfl
@[simp] theorem State.convert_mcgHeld (s : State) (q : Pin) (m : Nat) (c : Cap) :
    (s.convert q m c).mcgHeld = s.mcgHeld := rfl
@[simp] theorem State.convert_simHeld (s : State) (q : Pin) (m : Nat) (c : Cap) :
    (s.convert q m c).simHeld = s.simHeld := rfl
@[simp] theorem State.convert_oscToken (s : State) (q : Pin) (m : Nat) (c : Cap) :
    (s.convert q m c).oscToken = s.oscToken := rfl
@[simp] theorem State.convert_mode (s : State) (q : Pin) (m : Nat) (c : Cap) :
    (s.convert q m c).mode = s.mode := rfl
@[simp] theorem State.convert_gateOwner (s : State) (q : Pin) (m : Nat) (c : Cap) :
    (s.convert q m c).gateOwner = s.gateOwner := rfl
@[simp] theorem State.convert_cap (s : State) (q : Pin) (m : Nat) (c : Cap) :
    (s.convert q m c).cap = s.cap.set (pinIndex q) c := rfl
@[simp] theorem State.convert_mcgC1 (s : State) (q : Pin) (m : Nat) (c : Cap) :
    (s.convert q m c).mcgC1 = s.mcgC1 := rfl
@[simp] theorem State.convert_mcgC2 (s : State) (q : Pin) (m : Nat) (c : Cap) :
    (s.convert q m c).mcgC2 = s.mcgC2 := rfl
@[simp] theorem State.convert_mcgC5 (s : State) (q : Pin) (m : Nat) (c : Cap) :
    (s.convert q m c).mcgC5 = s.mcgC5 := rfl
@[simp] theorem State.convert_mcgC6 (s : State) (q : Pin) (m : Nat) (c : Cap) :
    (s.convert q m c).mcgC6 = s.mcgC6 := rfl
@[simp] theorem State.convert_mcgS (s : State) (q : Pin) (m : Nat) (c : Cap) :
    (s.convert q m c).mcgS = s.mcgS := rfl
@[simp] theorem State.convert_oscCr (s : State) (q : Pin) (m : Nat) (c : Cap) :
    (s.convert q m c).oscCr = s.oscCr := rfl
@[simp] theorem State.convert_clkdiv1 (s : State) (q : Pin) (m : Nat) (c : Cap) :
    (s.convert q m c).clkdiv1 = s.clkdiv1 := rfl
@[simp] theorem State.convert_scgc (s : State) (q : Pin) (m : Nat) (c : Cap) :
    (s.convert q m c).scgc = s.scgc := rfl
@[simp] theorem State.convert_pcr (s : State) (q : Pin) (m : Nat) (c : Cap) :
    (s.convert q m c).pcr = s.pcr.set (pinIndex q) (setField (s.pcrOf q) 8 3 m) := rfl
@[simp] theorem State.convert_readData (s : State) (q : Pin) (m : Nat) (c : Cap) :
    (s.convert q m c).readData = s.readData := rfl
@[simp] theorem State.convert_program (s : State) (q : Pin) (m : Nat) (c : Cap) :
    (s.convert q m c).program = s.program := rfl
@[simp] theorem State.convert_schedule (s : State) (q : Pin) (m : Nat) (c : Cap) :
    (s.convert q m c).schedule = s.schedule := rfl

/-! ### `State.resetBlock` -/

@[simp] theorem State.resetBlock_params (s : State) :
    s.resetBlock.params = s.params := rfl
@[simp] theorem State.resetBlock_phase (s : State) :
    s.resetBlock.phase = .idle := rfl
@[simp] theorem State.resetBlock_fatalCode (s : State) :
    s.resetBlock.fatalCode = none := rfl
@[simp] theorem State.resetBlock_oscHeld (s : State) :
    s.resetBlock.oscHeld = false := rfl
@[simp] theorem State.resetBlock_mcgHeld (s : State) :
    s.resetBlock.mcgHeld = false := rfl
@[simp] theorem State.resetBlock_simHeld (s : State) :
    s.resetBlock.simHeld = false := rfl
@[simp] theorem State.resetBlock_oscToken (s : State) :
    s.resetBlock.oscToken = false := rfl
@[simp] theorem State.resetBlock_mode (s : State) :
    s.resetBlock.mode = .noMode := rfl
@[simp] theorem State.resetBlock_gateOwner (s : State) :
    s.resetBlock.gateOwner = Vector.replicate 128 .nobody := rfl
@[simp] theorem State.resetBlock_cap (s : State) :
    s.resetBlock.cap = Vector.replicate 64 .free := rfl
@[simp] theorem State.resetBlock_mcgC1 (s : State) :
    s.resetBlock.mcgC1 = s.params.rstC1 := rfl
@[simp] theorem State.resetBlock_mcgC2 (s : State) :
    s.resetBlock.mcgC2 = s.params.rstC2 := rfl
@[simp] theorem State.resetBlock_mcgC5 (s : State) :
    s.resetBlock.mcgC5 = s.params.rstC5 := rfl
@[simp] theorem State.resetBlock_mcgC6 (s : State) :
    s.resetBlock.mcgC6 = s.params.rstC6 := rfl
@[simp] theorem State.resetBlock_mcgS (s : State) :
    s.resetBlock.mcgS = s.params.rstS := rfl
@[simp] theorem State.resetBlock_oscCr (s : State) :
    s.resetBlock.oscCr = s.params.rstOscCr := rfl
@[simp] theorem State.resetBlock_clkdiv1 (s : State) :
    s.resetBlock.clkdiv1 = s.params.rstClkdiv1 := rfl
@[simp] theorem State.resetBlock_scgc (s : State) :
    s.resetBlock.scgc = #v[s.params.rstScgc4, s.params.rstScgc5, s.params.rstScgc6, s.params.rstScgc7] := rfl
@[simp] theorem State.resetBlock_pcr (s : State) :
    s.resetBlock.pcr = Vector.replicate 64 s.params.rstPcr := rfl
@[simp] theorem State.resetBlock_readData (s : State) :
    s.resetBlock.readData = s.readData := rfl
@[simp] theorem State.resetBlock_program (s : State) :
    s.resetBlock.program = s.program := rfl
@[simp] theorem State.resetBlock_schedule (s : State) :
    s.resetBlock.schedule = s.schedule := rfl

end Sys2Proof.Machine
end

