-- ==== Sys2Proof/Laws/Ops.lean ====
section
/-!
SUPPORT. For each shared operation, once, everything it can do. Proofs about a command cite these instead of unfolding the
operation.
-/
namespace Sys2Proof.Machine

/-! ### The checks -/

@[simp] theorem State.issue_idle {s : State} (h : s.phase = .idle) (d : State) : s.issue d = d := by
  simp [State.issue, h, Phase.isWait]

@[simp] theorem State.issue_fatal {s : State} (h : s.phase = .fatal) (d : State) : s.issue d = s := by
  simp [State.issue, h]

theorem Phase.ne_fatal_of_isWait {p : Phase} (h : p.isWait = true) : p ≠ .fatal := by
  rintro rfl
  exact absurd h (by decide)

@[simp] theorem State.issue_wait {s : State} (h : s.phase.isWait = true) (d : State) :
    s.issue d = s.raise .cmdWhileBusy := by
  simp [State.issue, h, Phase.ne_fatal_of_isWait h]

/-- A phase is IDLE, FATAL or a wait phase. -/
theorem Phase.cases (p : Phase) : p = .idle ∨ p = .fatal ∨ p.isWait = true := by
  cases p <;> decide

/-- Issuing a command does one of three things. -/
theorem State.issue_cases (s d : State) :
    (s.phase = .idle ∧ s.issue d = d) ∨ (s.phase = .fatal ∧ s.issue d = s) ∨
      (s.phase.isWait = true ∧ s.issue d = s.raise .cmdWhileBusy) := by
  rcases Phase.cases s.phase with h | h | h <;> simp [h]

@[simp] theorem State.require_true (s : State) (c : FatalCode) (d : State) : s.require true c d = d := rfl

@[simp] theorem State.require_false (s : State) (c : FatalCode) (d : State) : s.require false c d = s.raise c := rfl

/-- A check passes and the command goes on, or it fails and raises its code. -/
theorem State.require_cases (s : State) (ok : Bool) (c : FatalCode) (d : State) :
    (ok = true ∧ s.require ok c d = d) ∨ (ok = false ∧ s.require ok c d = s.raise c) := by
  cases ok <;> simp

@[simp] theorem State.given_some {α : Type} (s : State) (a : α) (c : FatalCode) (d : α → State) :
    s.given (some a) c d = d a := rfl

@[simp] theorem State.given_none {α : Type} (s : State) (c : FatalCode) (d : α → State) :
    s.given none c d = s.raise c := rfl

/-- An operand names something and the command goes on with it, or the check raises its code. -/
theorem State.given_cases {α : Type} (s : State) (o : Option α) (c : FatalCode) (d : α → State) :
    (∃ a, o = some a ∧ s.given o c d = d a) ∨ (o = none ∧ s.given o c d = s.raise c) := by
  cases o <;> simp

/-! ### Operands -/

theorem below32_of_lt {n : Nat} (h : n < 32) : below32 n = some ⟨n, h⟩ := by
  simp [below32, h]

theorem below32_of_not_lt {n : Nat} (h : ¬ n < 32) : below32 n = none := by
  simp [below32, h]

theorem below32_eq_some {n : Nat} {i : Fin 32} : below32 n = some i ↔ n = i.val := by
  unfold below32
  split
  · simp [Fin.ext_iff]
  · simp
    omega

theorem portOf_eq_some {n : Nat} {p : Port} : portOf n = some p ↔ n = portNumber p := by
  unfold portOf
  cases p <;> split <;> simp_all [portNumber]

theorem gateRegOf_eq_some {n : Nat} {r : GateReg} : gateRegOf n = some r ↔ n = gateRegNumber r := by
  unfold gateRegOf
  cases r <;> split <;> simp_all [gateRegNumber]

theorem unitOf_eq_some {n : Nat} {u : SerialUnit} : unitOf n = some u ↔ n = unitNumber u := by
  unfold unitOf
  cases u
  split <;> simp_all [unitNumber]

/-! ### Gates -/

theorem gateRegIndex_inj {m n : GateReg} : (gateRegIndex m).val = (gateRegIndex n).val ↔ m = n := by
  cases m <;> cases n <;> decide

theorem gateIndex_inj {g h : Gate} : (gateIndex g).val = (gateIndex h).val ↔ g = h := by
  obtain ⟨m, b⟩ := g
  obtain ⟨n, c⟩ := h
  simp only [gateIndex, Gate.mk.injEq, Fin.ext_iff]
  rw [← gateRegIndex_inj]
  omega

@[simp] theorem State.ownerOf_setGate (s : State) (g h : Gate) (on : Bool) (o : Owner) :
    (s.setGate g on o).ownerOf h = if h = g then o else s.ownerOf h := by
  simp only [State.ownerOf, State.setGate_gateOwner, Fin.getElem_fin, Vector.getElem_set, gateIndex_inj]
  simp [eq_comm]

@[simp] theorem State.scgcOf_setGate (s : State) (g : Gate) (n : GateReg) (on : Bool) (o : Owner) :
    (s.setGate g on o).scgcOf n = if n = g.reg then setBit (s.scgcOf g.reg) g.bit on else s.scgcOf n := by
  simp only [State.scgcOf, State.setGate_scgc, Fin.getElem_fin, Vector.getElem_set, gateRegIndex_inj]
  simp [eq_comm]

@[simp] theorem State.gateBit_setGate (s : State) (g h : Gate) (on : Bool) (o : Owner) :
    (s.setGate g on o).gateBit h = if h = g then on else s.gateBit h := by
  obtain ⟨m, b⟩ := g
  obtain ⟨n, c⟩ := h
  simp only [State.gateBit, State.scgcOf_setGate, Gate.mk.injEq]
  by_cases hr : n = m
  · subst hr
    simp only [if_true, true_and, Fin.ext_iff]
    exact getLsbD_setBit _ _ _ _ c.isLt
  · simp [hr]

@[simp] theorem State.portHeld_setGate (s : State) (g : Gate) (on : Bool) (o : Owner) (p : Port) :
    (s.setGate g on o).portHeld p = if s.params.portGate p = g then o == .port p else s.portHeld p := by
  simp only [State.portHeld, State.setGate_params, State.ownerOf_setGate]
  split <;> rfl

@[simp] theorem State.capOf_setGate (s : State) (g : Gate) (on : Bool) (o : Owner) (q : Pin) :
    (s.setGate g on o).capOf q = s.capOf q := rfl

@[simp] theorem State.locked_setGate (s : State) (g : Gate) (on : Bool) (o : Owner) (q : Pin) :
    (s.setGate g on o).locked q = s.locked q := rfl

@[simp] theorem State.pcrOf_setGate (s : State) (g : Gate) (on : Bool) (o : Owner) (q : Pin) :
    (s.setGate g on o).pcrOf q = s.pcrOf q := rfl

/-! ### Pins -/

theorem pinIndex_inj {q r : Pin} : (pinIndex q).val = (pinIndex r).val ↔ q = r := by
  obtain ⟨p, i⟩ := q
  obtain ⟨p', j⟩ := r
  cases p <;> cases p' <;> simp [pinIndex, Fin.ext_iff] <;> omega

@[simp] theorem State.capOf_setCap (s : State) (q r : Pin) (c : Cap) :
    (s.setCap q c).capOf r = if r = q then c else s.capOf r := by
  simp only [State.capOf, State.setCap_cap, Fin.getElem_fin, Vector.getElem_set, pinIndex_inj]
  simp [eq_comm]

@[simp] theorem State.locked_setCap (s : State) (q r : Pin) (c : Cap) :
    (s.setCap q c).locked r = if r = q then c != .free else s.locked r := by
  simp only [State.locked, State.capOf_setCap]
  split <;> rfl

@[simp] theorem State.portHeld_setCap (s : State) (q : Pin) (c : Cap) (p : Port) :
    (s.setCap q c).portHeld p = s.portHeld p := rfl

@[simp] theorem State.ownerOf_setCap (s : State) (q : Pin) (c : Cap) (g : Gate) :
    (s.setCap q c).ownerOf g = s.ownerOf g := rfl

@[simp] theorem State.gateBit_setCap (s : State) (q : Pin) (c : Cap) (g : Gate) :
    (s.setCap q c).gateBit g = s.gateBit g := rfl

@[simp] theorem State.pcrOf_setCap (s : State) (q r : Pin) (c : Cap) : (s.setCap q c).pcrOf r = s.pcrOf r := rfl

@[simp] theorem State.capOf_convert (s : State) (q r : Pin) (m : Nat) (c : Cap) :
    (s.convert q m c).capOf r = if r = q then c else s.capOf r :=
  State.capOf_setCap (s.setMux q m) q r c

@[simp] theorem State.locked_convert (s : State) (q r : Pin) (m : Nat) (c : Cap) :
    (s.convert q m c).locked r = if r = q then c != .free else s.locked r :=
  State.locked_setCap (s.setMux q m) q r c

@[simp] theorem State.pcrOf_convert (s : State) (q r : Pin) (m : Nat) (c : Cap) :
    (s.convert q m c).pcrOf r = if r = q then setField (s.pcrOf q) 8 3 m else s.pcrOf r := by
  simp only [State.pcrOf, State.convert_pcr, Fin.getElem_fin, Vector.getElem_set, pinIndex_inj]
  simp [eq_comm]

@[simp] theorem State.portHeld_convert (s : State) (q : Pin) (m : Nat) (c : Cap) (p : Port) :
    (s.convert q m c).portHeld p = s.portHeld p := rfl

@[simp] theorem State.ownerOf_convert (s : State) (q : Pin) (m : Nat) (c : Cap) (g : Gate) :
    (s.convert q m c).ownerOf g = s.ownerOf g := rfl

@[simp] theorem State.gateBit_convert (s : State) (q : Pin) (m : Nat) (c : Cap) (g : Gate) :
    (s.convert q m c).gateBit g = s.gateBit g := rfl

theorem State.portInUse_iff (s : State) (p : Port) : s.portInUse p = true ↔ ∃ i, s.locked ⟨p, i⟩ = true := by
  simp [State.portInUse]

/-! ### The common checks of the pin commands -/

/-- `check_pin` names a pin of a held port and goes on, or raises its first failing check. -/
theorem State.checkPin_cases (s : State) (port idx : Nat) (d : Pin → State) :
    (∃ q : Pin, port = portNumber q.port ∧ idx = q.idx.val ∧ s.portHeld q.port = true ∧
        s.checkPin port idx d = d q) ∨
      ∃ c, c ≠ .cmdWhileBusy ∧ s.checkPin port idx d = s.raise c := by
  rcases hp : portOf port with _ | p
  · exact .inr ⟨.badPort, by decide, by simp [State.checkPin, hp]⟩
  · rcases hh : s.portHeld p with _ | _
    · exact .inr ⟨.notOwned, by decide, by simp [State.checkPin, hp, hh]⟩
    · rcases hi : below32 idx with _ | i
      · exact .inr ⟨.badPinIndex, by decide, by simp [State.checkPin, hp, hh, hi]⟩
      · exact .inl ⟨⟨p, i⟩, portOf_eq_some.mp hp, below32_eq_some.mp hi, hh, by simp [State.checkPin, hp, hh, hi]⟩

/-- `check_pin` on operands that name a pin of a held port. -/
theorem State.checkPin_ok {s : State} {q : Pin} (h : s.portHeld q.port = true) (d : Pin → State) :
    s.checkPin (portNumber q.port) q.idx.val d = d q := by
  have hp : portOf (portNumber q.port) = some q.port := portOf_eq_some.mpr rfl
  have hi : below32 q.idx.val = some q.idx := below32_eq_some.mpr rfl
  simp [State.checkPin, hp, h, hi]

/-- A conversion's check goes on with a plain PIN, or raises its code. -/
theorem State.checkPlainPin_cases (s : State) (q : Pin) (d : State) :
    (s.capOf q = .pin ∧ s.checkPlainPin q d = d) ∨ ∃ c, c ≠ .cmdWhileBusy ∧ s.checkPlainPin q d = s.raise c := by
  rcases hl : s.locked q with _ | _
  · exact .inr ⟨.notOwned, by decide, by simp [State.checkPlainPin, hl]⟩
  · rcases hc : s.capOf q == .pin with _ | _
    · exact .inr ⟨.pinAlreadyConverted, by decide, by simp [State.checkPlainPin, hl, hc]⟩
    · exact .inl ⟨by simpa using hc, by simp [State.checkPlainPin, hl, hc]⟩

@[simp] theorem State.checkPlainPin_pin {s : State} {q : Pin} (h : s.capOf q = .pin) (d : State) :
    s.checkPlainPin q d = d := by
  have hl : s.locked q = true := by
    rw [State.locked, h]
    rfl
  simp [State.checkPlainPin, hl, h]

/-! ### Reset -/

@[simp] theorem State.ownerOf_resetBlock (s : State) (g : Gate) : s.resetBlock.ownerOf g = .nobody := by
  simp [State.ownerOf]

@[simp] theorem State.capOf_resetBlock (s : State) (q : Pin) : s.resetBlock.capOf q = .free := by
  simp [State.capOf]

@[simp] theorem State.pcrOf_resetBlock (s : State) (q : Pin) : s.resetBlock.pcrOf q = s.params.rstPcr := by
  simp [State.pcrOf]

@[simp] theorem State.scgcOf_resetBlock (s : State) (n : GateReg) : s.resetBlock.scgcOf n = s.params.rstScgc n := by
  cases n <;> rfl

/-! ### Polling and the environment -/

/-- BLOCK's turn advances exactly when it is enabled, and otherwise holds. -/
theorem State.poll_cases (s : State) :
    (s.blockEnabled = true ∧ s.poll = s.advance) ∨ (s.blockEnabled = false ∧ s.poll = s) := by
  cases h : s.blockEnabled <;> simp [State.poll, h]

/-- BLOCK is enabled only in a wait phase. -/
theorem State.isWait_of_blockEnabled {s : State} (h : s.blockEnabled = true) : s.phase.isWait = true := by
  unfold State.blockEnabled at h
  cases hp : s.phase <;> simp_all [Phase.awaited, Phase.isWait]

/-- ENV's turn writes only `MCG_S`. -/
theorem State.envStep_eq (s : State) (v : Byte) : ∃ w, s.envStep v = { s with mcgS := w } := by
  unfold State.envStep
  split
  · exact ⟨v, rfl⟩
  · exact ⟨s.settle, rfl⟩

end Sys2Proof.Machine
end

