-- ==== Sys2Proof/Laws/Bus.lean ====
section
/-!
SUPPORT. The address map and the accesses of HOST.
-/
namespace Sys2Proof.Machine

/-- `P_CTRL_BASE` as a number. -/
theorem toNat_ctrlBase (p : Params) : p.ctrlBase.toNat = p.ctrlBlock.toNat * 16 := by
  simp only [Params.ctrlBase, BitVec.toNat_append, BitVec.toNat_ofNat, Nat.zero_mod, Nat.or_zero, Nat.shiftLeft_eq]

/-- The host window is 16-byte aligned and ends inside the address space. -/
theorem ctrlBase_bounds (p : Params) : p.ctrlBase.toNat % 16 = 0 ∧ p.ctrlBase.toNat + 16 ≤ 2 ^ 32 := by
  have h := p.ctrlBlock.isLt
  rw [toNat_ctrlBase]
  omega

/-- A word of the host window, by its offset. -/
theorem regionAt_window (p : Params) (k : Nat) (hk : k < 16) :
    regionAt p (p.ctrlBase + BitVec.ofNat 32 k) = some (windowRegion k) := by
  have h := ctrlBase_bounds p
  have ht : (p.ctrlBase + BitVec.ofNat 32 k).toNat = p.ctrlBase.toNat + k := by
    rw [BitVec.toNat_add, BitVec.toNat_ofNat]
    omega
  simp [regionAt, ht, hk]

@[simp] theorem regionAt_ctrlBase (p : Params) : regionAt p p.ctrlBase = some .cmd := by
  simpa [windowRegion] using regionAt_window p 0 (by decide)

/-- A 32-bit write to CMD issues the word, whatever the parameters. -/
theorem State.memWrite_cmd (s : State) (w : Word) : s.memWrite s.params.ctrlBase 4 w = issueWord w s := by
  have h := ctrlBase_bounds s.params
  have h4 : s.params.ctrlBase.toNat % 4 = 0 := by omega
  simp [State.memWrite, refused, Region.bytes, Region.writable, h4]

/-- The regions of the host window. -/
def Region.isWindow : Region → Bool
  | .cmd | .status | .locks _ => true
  | _ => false

/-- The gate words lie one after the other. -/
theorem fixedRegionAt_gateWord (g : Gate) : fixedRegionAt (gateAddr g) = some (.gateWord g) := by
  obtain ⟨n, b⟩ := g
  revert b
  cases n <;> decide

/-- The pin-control registers lie one after the other. -/
theorem fixedRegionAt_pcr (q : Pin) : fixedRegionAt (pcrBase q.port + 4 * q.idx.val) = some (.pcr q) := by
  obtain ⟨p, i⟩ := q
  revert i
  cases p <;> decide

/-- A register of the fixed map lies at its own address. -/
theorem fixedRegionAt_addr (p : Params) (r : Region) (h : r.isWindow = false) : fixedRegionAt (r.addr p) = some r := by
  cases r with
  | cmd => cases h
  | status => cases h
  | locks q => cases h
  | scgc n => cases n <;> simp [Region.addr, fixedRegionAt, gateRegNumber, gateRegOf]
  | gateWord g => exact fixedRegionAt_gateWord g
  | pcr q => exact fixedRegionAt_pcr q
  | _ => simp [Region.addr, fixedRegionAt]

/-- The two ways an `if` has a value. -/
theorem ite_eq_cases {α : Type} {c : Prop} [Decidable c] {x y z : α} (h : (if c then x else y) = z) :
    (c ∧ x = z) ∨ (¬ c ∧ y = z) := by
  by_cases hc : c
  · exact .inl ⟨hc, by rwa [if_pos hc] at h⟩
  · exact .inr ⟨hc, by rwa [if_neg hc] at h⟩

/-- The byte at an address of the fixed map belongs to a register that begins on a multiple of its width. -/
theorem fixedRegionAt_bounds {p : Params} {a : Nat} {r : Region} (h : fixedRegionAt a = some r) :
    r.addr p ≤ a ∧ a < r.addr p + r.bytes ∧ r.addr p % r.bytes = 0 ∧ r.isWindow = false := by
  unfold fixedRegionAt at h
  rcases ite_eq_cases h with ⟨hc, h⟩ | ⟨_, h⟩
  · obtain rfl := Option.some.inj h
    refine ⟨?_, ?_, ?_, rfl⟩ <;> simp only [Region.addr, Region.bytes] <;> omega
  rcases ite_eq_cases h with ⟨hc, h⟩ | ⟨_, h⟩
  · obtain rfl := Option.some.inj h
    refine ⟨?_, ?_, ?_, rfl⟩ <;> simp only [Region.addr, Region.bytes] <;> omega
  rcases ite_eq_cases h with ⟨hc, h⟩ | ⟨_, h⟩
  · obtain rfl := Option.some.inj h
    refine ⟨?_, ?_, ?_, rfl⟩ <;> simp only [Region.addr, Region.bytes] <;> omega
  rcases ite_eq_cases h with ⟨hc, h⟩ | ⟨_, h⟩
  · obtain rfl := Option.some.inj h
    refine ⟨?_, ?_, ?_, rfl⟩ <;> simp only [Region.addr, Region.bytes] <;> omega
  rcases ite_eq_cases h with ⟨hc, h⟩ | ⟨_, h⟩
  · obtain rfl := Option.some.inj h
    refine ⟨?_, ?_, ?_, rfl⟩ <;> simp only [Region.addr, Region.bytes] <;> omega
  rcases ite_eq_cases h with ⟨hc, h⟩ | ⟨_, h⟩
  · obtain rfl := Option.some.inj h
    refine ⟨?_, ?_, ?_, rfl⟩ <;> simp only [Region.addr, Region.bytes] <;> omega
  rcases ite_eq_cases h with ⟨hc, h⟩ | ⟨_, h⟩
  · obtain ⟨n, hn, rfl⟩ := Option.map_eq_some_iff.mp h
    rw [gateRegOf_eq_some] at hn
    refine ⟨?_, ?_, ?_, rfl⟩ <;> simp only [Region.addr, Region.bytes] <;> omega
  rcases ite_eq_cases h with ⟨hc, h⟩ | ⟨_, h⟩
  · obtain rfl := Option.some.inj h
    refine ⟨?_, ?_, ?_, rfl⟩ <;> simp only [Region.addr, Region.bytes] <;> omega
  rcases ite_eq_cases h with ⟨hc, h⟩ | ⟨_, h⟩
  · obtain ⟨n, hn, rfl⟩ := Option.map_eq_some_iff.mp h
    rw [gateRegOf_eq_some] at hn
    refine ⟨?_, ?_, ?_, rfl⟩ <;> simp only [Region.addr, Region.bytes, gateAddr, wordOf32] <;> omega
  rcases ite_eq_cases h with ⟨hc, h⟩ | ⟨_, h⟩
  · obtain rfl := Option.some.inj h
    refine ⟨?_, ?_, ?_, rfl⟩ <;> simp only [Region.addr, Region.bytes, wordOf32, pcrBase] <;> omega
  rcases ite_eq_cases h with ⟨hc, h⟩ | ⟨_, h⟩
  · obtain rfl := Option.some.inj h
    refine ⟨?_, ?_, ?_, rfl⟩ <;> simp only [Region.addr, Region.bytes, wordOf32, pcrBase] <;> omega
  cases h

/-- The byte at an address belongs to a register that begins on a multiple of its width. -/
theorem regionAt_bounds {p : Params} {a : Word} {r : Region} (h : regionAt p a = some r) :
    r.addr p ≤ a.toNat ∧ a.toNat < r.addr p + r.bytes ∧ r.addr p % r.bytes = 0 := by
  have hb := ctrlBase_bounds p
  rcases ite_eq_cases (h : (if _ then _ else _) = _) with ⟨_, h⟩ | ⟨_, h⟩
  · obtain rfl := Option.some.inj h
    rcases ite_eq_cases (rfl : windowRegion (a.toNat - p.ctrlBase.toNat) = _) with ⟨_, h⟩ | ⟨_, h⟩
    · rw [← h]
      simp only [Region.addr, Region.bytes]
      omega
    rcases ite_eq_cases h with ⟨_, h⟩ | ⟨_, h⟩
    · rw [← h]
      simp only [Region.addr, Region.bytes]
      omega
    rcases ite_eq_cases h with ⟨_, h⟩ | ⟨_, h⟩ <;> rw [← h] <;> simp only [Region.addr, Region.bytes] <;> omega
  · obtain ⟨h1, h2, h3, _⟩ := fixedRegionAt_bounds (p := p) h
    exact ⟨h1, h2, h3⟩

/-- Every register's address is a 32-bit address, aligned to its width. -/
theorem region_addr_bounds (p : Params) (r : Region) : r.addr p < 2 ^ 32 ∧ r.addr p % r.bytes = 0 := by
  have hb := ctrlBase_bounds p
  rcases r with _ | _ | (_ | _) | _ | _ | _ | _ | _ | _ | (_ | _ | _ | _) | _ | ⟨_ | _ | _ | _, b⟩ | ⟨_ | _, i⟩ <;>
    simp only [Region.addr, Region.bytes, gateAddr, gateRegNumber, pcrBase, and_true] <;>
    omega

/-- An aligned address in a region is its register's own. -/
theorem addr_of_regionAt {p : Params} {a : Word} {r : Region} (h : regionAt p a = some r) (hm : a.toNat % r.bytes = 0) :
    a.toNat = r.addr p := by
  have hb := regionAt_bounds h
  have ha := (region_addr_bounds p r).2
  have hw : r.bytes = 1 ∨ r.bytes = 4 := by cases r <;> simp [Region.bytes]
  rcases hw with hw | hw <;> rw [hw] at hb ha hm <;> omega

/-- With admissible parameters the window hides no register: each is found at its own address. -/
theorem regionAt_addr {p : Params} (h : Safety.paramsOk p = true) (r : Region) :
    regionAt p (BitVec.ofNat 32 (r.addr p)) = some r := by
  have hl := (region_addr_bounds p r).1
  have hn : (BitVec.ofNat 32 (r.addr p)).toNat = r.addr p := by
    rw [BitVec.toNat_ofNat]
    omega
  have clear : ∀ k, k < 16 → fixedRegionAt (p.ctrlBase.toNat + k) = none := by
    intro k hk
    simp only [Safety.paramsOk, Bool.and_eq_true, List.all_eq_true, List.mem_range] at h
    simpa using (h.2 k hk).1
  unfold regionAt
  simp only [hn]
  by_cases hw : r.isWindow = false
  · rw [if_neg]
    · exact fixedRegionAt_addr p r hw
    · rintro ⟨h1, h2⟩
      have hc := clear (r.addr p - p.ctrlBase.toNat) (by omega)
      rw [Nat.add_sub_cancel' h1, fixedRegionAt_addr p r hw] at hc
      cases hc
  · rcases r with _ | _ | (_ | _) | _ | _ | _ | _ | _ | _ | (_ | _ | _ | _) | _ | ⟨_ | _ | _ | _, b⟩ | ⟨_ | _, i⟩ <;>
      first
      | exact absurd rfl hw
      | (simp only [Region.addr]
         exact (if_pos (by omega)).trans (by simp [windowRegion]))

/-- A read of a window register answers its value. -/
theorem State.memRead_window (s : State) {k : Nat} (hk : k < 16) (h4 : k % 4 = 0) :
    s.memRead (s.params.ctrlBase + BitVec.ofNat 32 k) 4 = .ok (s.regionValue (windowRegion k)) := by
  have hb := ctrlBase_bounds s.params
  have ht : (s.params.ctrlBase + BitVec.ofNat 32 k).toNat = s.params.ctrlBase.toNat + k := by
    rw [BitVec.toNat_add, BitVec.toNat_ofNat]
    omega
  have hm : (s.params.ctrlBase.toNat + k) % 4 = 0 := by omega
  have h1 : (windowRegion k).bytes = 4 := by unfold windowRegion; split_ifs <;> rfl
  have h2 : s.gateOpen (windowRegion k) = true := by unfold windowRegion; split_ifs <;> rfl
  simp [State.memRead, refused, regionAt_window _ _ hk, h1, h2, ht, hm]

/-- A write to a window register other than CMD does nothing. -/
theorem State.memWrite_window (s : State) {k : Nat} (v : Word) (hk : k < 16) (h4 : k % 4 = 0) (h0 : k ≠ 0) :
    s.memWrite (s.params.ctrlBase + BitVec.ofNat 32 k) 4 v = .next s := by
  have hb := ctrlBase_bounds s.params
  have ht : (s.params.ctrlBase + BitVec.ofNat 32 k).toNat = s.params.ctrlBase.toNat + k := by
    rw [BitVec.toNat_add, BitVec.toNat_ofNat]
    omega
  have hm : (s.params.ctrlBase.toNat + k) % 4 = 0 := by omega
  have h1 : (windowRegion k).bytes = 4 := by unfold windowRegion; split_ifs <;> rfl
  have h2 : (windowRegion k).writable = true := by unfold windowRegion; split_ifs <;> rfl
  have h3 : windowRegion k ≠ .cmd := by
    unfold windowRegion
    rw [if_neg (by omega)]
    split_ifs <;> simp
  simp [State.memWrite, refused, regionAt_window _ _ hk, h1, h2, ht, hm, h3]

/-! ### The lock words -/

@[simp] theorem State.getLsbD_locks (s : State) (p : Port) (i : Fin 32) :
    (s.locks p).getLsbD i.val = s.locked ⟨p, i⟩ := by
  simp [State.locks]

/-- A lock word in which no pin is locked is 0. -/
theorem State.locks_eq_zero {s : State} {p : Port} (h : ∀ i, s.locked ⟨p, i⟩ = false) : s.locks p = 0 := by
  apply BitVec.eq_of_getLsbD_eq
  intro i hi
  rw [show i = (⟨i, hi⟩ : Fin 32).val from rfl, State.getLsbD_locks, h]
  simp

end Sys2Proof.Machine
end

