-- ==== Sys2Proof/Laws/PerInstr.lean ====
section
/-!
SUPPORT. The per-instruction family `EncodedParts`: the parts of a command's word lie where 30_encoding.md R81 and R82 put
them, the opcode below 2^8 and the operand bits of a well-formed command below 2^24.
-/
namespace Sys2Proof.Laws.EncodedParts

/-- The opcode fits `[31:24]`, and a well-formed command's operand bits fit `[23:0]`. -/
def Statement (i : Instr) : Prop := i.opcode < 2 ^ 8 ∧ (i.WellFormed → i.operandBits < 2 ^ 24)

theorem oscAcquire : Statement .oscAcquire := ⟨by decide, fun _ => by decide⟩

theorem oscRelease : Statement .oscRelease := ⟨by decide, fun _ => by decide⟩

theorem oscEnable (a : Nat) : Statement (.oscEnable a) := by
  refine ⟨by simp only [Instr.opcode]; omega, fun h => ?_⟩
  simp only [Instr.WellFormed, Instr.wellFormed, decide_eq_true_eq] at h
  simp only [Instr.operandBits]
  omega

theorem mcgAcquire : Statement .mcgAcquire := ⟨by decide, fun _ => by decide⟩

theorem mcgRelease : Statement .mcgRelease := ⟨by decide, fun _ => by decide⟩

theorem mcgEnableExtRef (a b : Nat) : Statement (.mcgEnableExtRef a b) := by
  refine ⟨by simp only [Instr.opcode]; omega, fun h => ?_⟩
  simp only [Instr.WellFormed, Instr.wellFormed, Bool.and_eq_true, decide_eq_true_eq] at h
  simp only [Instr.operandBits]
  omega

theorem mcgEnablePll (a b : Nat) : Statement (.mcgEnablePll a b) := by
  refine ⟨by simp only [Instr.opcode]; omega, fun h => ?_⟩
  simp only [Instr.WellFormed, Instr.wellFormed, Bool.and_eq_true, decide_eq_true_eq] at h
  simp only [Instr.operandBits]
  omega

theorem mcgSelectPll : Statement .mcgSelectPll := ⟨by decide, fun _ => by decide⟩

theorem simAcquire : Statement .simAcquire := ⟨by decide, fun _ => by decide⟩

theorem simRelease : Statement .simRelease := ⟨by decide, fun _ => by decide⟩

theorem gateAcquire (a b : Nat) : Statement (.gateAcquire a b) := by
  refine ⟨by simp only [Instr.opcode]; omega, fun h => ?_⟩
  simp only [Instr.WellFormed, Instr.wellFormed, Bool.and_eq_true, decide_eq_true_eq] at h
  simp only [Instr.operandBits]
  omega

theorem gateRelease (a b : Nat) : Statement (.gateRelease a b) := by
  refine ⟨by simp only [Instr.opcode]; omega, fun h => ?_⟩
  simp only [Instr.WellFormed, Instr.wellFormed, Bool.and_eq_true, decide_eq_true_eq] at h
  simp only [Instr.operandBits]
  omega

theorem simSetDividers (a b c : Nat) : Statement (.simSetDividers a b c) := by
  refine ⟨by simp only [Instr.opcode]; omega, fun h => ?_⟩
  simp only [Instr.WellFormed, Instr.wellFormed, Bool.and_eq_true, decide_eq_true_eq] at h
  simp only [Instr.operandBits]
  omega

theorem portAcquire (a : Nat) : Statement (.portAcquire a) := by
  refine ⟨by simp only [Instr.opcode]; omega, fun h => ?_⟩
  simp only [Instr.WellFormed, Instr.wellFormed, decide_eq_true_eq] at h
  simp only [Instr.operandBits]
  omega

theorem portRelease (a : Nat) : Statement (.portRelease a) := by
  refine ⟨by simp only [Instr.opcode]; omega, fun h => ?_⟩
  simp only [Instr.WellFormed, Instr.wellFormed, decide_eq_true_eq] at h
  simp only [Instr.operandBits]
  omega

theorem pinAcquire (a b : Nat) : Statement (.pinAcquire a b) := by
  refine ⟨by simp only [Instr.opcode]; omega, fun h => ?_⟩
  simp only [Instr.WellFormed, Instr.wellFormed, Bool.and_eq_true, decide_eq_true_eq] at h
  simp only [Instr.operandBits]
  omega

theorem pinRelease (a b : Nat) : Statement (.pinRelease a b) := by
  refine ⟨by simp only [Instr.opcode]; omega, fun h => ?_⟩
  simp only [Instr.WellFormed, Instr.wellFormed, Bool.and_eq_true, decide_eq_true_eq] at h
  simp only [Instr.operandBits]
  omega

theorem pinMakeGpio (a b : Nat) : Statement (.pinMakeGpio a b) := by
  refine ⟨by simp only [Instr.opcode]; omega, fun h => ?_⟩
  simp only [Instr.WellFormed, Instr.wellFormed, Bool.and_eq_true, decide_eq_true_eq] at h
  simp only [Instr.operandBits]
  omega

theorem pinMakeRx (a b c : Nat) : Statement (.pinMakeRx a b c) := by
  refine ⟨by simp only [Instr.opcode]; omega, fun h => ?_⟩
  simp only [Instr.WellFormed, Instr.wellFormed, Bool.and_eq_true, decide_eq_true_eq] at h
  simp only [Instr.operandBits]
  omega

theorem pinMakeTx (a b c : Nat) : Statement (.pinMakeTx a b c) := by
  refine ⟨by simp only [Instr.opcode]; omega, fun h => ?_⟩
  simp only [Instr.WellFormed, Instr.wellFormed, Bool.and_eq_true, decide_eq_true_eq] at h
  simp only [Instr.operandBits]
  omega

end Sys2Proof.Laws.EncodedParts
end

