-- ==== Sys2Proof/Laws/Decode.lean ====
section
/-!
SUPPORT. The fields of an encoded word.
-/
namespace Sys2Proof.Laws

open Sys2Proof.Machine

/-- A field of a word given by its number. -/
theorem field_ofNat (n v lo len : Nat) (h : lo + len ≤ n) : field (BitVec.ofNat n v) lo len = v / 2 ^ lo % 2 ^ len := by
  apply Nat.eq_of_testBit_eq
  intro k
  rw [testBit_field, BitVec.getLsbD_ofNat, Nat.testBit_mod_two_pow, Nat.testBit_div_two_pow, Nat.add_comm k lo]
  by_cases hk : k < len
  · simp [hk, show lo + k < n by omega]
  · simp [hk]

/-- `opcode < 2^8`, and a well-formed command's operand bits are below `2^24`. -/
theorem encodedParts (i : Instr) : EncodedParts.Statement i := by
  cases i
  · exact EncodedParts.oscAcquire
  · exact EncodedParts.oscRelease
  · exact EncodedParts.oscEnable _
  · exact EncodedParts.mcgAcquire
  · exact EncodedParts.mcgRelease
  · exact EncodedParts.mcgEnableExtRef _ _
  · exact EncodedParts.mcgEnablePll _ _
  · exact EncodedParts.mcgSelectPll
  · exact EncodedParts.simAcquire
  · exact EncodedParts.simRelease
  · exact EncodedParts.gateAcquire _ _
  · exact EncodedParts.gateRelease _ _
  · exact EncodedParts.simSetDividers _ _ _
  · exact EncodedParts.portAcquire _
  · exact EncodedParts.portRelease _
  · exact EncodedParts.pinAcquire _ _
  · exact EncodedParts.pinRelease _ _
  · exact EncodedParts.pinMakeGpio _ _
  · exact EncodedParts.pinMakeRx _ _ _
  · exact EncodedParts.pinMakeTx _ _ _

/-- `w[31:24]` of an encoded command is its opcode. -/
theorem field_opcode_encode {i : Instr} (h : i.WellFormed) : field (encode i) 24 8 = i.opcode := by
  have h1 := (encodedParts i).1
  have h2 := (encodedParts i).2 h
  rw [encode, field_ofNat _ _ _ _ (by omega)]
  omega

/-- A field inside `[23:0]` of an encoded command is that field of its operand bits. -/
theorem field_operand_encode {i : Instr} (lo len : Nat) (hl : lo + len ≤ 24) :
    field (encode i) lo len = i.operandBits / 2 ^ lo % 2 ^ len := by
  rw [encode, field_ofNat _ _ _ _ (by omega)]
  have h24 : 2 ^ 24 = 2 ^ lo * (2 ^ len * 2 ^ (24 - (lo + len))) := by
    rw [← Nat.pow_add, ← Nat.pow_add]
    congr 1
    omega
  rw [h24, Nat.mul_left_comm, Nat.mul_add_div (Nat.two_pow_pos lo), Nat.mul_left_comm, Nat.mul_add_mod]

/-- A format's reserved bits are 0 exactly when its reserved fields read 0 (30_encoding.md R82). -/
theorem reserved_eq_zero (f : Format) (w : Word) : w &&& f.reservedMask = 0 ↔
    match f with
    | .f0 => field w 0 24 = 0
    | .fc => field w 8 16 = 0
    | .fx => field w 18 6 = 0
    | .fp | .fg | .fn => field w 16 8 = 0
    | .fd | .fu => True
    | .ft => field w 16 8 = 0 ∧ field w 0 8 = 0 := by
  cases f with
  | f0 => exact and_fieldMask_eq_zero w 0 24 (by decide)
  | fc => exact and_fieldMask_eq_zero w 8 16 (by decide)
  | fx => exact and_fieldMask_eq_zero w 18 6 (by decide)
  | fp => exact and_fieldMask_eq_zero w 16 8 (by decide)
  | fg => exact and_fieldMask_eq_zero w 16 8 (by decide)
  | fn => exact and_fieldMask_eq_zero w 16 8 (by decide)
  | fd => simp [Format.reservedMask]
  | fu => simp [Format.reservedMask]
  | ft =>
    have hm : Format.reservedMask .ft = fieldMask 32 16 8 ||| fieldMask 32 0 8 := by decide
    rw [hm, BitVec.and_or_distrib_left, ← and_fieldMask_eq_zero w 16 8 (by decide),
      ← and_fieldMask_eq_zero w 0 8 (by decide)]
    simp [BitVec.or_eq_zero_iff]

end Sys2Proof.Laws
end

