-- ==== Sys2Proof/Laws/Exec.lean ====
section
/-!
SUPPORT. Everything a command can do, said once: `exec_cases`. A command always answers a next state; it was ignored in
FATAL, or raised one fatal error, or, from IDLE, performed the writes of its rule (`Performed`).
-/
namespace Sys2Proof.Laws

open Sys2Proof.Machine

/-- `Performed i s t`: command `i`, its checks passed in `s`, made the writes of its rule, which leave `t`. -/
inductive Performed : Instr → State → State → Prop
  | oscAcquire {s} (h : s.oscHeld = false) : Performed .oscAcquire s { s with oscHeld := true }
  | oscRelease {s} (h : s.oscHeld = true) : Performed .oscRelease s { s with oscHeld := false }
  | oscEnable {s cap} (h : s.oscHeld = true) (hc : capacitanceLegal cap = true) :
      Performed (.oscEnable cap) s { s with oscCr := oscControl cap, oscToken := true }
  | mcgAcquire {s} (h : s.mcgHeld = false) (hm : classify s.mcgS ≠ .noMode) :
      Performed .mcgAcquire s { s with mcgHeld := true, mode := classify s.mcgS }
  | mcgRelease {s} (h : s.mcgHeld = true) : Performed .mcgRelease s { s with mcgHeld := false, mode := .noMode }
  | mcgEnableExtRef {s range div idx} (h : s.mcgHeld = true) (hm : s.mode = .internalLocked) (ht : s.oscToken = true)
      (hr : range ≤ 2) (hi : tableIndex range div = some idx) :
      Performed (.mcgEnableExtRef range div) s
        { s with
          mcgC2 := setField (setField s.mcgC2 4 2 range) 2 1 1
          mcgC1 := setField (setField (setField s.mcgC1 6 2 2) 3 3 idx) 2 1 0
          oscToken := false
          mode := .noMode
          phase := .wOscinit }
  | mcgEnablePll {s num den} (h : s.mcgHeld = true) (hm : s.mode = .externalReference)
      (hn : numeratorLegal num = true) (hd : denominatorLegal den = true) :
      Performed (.mcgEnablePll num den) s
        { s with
          mcgC5 := setField s.mcgC5 0 5 (den - 1)
          mcgC6 := setField (setField s.mcgC6 6 1 1) 0 5 (num - 24)
          mode := .noMode
          phase := .wPllst }
  | mcgSelectPll {s} (h : s.mcgHeld = true) (hm : s.mode = .phaseLocked) :
      Performed .mcgSelectPll s { s with mcgC1 := setField s.mcgC1 6 2 0, phase := .wClkstPll }
  | simAcquire {s} (h : s.simHeld = false) : Performed .simAcquire s { s with simHeld := true }
  | simRelease {s} (h : s.simHeld = true) : Performed .simRelease s { s with simHeld := false }
  | gateAcquire {s} (g : Gate) (h : s.simHeld = true) (hb : s.gateBit g = false) :
      Performed (.gateAcquire (gateRegNumber g.reg) g.bit) s (s.setGate g true .host)
  | gateRelease {s} (g : Gate) (ho : s.ownerOf g = .host) :
      Performed (.gateRelease (gateRegNumber g.reg) g.bit) s (s.setGate g false .nobody)
  | simSetDividers {s core bus flash} (h : s.simHeld = true) (hc : ratioLegal core = true) (hb : ratioLegal bus = true)
      (hf : ratioLegal flash = true) :
      Performed (.simSetDividers core bus flash) s
        { s with
          clkdiv1 := setField (setField (setField s.clkdiv1 28 4 (core - 1)) 24 4 (bus - 1)) 16 4 (flash - 1) }
  | portAcquire {s} (p : Port) (h : s.simHeld = true) (hb : s.gateBit (s.params.portGate p) = false) :
      Performed (.portAcquire (portNumber p)) s (s.setGate (s.params.portGate p) true (.port p))
  | portRelease {s} (p : Port) (h : s.portHeld p = true) (hu : s.portInUse p = false) :
      Performed (.portRelease (portNumber p)) s (s.setGate (s.params.portGate p) false .nobody)
  | pinAcquire {s} (q : Pin) (h : s.portHeld q.port = true) (hl : s.locked q = false) :
      Performed (.pinAcquire (portNumber q.port) q.idx) s (s.setCap q .pin)
  | pinRelease {s} (q : Pin) (h : s.portHeld q.port = true) (hl : s.locked q = true) :
      Performed (.pinRelease (portNumber q.port) q.idx) s (s.setCap q .free)
  | pinMakeGpio {s} (q : Pin) (h : s.portHeld q.port = true) (hc : s.capOf q = .pin) :
      Performed (.pinMakeGpio (portNumber q.port) q.idx) s (s.convert q 1 .gpio)
  | pinMakeRx {s} (u : SerialUnit) (q : Pin) (h : s.portHeld q.port = true) (hc : s.capOf q = .pin)
      (hq : q = s.params.rxPin u) :
      Performed (.pinMakeRx (unitNumber u) (portNumber q.port) q.idx) s (s.convert q 3 (.rx u))
  | pinMakeTx {s} (u : SerialUnit) (q : Pin) (h : s.portHeld q.port = true) (hc : s.capOf q = .pin)
      (hq : q = s.params.txPin u) :
      Performed (.pinMakeTx (unitNumber u) (portNumber q.port) q.idx) s (s.convert q 3 (.tx u))

/-- What a command's own checks and writes leave: a raised fatal error other than CMD_WHILE_BUSY, or the writes of its rule. -/
def Outcome (i : Instr) (s d : State) : Prop := (∃ c, c ≠ .cmdWhileBusy ∧ d = s.raise c) ∨ Performed i s d

theorem Outcome.require {i : Instr} {s d : State} {ok : Bool} {c : FatalCode} (h : ok = true → Outcome i s d)
    (hc : c ≠ .cmdWhileBusy := by decide) : Outcome i s (s.require ok c d) := by
  rcases s.require_cases ok c d with ⟨hk, he⟩ | ⟨_, he⟩ <;> rw [he]
  · exact h hk
  · exact .inl ⟨c, hc, rfl⟩

theorem Outcome.given {α : Type} {i : Instr} {s : State} {o : Option α} {c : FatalCode} {d : α → State}
    (h : ∀ a, o = some a → Outcome i s (d a)) (hc : c ≠ .cmdWhileBusy := by decide) :
    Outcome i s (s.given o c d) := by
  rcases s.given_cases o c d with ⟨a, ha, he⟩ | ⟨_, he⟩ <;> rw [he]
  · exact h a ha
  · exact .inl ⟨c, hc, rfl⟩

theorem Outcome.checkPin {i : Instr} {s : State} {port idx : Nat} {d : Pin → State}
    (h : ∀ q : Pin, port = portNumber q.port → idx = q.idx.val → s.portHeld q.port = true → Outcome i s (d q)) :
    Outcome i s (s.checkPin port idx d) := by
  rcases s.checkPin_cases port idx d with ⟨q, hp, hi, hh, he⟩ | ⟨c, hn, he⟩ <;> rw [he]
  · exact h q hp hi hh
  · exact .inl ⟨c, hn, rfl⟩

theorem Outcome.checkPlainPin {i : Instr} {s : State} {q : Pin} {d : State} (h : s.capOf q = .pin → Outcome i s d) :
    Outcome i s (s.checkPlainPin q d) := by
  rcases s.checkPlainPin_cases q d with ⟨hc, he⟩ | ⟨c, hn, he⟩ <;> rw [he]
  · exact h hc
  · exact .inl ⟨c, hn, rfl⟩

/-- From its checks on, a command raises a fatal error or performs its rule. -/
theorem exec_outcome (i : Instr) (s : State) : ∃ d, exec i s = .next (s.issue d) ∧ Outcome i s d := by
  cases i with
  | oscAcquire => exact ⟨_, rfl, .require fun h => .inr (.oscAcquire (by simpa using h))⟩
  | oscRelease => exact ⟨_, rfl, .require fun h => .inr (.oscRelease h)⟩
  | oscEnable cap => exact ⟨_, rfl, .require fun h => .require fun hc => .inr (.oscEnable h hc)⟩
  | mcgAcquire =>
    exact ⟨_, rfl, .require fun h => .require fun hm => .inr (.mcgAcquire (by simpa using h) (by simpa using hm))⟩
  | mcgRelease => exact ⟨_, rfl, .require fun h => .inr (.mcgRelease h)⟩
  | mcgEnableExtRef range div =>
    exact ⟨_, rfl, .require fun h => .require fun hm => .require fun ht => .require fun hr => .given fun _ hi =>
      .inr (.mcgEnableExtRef h (by simpa using hm) ht (by simpa using hr) hi)⟩
  | mcgEnablePll num den =>
    exact ⟨_, rfl, .require fun h => .require fun hm => .require fun hn => .require fun hd =>
      .inr (.mcgEnablePll h (by simpa using hm) hn hd)⟩
  | mcgSelectPll =>
    exact ⟨_, rfl, .require fun h => .require fun hm => .inr (.mcgSelectPll h (by simpa using hm))⟩
  | simAcquire => exact ⟨_, rfl, .require fun h => .inr (.simAcquire (by simpa using h))⟩
  | simRelease => exact ⟨_, rfl, .require fun h => .inr (.simRelease h)⟩
  | gateAcquire reg bit =>
    refine ⟨_, rfl, .require fun h => .given fun n hn => .given fun b hb => .require fun hg => .inr ?_⟩
    rw [gateRegOf_eq_some.mp hn, below32_eq_some.mp hb]
    exact .gateAcquire ⟨n, b⟩ h (by simpa using hg)
  | gateRelease reg bit =>
    refine ⟨_, rfl, .given fun n hn => .given fun b hb => .require fun hg => .inr ?_⟩
    rw [gateRegOf_eq_some.mp hn, below32_eq_some.mp hb]
    exact .gateRelease ⟨n, b⟩ (by simpa using hg)
  | simSetDividers core bus flash =>
    exact ⟨_, rfl, .require fun h => .require fun hc => .require fun hb => .require fun hf =>
      .inr (.simSetDividers h hc hb hf)⟩
  | portAcquire port =>
    refine ⟨_, rfl, .require fun h => .given fun p hp => .require fun hg => .inr ?_⟩
    rw [portOf_eq_some.mp hp]
    exact .portAcquire p h (by simpa using hg)
  | portRelease port =>
    refine ⟨_, rfl, .given fun p hp => .require fun hh => .require fun hu => .inr ?_⟩
    rw [portOf_eq_some.mp hp]
    exact .portRelease p hh (by simpa using hu)
  | pinAcquire port idx =>
    refine ⟨_, rfl, .checkPin fun q hp hi hh => .require fun hl => .inr ?_⟩
    rw [hp, hi]
    exact .pinAcquire q hh (by simpa using hl)
  | pinRelease port idx =>
    refine ⟨_, rfl, .checkPin fun q hp hi hh => .require fun hl => .inr ?_⟩
    rw [hp, hi]
    exact .pinRelease q hh hl
  | pinMakeGpio port idx =>
    refine ⟨_, rfl, .checkPin fun q hp hi hh => .checkPlainPin fun hc => .inr ?_⟩
    rw [hp, hi]
    exact .pinMakeGpio q hh hc
  | pinMakeRx unit port idx =>
    refine ⟨_, rfl, .checkPin fun q hp hi hh => .checkPlainPin fun hc => .given fun u hu => .require fun hq => .inr ?_⟩
    rw [hp, hi, unitOf_eq_some.mp hu]
    exact .pinMakeRx u q hh hc (by simpa using hq)
  | pinMakeTx unit port idx =>
    refine ⟨_, rfl, .checkPin fun q hp hi hh => .checkPlainPin fun hc => .given fun u hu => .require fun hq => .inr ?_⟩
    rw [hp, hi, unitOf_eq_some.mp hu]
    exact .pinMakeTx u q hh hc (by simpa using hq)

/-- Everything a command can do: it answers a next state, and it was ignored in FATAL, or raised CMD_WHILE_BUSY in a wait
phase, or from IDLE raised another fatal error or was performed. -/
theorem exec_cases (i : Instr) (s : State) :
    ∃ t, exec i s = .next t ∧
      ((s.phase = .fatal ∧ t = s) ∨ (s.phase.isWait = true ∧ t = s.raise .cmdWhileBusy) ∨
        (s.phase = .idle ∧ ((∃ c, c ≠ .cmdWhileBusy ∧ t = s.raise c) ∨ Performed i s t))) := by
  obtain ⟨d, he, hd⟩ := exec_outcome i s
  refine ⟨_, he, ?_⟩
  rcases s.issue_cases d with ⟨hp, hq⟩ | ⟨hp, hq⟩ | ⟨hp, hq⟩ <;> rw [hq]
  · exact .inr (.inr ⟨hp, hd⟩)
  · exact .inl ⟨hp, rfl⟩
  · exact .inr (.inl ⟨hp, rfl⟩)

/-- A command that answered `t` was ignored, raised a fatal error outside FATAL, or was performed from IDLE. -/
theorem exec_next {i : Instr} {s t : State} (h : exec i s = .next t) :
    (s.phase = .fatal ∧ t = s) ∨ (s.phase ≠ .fatal ∧ ∃ c, t = s.raise c) ∨ (s.phase = .idle ∧ Performed i s t) := by
  obtain ⟨u, hu, hc⟩ := exec_cases i s
  obtain rfl : u = t := by simpa [hu] using h
  rcases hc with hc | ⟨hp, rfl⟩ | ⟨hp, ⟨c, _, rfl⟩ | hd⟩
  · exact .inl hc
  · exact .inr (.inl ⟨Phase.ne_fatal_of_isWait hp, _, rfl⟩)
  · exact .inr (.inl ⟨by simp [hp], c, rfl⟩)
  · exact .inr (.inr ⟨hp, hd⟩)

/-- A performed command does not enter FATAL. -/
theorem Performed.phase_ne_fatal {i : Instr} {s t : State} (hi : s.phase = .idle) (h : Performed i s t) :
    t.phase ≠ .fatal := by
  cases h <;> simp [hi]

end Sys2Proof.Laws
end

