-- ==== Sys2Proof/Laws/Step.lean ====
section
/-!
SUPPORT. Everything a step can do, said once: `step_cases`. Invariants and whole-machine rules are case analyses over it.
-/
namespace Sys2Proof.Laws

open Sys2Proof.Machine

/-- `Moved s t`: what one turn does to the block, the peripherals and what HOST has read, HOST's program and the schedule
having already moved on in `s`. -/
inductive Moved : State → State → Prop
  | hold {s} : Moved s s
  | read {s} (v : Word) : Moved s { s with readData := some v }
  | raised {s} (c : FatalCode) (h : s.phase ≠ .fatal) : Moved s (s.raise c)
  | performed {s t} (i : Instr) (h : s.phase = .idle) (p : Performed i s t) : Moved s t
  | polled {s} (h : s.blockEnabled = true) : Moved s s.advance
  | driven {s} (v : Byte) : Moved s { s with mcgS := v }
  | reset {s} : Moved s s.resetBlock

/-- A command's answer is a move. -/
theorem moved_of_exec {i : Instr} {s t : State} (h : exec i s = .next t) : Moved s t := by
  rcases exec_next h with ⟨_, rfl⟩ | ⟨hp, c, rfl⟩ | ⟨hp, hd⟩
  · exact .hold
  · exact .raised c hp
  · exact .performed i hp hd

/-- Issuing a word is a move. -/
theorem moved_of_issueWord {w : Word} {s t : State} (h : issueWord w s = .next t) : Moved s t := by
  unfold issueWord at h
  split at h
  · exact moved_of_exec h
  · rename_i e _
    simp only [Host.Outcome.next.injEq] at h
    rcases s.issue_cases (s.raise (fatalOfDecode e)) with ⟨hp, hq⟩ | ⟨hp, hq⟩ | ⟨hp, hq⟩ <;>
      rw [hq] at h <;> subst h
    · exact .raised _ (by simp [hp])
    · exact .hold
    · exact .raised _ (Phase.ne_fatal_of_isWait hp)

/-- A host write that answers is a move. -/
theorem moved_of_memWrite {s t : State} {a v : Word} {n : Nat} (h : s.memWrite a n v = .next t) : Moved s t := by
  unfold State.memWrite at h
  split at h
  · cases h
  · split at h
    · exact moved_of_issueWord h
    · cases h
      exact .hold

/-- One access of HOST that answers is a move. -/
theorem moved_of_access {s t : State} {a : Access} (h : s.access a = .next t) : Moved s t := by
  cases a with
  | write a n v => exact moved_of_memWrite h
  | read a n =>
    simp only [State.access] at h
    split at h
    · cases h
      exact .read _
    · cases h

/-- A host access that answers recorded a value, raised a fatal error outside FATAL, performed a command from IDLE, or did
nothing. -/
theorem access_cases {s t : State} {a : Access} (h : s.access a = .next t) :
    (∃ v, t = { s with readData := v }) ∨ (s.phase ≠ .fatal ∧ ∃ c, t = s.raise c) ∨
      ∃ i, s.phase = .idle ∧ Performed i s t := by
  cases a with
  | read a n =>
    simp only [State.access] at h
    split at h
    · cases h
      exact .inl ⟨_, rfl⟩
    · cases h
  | write a n v =>
    simp only [State.access, State.memWrite] at h
    split at h
    · cases h
    · split at h
      · unfold issueWord at h
        split at h
        · rcases exec_next h with ⟨_, rfl⟩ | ⟨hp, c, rfl⟩ | ⟨hp, hd⟩
          · exact .inl ⟨_, rfl⟩
          · exact .inr (.inl ⟨hp, c, rfl⟩)
          · exact .inr (.inr ⟨_, hp, hd⟩)
        · rename_i e _
          simp only [Host.Outcome.next.injEq] at h
          rcases s.issue_cases (s.raise (fatalOfDecode e)) with ⟨hp, hq⟩ | ⟨_, hq⟩ | ⟨hp, hq⟩ <;>
            rw [hq] at h <;> subst h
          · exact .inr (.inl ⟨by simp [hp], _, rfl⟩)
          · exact .inl ⟨_, rfl⟩
          · exact .inr (.inl ⟨Phase.ne_fatal_of_isWait hp, _, rfl⟩)
      · cases h
        exact .inl ⟨_, rfl⟩

/-- A turn that answers makes one move, HOST's turn taking the access off its program. -/
theorem take_cases {s t : State} {u : Turn} (h : s.take u = .next t) :
    Moved s t ∨ ∃ a rest, u = .host ∧ s.program = a :: rest ∧ Moved { s with program := rest } t := by
  cases u with
  | host =>
    simp only [State.take, State.hostStep] at h
    split at h
    · cases h
      exact .inl .hold
    · rename_i a rest hp
      exact .inr ⟨a, rest, rfl, hp, moved_of_access h⟩
  | block =>
    simp only [State.take, Host.Outcome.next.injEq] at h
    rcases s.poll_cases with ⟨he, hq⟩ | ⟨_, hq⟩ <;> rw [hq] at h <;> subst h
    · exact .inl (.polled he)
    · exact .inl .hold
  | env v =>
    simp only [State.take, Host.Outcome.next.injEq] at h
    obtain ⟨w, hw⟩ := s.envStep_eq v
    rw [hw] at h
    subst h
    exact .inl (.driven w)
  | reset src =>
    simp only [State.take, Host.Outcome.next.injEq] at h
    subst h
    exact .inl .reset

/-- Everything a step can do: HOST's program and the schedule move on, and one move is made. -/
theorem step_cases {s t : State} (h : step s = .next t) :
    ∃ p q, Moved { s with program := p, schedule := q } t := by
  simp only [step, State.turn] at h
  split at h
  · rename_i u rest _
    rcases take_cases h with hm | ⟨a, p, _, _, hm⟩
    · exact ⟨s.program, rest, hm⟩
    · exact ⟨p, rest, hm⟩
  · split at h
    · rcases take_cases h with hm | ⟨a, p, _, _, hm⟩
      · exact ⟨s.program, s.schedule, hm⟩
      · exact ⟨p, s.schedule, hm⟩
    · cases h
      exact ⟨s.program, s.schedule, .hold⟩

end Sys2Proof.Laws
end

