-- ==== Sys2Proof/Tests/Slice0.lean ====
section
/-!
SUPPORT. Tests and witnesses. Every expected value is written out from the spec: 30_encoding.md R87 and the vectors of
95_test_vectors.md, whose section each test names. A theorem `witness_X` shows states and operands that meet the hypotheses of
`Obligations.X`, at the boundary values of its clauses.
-/
namespace Sys2Proof.Tests

open Sys2Proof Sys2Proof.Machine Sys2Proof.Safety

/-! ### Small states and readings of an answer -/

/-- The code an answer raises, 0x00 for none. -/
def codeOf (r : Result) : Byte :=
  match r with
  | .next t => t.fatalByte
  | .fault _ => 0xFF
  | .refused _ => 0xFF

/-- STATUS after an answer. -/
def statusOf (r : Result) : Word :=
  match r with
  | .next t => t.status
  | .fault _ => 0xFFFFFFFF
  | .refused _ => 0xFFFFFFFF

/-- A reading of the next state of an answer. -/
def readOf {α : Type} (f : State → α) (r : Result) : Option α :=
  match r with
  | .next t => some (f t)
  | .fault _ => none
  | .refused _ => none

/-- `osc.acquire`. -/
def osc : State := { State.reset with oscHeld := true }

/-- `osc.acquire ; osc.enable 10`. -/
def oscOn : State := { osc with oscToken := true, oscCr := 0x8A }

/-- The prefix IL of 95_test_vectors.md. -/
def il : State := { oscOn with mcgHeld := true, mode := .internalLocked }

/-- The prefix ER: the external reference runs. -/
def er : State :=
  { il with oscToken := false, mode := .externalReference, mcgC1 := 0xA0, mcgC2 := 0xA4, mcgS := 0x0A }

/-- The prefix PL: the phase lock is reached. -/
def pl : State := { er with mode := .phaseLocked, mcgC5 := 0x05, mcgC6 := 0x43, mcgS := 0x6A }

/-- `sim.acquire`. -/
def sim : State := { State.reset with simHeld := true }

/-- `sim.acquire ; gate.acquire 4, 10`. -/
def gate : State := sim.setGate ⟨.scgc4, 10⟩ true .host

/-- The prefix P_B: `sim.acquire ; port.acquire B`. -/
def portB : State := sim.setGate ⟨.scgc5, 10⟩ true (.port .b)

/-- P_B with a plain pin. -/
def pinAt (i : Fin 32) : State := portB.setCap ⟨.b, i⟩ .pin

/-! ### Well-formed commands: one ill-formed term for each check -/

theorem test_wellFormed : [Instr.oscEnable 255, .mcgEnableExtRef 3 65535, .mcgEnablePll 255 255, .gateAcquire 255 255,
    .gateRelease 255 255, .simSetDividers 255 255 255, .portAcquire 255, .portRelease 255, .pinAcquire 255 255,
    .pinRelease 255 255, .pinMakeGpio 255 255, .pinMakeRx 255 255 255, .pinMakeTx 255 255 255].all Instr.wellFormed
    = true := by decide

theorem test_illFormed : [Instr.oscEnable 256, .mcgEnableExtRef 4 0, .mcgEnableExtRef 0 65536, .mcgEnablePll 256 0,
    .mcgEnablePll 0 256, .gateAcquire 256 0, .gateAcquire 0 256, .gateRelease 256 0, .gateRelease 0 256,
    .simSetDividers 256 0 0, .simSetDividers 0 256 0, .simSetDividers 0 0 256, .portAcquire 256, .portRelease 256,
    .pinAcquire 256 0, .pinAcquire 0 256, .pinRelease 256 0, .pinRelease 0 256].any Instr.wellFormed
    = false := by decide

theorem test_illFormed_conversions : [Instr.pinMakeGpio 256 0, .pinMakeGpio 0 256, .pinMakeRx 256 0 0, .pinMakeRx 0 256 0,
    .pinMakeRx 0 0 256, .pinMakeTx 256 0 0, .pinMakeTx 0 256 0, .pinMakeTx 0 0 256].any Instr.wellFormed
    = false := by decide

/-! ### Decoding: every constructor, from a word of 30_encoding.md R87 or 95_test_vectors.md -/

theorem test_decode_osc_acquire : decode 0x01000000 = .ok .oscAcquire := by decide
theorem test_decode_osc_release : decode 0x02000000 = .ok .oscRelease := by decide
theorem test_decode_osc_enable : decode 0x0300000A = .ok (.oscEnable 10) := by decide
theorem test_decode_mcg_acquire : decode 0x08000000 = .ok .mcgAcquire := by decide
theorem test_decode_mcg_release : decode 0x09000000 = .ok .mcgRelease := by decide
theorem test_decode_mcg_extref : decode 0x0A020200 = .ok (.mcgEnableExtRef 2 512) := by decide
theorem test_decode_mcg_pll : decode 0x0B001B06 = .ok (.mcgEnablePll 27 6) := by decide
theorem test_decode_mcg_selpll : decode 0x0C000000 = .ok .mcgSelectPll := by decide
theorem test_decode_sim_acquire : decode 0x10000000 = .ok .simAcquire := by decide
theorem test_decode_sim_release : decode 0x11000000 = .ok .simRelease := by decide
theorem test_decode_gate_acquire : decode 0x1200040A = .ok (.gateAcquire 4 10) := by decide
theorem test_decode_gate_release : decode 0x13000617 = .ok (.gateRelease 6 23) := by decide
theorem test_decode_sim_dividers : decode 0x14010203 = .ok (.simSetDividers 1 2 3) := by decide
theorem test_decode_port_acquire : decode 0x18000100 = .ok (.portAcquire 1) := by decide
theorem test_decode_port_release : decode 0x19000100 = .ok (.portRelease 1) := by decide
theorem test_decode_pin_acquire : decode 0x1A000110 = .ok (.pinAcquire 1 16) := by decide
theorem test_decode_pin_release : decode 0x1B000103 = .ok (.pinRelease 1 3) := by decide
theorem test_decode_pin_gpio : decode 0x1C000205 = .ok (.pinMakeGpio 2 5) := by decide
theorem test_decode_pin_rx : decode 0x1DFF0110 = .ok (.pinMakeRx 255 1 16) := by decide
theorem test_decode_pin_tx : decode 0x1E000111 = .ok (.pinMakeTx 0 1 17) := by decide

/-- Section 2.1: opcodes that are not defined. -/
theorem test_decode_undefined : [0x00000000, 0x04000000, 0x1F000000, 0xFF000000].map decode
    = List.replicate 4 (.error .undefinedOpcode) := by decide

/-- Section 2.1: reserved bits of F0, FC, FX, FT and FG. -/
theorem test_decode_reserved : [0x01000001, 0x0C800000, 0x03000100, 0x0A040200, 0x18000101, 0x12010000].map decode
    = List.replicate 6 (.error .reservedNonzero) := by decide

/-- R87: the encoder, on a word with three operands. -/
theorem test_encode_dividers : encode (.simSetDividers 1 2 3) = 0x14010203 := by decide

/-- The table word of a row, as the host numbers its bits. -/
theorem test_decodeTableWord : decodeTableWord 32 0x0A020200 = some (.mcgEnableExtRef 2 512) := by decide

/-! ### Assembly (R90, R91) -/

theorem test_assemble_hex : assembleLine "  osc.enable 0x1E".toList = some [0x0300001E] := by decide

/-- R90: an operand that does not fit its field is an assembly error; one that fits but is not legal assembles. -/
theorem test_assemble_fit : assembleLine "osc.enable 256".toList = none ∧
    assembleLine "mcg.extref 3, 512".toList = some [0x0A030200] ∧
    assembleLine "mcg.extref 4, 512".toList = none := by decide

theorem test_assemble_word : assembleLine ".word 0x1DFF0110".toList = some [0x1DFF0110] ∧
    assembleLine "; osc.acquire".toList = some [] := by decide

/-- R91. -/
theorem test_assemble_clock_pll : assembleLine "clock.pll 10, vhigh, 512, 27, 6".toList
    = some [0x01000000, 0x0300000A, 0x08000000, 0x0A020200, 0x0B001B06, 0x0C000000] := by decide

theorem test_assemble_acquire_tx : assembleLine "pin.acquire_tx 0, B, 17".toList = some [0x1A000111, 0x1E000111] := by
  decide

/-! ### The commands, one step each -/

/-- Section 1.4. -/
theorem test_osc_acquire : statusOf (exec .oscAcquire State.reset) = 0x00080000 ∧
    statusOf (exec .oscAcquire osc) = 0x0008211E := by decide

/-- Section 2.3: the token and `OSC_CR` are kept. -/
theorem test_osc_release : statusOf (exec .oscRelease oscOn) = 0x00200000 ∧
    readOf State.oscCr (exec .oscRelease oscOn) = some 0x8A := by decide

/-- Section 1.1. -/
theorem test_osc_enable : readOf State.oscCr (exec (.oscEnable 22) osc) = some 0x8D ∧
    statusOf (exec (.oscEnable 22) osc) = 0x00280000 := by decide

/-- Section 1.1. -/
theorem test_osc_enable_refused : [1, 29, 31, 32, 255].map (fun c => statusOf (exec (.oscEnable c) osc))
    = List.replicate 5 0x0008111E := by decide

/-- Section 2.2. -/
theorem test_mcg_acquire : statusOf (exec .mcgAcquire State.reset) = 0x00050000 ∧
    statusOf (exec .mcgAcquire { State.reset with mcgS := 0x00 }) = 0x00001E1E := by decide

/-- Section 2.2. -/
theorem test_mcg_release : statusOf (exec .mcgRelease er) = 0x00080000 ∧
    statusOf (exec .mcgRelease State.reset) = 0x0000411E := by decide

/-- Section 2.2. -/
theorem test_mcg_extref : statusOf (exec (.mcgEnableExtRef 2 512) il) = 0x000C0005 ∧
    readOf State.mcgC2 (exec (.mcgEnableExtRef 2 512) il) = some 0xA4 ∧
    readOf State.mcgC1 (exec (.mcgEnableExtRef 2 512) il) = some 0xA0 := by decide

/-- Section 1.2: a divisor of the other table, and RANGE 3. -/
theorem test_mcg_extref_refused : codeOf (exec (.mcgEnableExtRef 1 16) il) = 0x13 ∧
    codeOf (exec (.mcgEnableExtRef 0 256) il) = 0x13 ∧ codeOf (exec (.mcgEnableExtRef 3 32) il) = 0x12 := by decide

/-- Section 1.3. -/
theorem test_mcg_pll : readOf State.mcgC5 (exec (.mcgEnablePll 40 13) er) = some 0x0C ∧
    readOf State.mcgC6 (exec (.mcgEnablePll 40 13) er) = some 0x50 ∧
    statusOf (exec (.mcgEnablePll 40 13) er) = 0x000C0011 := by decide

/-- Sections 1.3, 1.5. -/
theorem test_mcg_pll_refused : statusOf (exec (.mcgEnablePll 23 0) er) = 0x000E141E ∧
    statusOf (exec (.mcgEnablePll 27 0) er) = 0x000E151E ∧
    statusOf (exec (.mcgEnablePll 27 6) il) = 0x002D421E := by decide

/-- Section 2.2. -/
theorem test_mcg_selpll : statusOf (exec .mcgSelectPll pl) = 0x000F0019 ∧
    readOf State.mcgC1 (exec .mcgSelectPll pl) = some 0x20 ∧
    statusOf (exec .mcgSelectPll er) = 0x000E421E := by decide

/-- Section 1.4. -/
theorem test_sim_acquire : statusOf (exec .simAcquire State.reset) = 0x00100000 ∧
    statusOf (exec .simAcquire sim) = 0x0010231E := by decide

/-- Section 2.5: the port stays held. -/
theorem test_sim_release : statusOf (exec .simRelease portB) = 0x00400000 ∧
    codeOf (exec .simRelease State.reset) = 0x41 := by decide

/-- Section 2.4. -/
theorem test_gate_acquire : readOf (State.scgcOf · .scgc7) (exec (.gateAcquire 7 31) sim) = some 0x80000006 ∧
    readOf (State.scgcOf · .scgc4) (exec (.gateAcquire 4 0) sim) = some 0xF0100031 := by decide

/-- Section 2.4: set at reset; the register is checked before the bit. -/
theorem test_gate_acquire_refused : statusOf (exec (.gateAcquire 4 4) sim) = 0x0010241E ∧
    codeOf (exec (.gateAcquire 255 255) sim) = 0x19 ∧ codeOf (exec (.gateAcquire 4 32) sim) = 0x1A := by decide

/-- Section 2.4: without `sim_held`. -/
theorem test_gate_release :
    readOf (State.scgcOf · .scgc4) (exec (.gateRelease 4 10) { gate with simHeld := false }) = some 0xF0100030 ∧
    statusOf (exec (.gateRelease 4 10) { gate with simHeld := false }) = 0x00000000 := by decide

/-- Section 2.4: set at reset without an owner; owned by a port. -/
theorem test_gate_release_refused : codeOf (exec (.gateRelease 4 4) sim) = 0x41 ∧
    statusOf (exec (.gateRelease 5 10) portB) = 0x0050411E := by decide

/-- Section 2.4. -/
theorem test_sim_dividers : readOf State.clkdiv1 (exec (.simSetDividers 2 4 5) sim) = some 0x13040000 ∧
    readOf State.clkdiv1 (exec (.simSetDividers 16 16 16) sim) = some 0xFF0F0000 := by decide

/-- Section 2.4: core first. -/
theorem test_sim_dividers_refused : codeOf (exec (.simSetDividers 0 0 0) sim) = 0x16 ∧
    codeOf (exec (.simSetDividers 1 17 1) sim) = 0x17 ∧ codeOf (exec (.simSetDividers 1 1 17) sim) = 0x18 := by decide

/-- Section 2.5. -/
theorem test_port_acquire : readOf (State.scgcOf · .scgc5) (exec (.portAcquire 2) sim) = some 0x00040982 ∧
    statusOf (exec (.portAcquire 2) sim) = 0x00900000 := by decide

/-- Section 2.5: the gate acquired by the host; a number that names no port. -/
theorem test_port_acquire_refused :
    statusOf (exec (.portAcquire 1) (sim.setGate ⟨.scgc5, 10⟩ true .host)) = 0x0010241E ∧
    codeOf (exec (.portAcquire 0) sim) = 0x1B ∧ codeOf (exec (.portAcquire 3) sim) = 0x1B := by decide

/-- Section 2.5. -/
theorem test_port_release : readOf (State.scgcOf · .scgc5) (exec (.portRelease 1) portB) = some 0x00040182 ∧
    statusOf (exec (.portRelease 1) portB) = 0x00100000 := by decide

/-- Program P6. -/
theorem test_port_release_in_use : statusOf (exec (.portRelease 1) (pinAt 3)) = 0x0050451E := by decide

/-- Section 2.5. -/
theorem test_pin_acquire : readOf (State.locks · .b) (exec (.pinAcquire 1 31) portB) = some 0x80000000 ∧
    statusOf (exec (.pinAcquire 1 3) (pinAt 3)) = 0x0050251E := by decide +kernel

/-- Section 2.5: the port is checked before the index. -/
theorem test_pin_acquire_refused : codeOf (exec (.pinAcquire 3 32) portB) = 0x1B ∧
    codeOf (exec (.pinAcquire 2 0) portB) = 0x41 ∧ codeOf (exec (.pinAcquire 1 32) portB) = 0x1C := by decide

/-- Section 2.5: the mux value stays. -/
theorem test_pin_release :
    readOf (State.pcrOf · ⟨.b, 3⟩) (exec (.pinRelease 1 3) (portB.convert ⟨.b, 3⟩ 1 .gpio)) = some 0x00000100 ∧
    readOf (State.locks · .b) (exec (.pinRelease 1 3) (portB.convert ⟨.b, 3⟩ 1 .gpio)) = some 0 := by
  decide +kernel

/-- Section 2.5. -/
theorem test_pin_gpio : readOf (State.pcrOf · ⟨.b, 3⟩) (exec (.pinMakeGpio 1 3) (pinAt 3)) = some 0x00000100 ∧
    codeOf (exec (.pinMakeGpio 1 3) portB) = 0x41 := by decide

/-- Section 2.5. -/
theorem test_pin_rx : readOf (State.pcrOf · ⟨.b, 16⟩) (exec (.pinMakeRx 0 1 16) (pinAt 16)) = some 0x00000300 ∧
    readOf (State.capOf · ⟨.b, 16⟩) (exec (.pinMakeRx 0 1 16) (pinAt 16)) = some (.rx .unit0) := by decide

/-- Section 2.5. -/
theorem test_pin_rx_refused : codeOf (exec (.pinMakeRx 0 1 17) (pinAt 17)) = 0x31 ∧
    codeOf (exec (.pinMakeRx 1 1 16) (pinAt 16)) = 0x1D := by decide

/-- Section 2.5. -/
theorem test_pin_tx : readOf (State.capOf · ⟨.b, 17⟩) (exec (.pinMakeTx 0 1 17) (pinAt 17)) = some (.tx .unit0) ∧
    codeOf (exec (.pinMakeTx 0 1 16) (pinAt 16)) = 0x32 := by decide

/-! ### Status classification, the environment, the waits -/

/-- Section 2.2. -/
theorem test_classify : ([0x10, 0x12, 0x90, 0x0A, 0x08, 0x6A, 0x2A, 0x6E].map classify
    = [.internalLocked, .internalLocked, .internalLocked, .externalReference, .externalReference, .phaseLocked,
      .phaseLocked, .phaseLocked]) ∧
    [0x00, 0x0E, 0x14, 0x1C, 0x20, 0x7E].map classify = List.replicate 6 .noMode := by decide

/-- Section 2.2. -/
theorem test_settle : settleOf 0x04 0x80 0x00 = 0x10 ∧ settleOf 0xA0 0xA4 0x00 = 0x0A ∧ settleOf 0xA0 0xA4 0x43 = 0x6A ∧
    settleOf 0x20 0xA4 0x43 = 0x6E ∧ settleOf 0x80 0x84 0x00 = 0x0A ∧ settleOf 0x04 0x80 0x40 = 0x7C := by decide

/-- Section 2.2, polling under FREE: step 4, a passed wait is not tested again. -/
theorem test_poll_completes :
    statusOf (({ er with phase := .wClkstExt, mode := .noMode, mcgS := 0x08 } : State).take .block) = 0x000E0000 := by
  decide

/-- Section 2.2, polling under FREE: step 3, BLOCK holds. -/
theorem test_poll_holds :
    statusOf (({ er with phase := .wClkstExt, mode := .noMode, mcgS := 0x12 } : State).take .block) = 0x000C000D := by
  decide

/-! ### The bus and the step -/

/-- Section 2.7: refused accesses. -/
theorem test_access_refused : [(0x50000004, 2), (0x50000001, 4), (0x40064004, 4), (0x40064002, 1), (0x42900500, 4)].map
    (fun x => State.reset.memRead x.1 x.2) = List.replicate 5 (.error .accessRefused) := by decide

/-- Section 2.7: reads at reset. -/
theorem test_reads_at_reset : [(0x50000000, 4), (0x50000004, 4), (0x40064006, 1), (0x40048044, 4), (0x42900690, 4),
    (0x429006A8, 4), (0x42900704, 4)].map (fun x => State.reset.memRead x.1 x.2)
    = [.ok 0, .ok 0, .ok 0x10, .ok 0x00010000, .ok 1, .ok 0, .ok 1] := rfl

/-- Section 2.7: a pin-control register of an ungated port, and of a gated one. -/
theorem test_gated_read : State.reset.memRead 0x4004A040 4 = .error .accessGated ∧
    (portB.convert ⟨.b, 16⟩ 3 (.rx .unit0)).memRead 0x4004A040 4 = .ok 0x00000300 := by decide

/-- The first step after reset with a command placed runs that command (section 1.4). -/
theorem test_step_runs_a_command : statusOf (step (State.reset.withFetchWord 32 0x01000000)) = 0x00080000 := rfl

/-- Section 2.1, through the bus. -/
theorem test_step_undefined : statusOf (step (State.reset.withFetchWord 32 0x04000000)) = 0x0000471E ∧
    statusOf (step (State.reset.withFetchWord 32 0x14FFFFFF)) = 0x0000411E ∧
    statusOf (step (State.reset.withFetchWord 32 0x1DFFFFFF)) = 0x00001B1E := ⟨rfl, rfl, rfl⟩

/-- Section 2.8. -/
theorem test_reset : statusOf (pl.take (.reset .watchdog)) = 0 ∧ readOf State.mcgC1 (pl.take (.reset .system)) = some 0x04 ∧
    readOf State.mcgS (pl.take (.reset .powerOn)) = some 0x10 := by decide

/-! ### Witnesses: encoding -/

theorem witness_DecodeEncodeRoundTrip : (Instr.pinMakeTx 255 255 255).WellFormed ∧ (Instr.mcgEnableExtRef 3 65535).WellFormed ∧
    (Instr.oscEnable 0).WellFormed ∧ Instr.simRelease.WellFormed := by decide

theorem witness_DecodedWordReencodes : decode 0x1EFFFFFF = .ok (.pinMakeTx 255 255 255) ∧
    decode 0x0A03FFFF = .ok (.mcgEnableExtRef 3 65535) := by decide

theorem witness_ReservedEncodingsAreFatal : State.reset.phase = .idle ∧
    (∀ m, (field (0x1F000000 : Word) 24 8, m) ∉ opcodeMasks) ∧ (∀ m, (field (0x00000000 : Word) 24 8, m) ∉ opcodeMasks) ∧
    (field (0x0A040000 : Word) 24 8, (0x00FC0000 : Word)) ∈ opcodeMasks ∧ (0x0A040000 : Word) &&& 0x00FC0000 ≠ 0 ∧
    (field (0x0A03FFFF : Word) 24 8, (0x00FC0000 : Word)) ∈ opcodeMasks ∧ (0x0A03FFFF : Word) &&& 0x00FC0000 = 0 := by
  have absent (x : Nat) (hx : x ∉ opcodeMasks.map Prod.fst) : ∀ m, (x, m) ∉ opcodeMasks :=
    fun _ h => hx (List.mem_map_of_mem (f := Prod.fst) h)
  exact ⟨rfl, absent _ (by decide), absent _ (by decide), by decide, by decide, by decide, by decide⟩

/-! ### Witnesses: the step and fatal errors -/

/-- IL with its transition issued: the first wait. -/
def waiting : State := { er with phase := .wOscinit, mode := .noMode, mcgS := 0x10 }

/-- A fatal state. -/
def dead : State := il.raise .noOscToken

theorem witness_StepRunsTheDecodedCommand : decode 0x01000000 = .ok .oscAcquire ∧
    (State.reset.withFetchWord 32 0x01000000).schedule = [.host] ∧
    (State.reset.withFetchWord 32 0x01000000).program = [.write State.reset.params.ctrlBase 4 0x01000000] ∧
    decodeTableWord 32 0x01000000 = some .oscAcquire := ⟨by decide, rfl, rfl, by decide⟩

theorem witness_CommandWhileBusyIsFatal : waiting.phase.isWait = true ∧
    ({ waiting with phase := .wClkstPll } : State).phase.isWait = true ∧ State.reset.phase.isWait = false ∧
    State.reset.fatalCode ≠ some .cmdWhileBusy ∧ dead.phase.isWait = false ∧ dead.fatalCode ≠ some .cmdWhileBusy := by
  decide

theorem witness_CommandsInFatalAreIgnored : dead.phase = .fatal ∧
    regionAt State.reset.params 0x50000008 ≠ some .status ∧ regionAt State.reset.params 0x50000003 ≠ some .status := by
  decide

theorem witness_FatalEntryWritesNothingElse :
    ∃ t, exec (.oscEnable 31) osc = .next t ∧ osc.phase ≠ .fatal ∧ t.phase = .fatal := ⟨_, rfl, by decide, rfl⟩

theorem witness_FatalIsLeftOnlyByReset : dead.phase = .fatal ∧ step dead = .next dead ∧
    (∀ src rest, dead.schedule ≠ .reset src :: rest) ∧
    ({ dead with schedule := [.reset .system] } : State).schedule = .reset .system :: [] :=
  ⟨rfl, rfl, by simp [dead, il, oscOn, osc, State.raise, State.reset, State.ofParams], rfl⟩

theorem witness_OnlyCommandWritesRaiseFatal : Turn.block ≠ .host ∧ waiting.phase ≠ .fatal ∧
    waiting.take .block = .next waiting ∧
    ∃ t, State.reset.access (.write State.reset.params.ctrlBase 4 0x00000000) = .next t ∧ t.phase = .fatal :=
  ⟨by decide, by decide, rfl, _, rfl, rfl⟩

/-! ### Witnesses: the singletons and the oscillator -/

theorem witness_OscAcquireSetsItsFlag : State.reset.phase = .idle ∧ State.reset.oscHeld = false ∧ osc.phase = .idle ∧
    osc.oscHeld = true := by decide

theorem witness_OscReleaseClearsItsFlag : State.reset.phase = .idle ∧ State.reset.oscHeld = false ∧ osc.phase = .idle ∧
    osc.oscHeld = true := by decide

theorem witness_McgAcquireTakesTheClassifiedMode : State.reset.phase = .idle ∧ State.reset.mcgHeld = false ∧
    classify State.reset.mcgS ≠ .noMode ∧ il.phase = .idle ∧ il.mcgHeld = true ∧
    classify ({ State.reset with mcgS := 0x00 } : State).mcgS = .noMode ∧ Params.recommended.rstS = 0x10 := by decide

theorem witness_McgReleaseEndsTheMode : State.reset.phase = .idle ∧ State.reset.mcgHeld = false ∧ il.phase = .idle ∧
    il.mcgHeld = true ∧ waiting.phase.isWait = true ∧ Params.recommended.rstS = 0x10 := by decide

theorem witness_SimAcquireSetsItsFlag : State.reset.phase = .idle ∧ State.reset.simHeld = false ∧ sim.phase = .idle ∧
    sim.simHeld = true := by decide

theorem witness_SimReleaseKeepsGatesAndPorts : State.reset.phase = .idle ∧ State.reset.simHeld = false ∧
    sim.phase = .idle ∧ sim.simHeld = true ∧ ({ gate with simHeld := false } : State).ownerOf ⟨.scgc4, 10⟩ = .host ∧
    ({ portB with simHeld := false } : State).portHeld .b = true ∧
    ∀ i, ({ portB with simHeld := false } : State).capOf ⟨.b, i⟩ = .free := by decide

theorem witness_SingletonFlagsChangeOnlyByTheirCommands :
    (∃ t, exec .oscAcquire State.reset = .next t ∧ t.oscHeld ≠ State.reset.oscHeld) ∧
    (∃ t, exec .mcgRelease il = .next t ∧ t.mcgHeld ≠ il.mcgHeld) ∧
    (∃ t, exec .simAcquire State.reset = .next t ∧ t.simHeld ≠ State.reset.simHeld) ∧
    waiting.take .block = .next waiting :=
  ⟨⟨_, rfl, by decide⟩, ⟨_, rfl, by decide⟩, ⟨_, rfl, by decide⟩, rfl⟩

/-- Capacitances 0, 30, 31 and 32 (R131). -/
theorem witness_OscEnableWritesTheControlByte : osc.phase = .idle ∧ osc.oscHeld = true ∧ State.reset.oscHeld = false ∧
    readOf State.oscCr (exec (.oscEnable 0) osc) = some 0x80 ∧ readOf State.oscCr (exec (.oscEnable 30) osc) = some 0x8F ∧
    codeOf (exec (.oscEnable 31) osc) = 0x11 ∧ codeOf (exec (.oscEnable 32) osc) = 0x11 := by decide

theorem witness_OnlyOscEnableMakesTheToken :
    (∃ t, exec (.oscEnable 10) osc = .next t ∧ t.oscCr ≠ osc.oscCr ∧ osc.oscToken = false ∧ t.oscToken = true) ∧
    (∃ t, exec (.mcgEnableExtRef 2 512) il = .next t ∧ il.oscToken = true ∧ t.oscToken = false) ∧
    (∃ t, exec .oscRelease oscOn = .next t) ∧ waiting.take .block = .next waiting :=
  ⟨⟨_, rfl, by decide, rfl, rfl⟩, ⟨_, rfl, rfl, rfl⟩, ⟨_, rfl⟩, rfl⟩

/-! ### Witnesses: the clock generator -/

/-- Ranges 0, 2 and 3, the first and the last divisor of a table, and a divisor of the other table (R102, R105). -/
theorem witness_ExtRefWritesItsFieldsAndWaits : il.phase = .idle ∧ il.mcgHeld = true ∧ il.mode = .internalLocked ∧
    il.oscToken = true ∧ il.mcgC1 = 0x04 ∧ il.mcgC2 = 0x80 ∧
    readOf State.mcgC1 (exec (.mcgEnableExtRef 0 1) il) = some 0x80 ∧
    readOf State.mcgC1 (exec (.mcgEnableExtRef 2 1536) il) = some 0xB8 ∧
    codeOf (exec (.mcgEnableExtRef 3 512) il) = 0x12 ∧ codeOf (exec (.mcgEnableExtRef 2 128) il) = 0x00 ∧
    codeOf (exec (.mcgEnableExtRef 1 1) il) = 0x13 := by decide

theorem witness_ExtRefWritesItsFieldsAndWaits_errors : State.reset.phase = .idle ∧ State.reset.mcgHeld = false ∧
    er.phase = .idle ∧ er.mcgHeld = true ∧ er.mode ≠ .internalLocked ∧
    ({ il with oscToken := false } : State).mode = .internalLocked := by decide

/-- Numerators 23, 24, 55 and 56, denominators 0, 1, 25 and 26 (R109). -/
theorem witness_PllWritesItsFieldsAndWaits : er.phase = .idle ∧ er.mcgHeld = true ∧ er.mode = .externalReference ∧
    er.mcgC5 = 0x00 ∧ er.mcgC6 = 0x00 ∧ State.reset.mcgHeld = false ∧ il.mode ≠ .externalReference ∧
    [(23, 6), (24, 1), (55, 25), (56, 6), (27, 0), (27, 26)].map (fun x => codeOf (exec (.mcgEnablePll x.1 x.2) er))
      = [0x14, 0x00, 0x00, 0x14, 0x15, 0x15] := by decide

theorem witness_SelectPllSwitchesTheSourceAndWaits : pl.phase = .idle ∧ pl.mcgHeld = true ∧ pl.mode = .phaseLocked ∧
    pl.mcgC1 = 0xA0 ∧ er.mcgHeld = true ∧ er.mode ≠ .phaseLocked ∧ State.reset.mcgHeld = false := by decide

theorem witness_ExtRefWaitsInOrder : waiting.phase = .wOscinit ∧ (0x12 : Byte).getLsbD 1 = true ∧
    (0x10 : Byte).getLsbD 1 = false ∧ (0x02 : Byte).getLsbD 4 = false ∧ (0x12 : Byte).getLsbD 4 = true ∧
    field (0x08 : Byte) 2 2 = 2 ∧ field (0x12 : Byte) 2 2 ≠ 2 := by decide

theorem witness_PllWaitsInOrder : ({ pl with phase := .wPllst, mode := .noMode } : State).phase = .wPllst ∧
    (0x20 : Byte).getLsbD 5 = true ∧ (0x0A : Byte).getLsbD 5 = false ∧ (0x6A : Byte).getLsbD 6 = true ∧
    (0x2A : Byte).getLsbD 6 = false ∧ field (0x6E : Byte) 2 2 = 3 ∧ field (0x6A : Byte) 2 2 ≠ 3 := by decide

theorem witness_ModeGraphIsOneWay :
    (∃ t, step { er with phase := .wClkstExt, mode := .noMode, schedule := [.block] } = .next t ∧
      t.mode = .externalReference) ∧
    (∃ t, step { pl with phase := .wLock, mode := .noMode, schedule := [.block] } = .next t ∧ t.mode = .phaseLocked) ∧
    (∃ t, step (State.reset.withFetchWord 32 0x08000000) = .next t ∧ t.mode = .internalLocked) ∧
    (∃ t, step (il.withFetchWord 32 0x0A020200) = .next t ∧ t.phase = .wOscinit) ∧
    (∃ t, step (er.withFetchWord 32 0x0B001B06) = .next t ∧ t.phase = .wPllst) ∧
    (∃ t, step (pl.withFetchWord 32 0x0C000000) = .next t ∧ t.phase = .wClkstPll) :=
  ⟨⟨_, rfl, rfl⟩, ⟨_, rfl, rfl⟩, ⟨_, rfl, by decide⟩, ⟨_, rfl, rfl⟩, ⟨_, rfl, rfl⟩, ⟨_, rfl, rfl⟩⟩

theorem witness_OnlyConfirmationLiftsAWait : waiting.phase.isWait = true ∧ waiting.phase.awaited waiting.mcgS = false ∧
    waiting.take .block = .next waiting ∧ waiting.take .host = .next waiting := ⟨rfl, by decide, rfl, rfl⟩

theorem witness_ConfirmedTransitionsComplete : waiting.params.env = .free ∧ waiting.phase = .wOscinit ∧
    (0x12 : Byte).getLsbD 1 = true ∧ (0x02 : Byte).getLsbD 4 = false ∧ field (0x08 : Byte) 2 2 = 2 ∧
    (0x20 : Byte).getLsbD 5 = true ∧ (0x40 : Byte).getLsbD 6 = true := by decide

theorem witness_UnconfirmedWaitHangs : waiting.params.env = .free ∧ waiting.schedule = [] ∧
    waiting.phase.isWait = true ∧ waiting.phase.awaited waiting.mcgS = false := by decide

/-- A fair run: the phase lock is already confirmed, so BLOCK's next step ends the wait. -/
def locking : State :=
  { pl with phase := .wLock, mode := .noMode, params := { Params.recommended with envFair := true } }

theorem witness_FairRunsLeaveEveryWait : locking.params.envFair = true ∧ fair locking ∧ after 0 locking = some locking ∧
    locking.phase.isWait = true := by
  have first : step locking = .next { locking with phase := .idle, mode := .phaseLocked } := rfl
  have rest : ∀ n, after n { locking with phase := .idle, mode := .phaseLocked }
      = some { locking with phase := .idle, mode := .phaseLocked } := by
    intro n
    induction n with
    | zero => rfl
    | succ n ih => exact ih
  refine ⟨rfl, fun _ n t ht hw => ?_, rfl, rfl⟩
  cases n with
  | zero =>
    obtain rfl : locking = t := by simpa [after] using ht
    exact .inr ⟨1, { locking with phase := .idle, mode := .phaseLocked }, by simp only [after, first],
      .inl (show Phase.idle ≠ Phase.wLock by decide)⟩
  | succ n =>
    rw [after, first] at ht
    simp only [rest, Option.some.injEq] at ht
    subst ht
    exact absurd hw (show ¬ Phase.idle.isWait = true by decide)

theorem witness_EnvDrivesOnlyTheStatus : State.reset.params.env = .free ∧
    ({ State.reset with params := { Params.recommended with env := .reference } } : State).params.env = .reference ∧
    ∃ t, State.reset.take (.env 0x12) = .next t ∧ t.mcgS ≠ State.reset.mcgS := ⟨rfl, rfl, _, rfl, by decide⟩

/-! ### Witnesses: gates and dividers -/

/-- Registers 3, 4, 7 and 8, bits 31 and 32 (R140). -/
theorem witness_GateAcquireSetsOneBit : sim.phase = .idle ∧ sim.simHeld = true ∧ State.reset.simHeld = false ∧
    sim.gateBit ⟨.scgc4, 10⟩ = false ∧ sim.gateBit ⟨.scgc4, 4⟩ = true ∧ sim.scgcOf .scgc4 = 0xF0100030 ∧
    [(3, 0), (4, 0), (7, 31), (8, 0), (4, 32)].map (fun x => codeOf (exec (.gateAcquire x.1 x.2) sim))
      = [0x19, 0x00, 0x00, 0x19, 0x1A] := by decide

theorem witness_GateReleaseClearsOneBit : gate.phase = .idle ∧ gate.ownerOf ⟨.scgc4, 10⟩ = .host ∧
    gate.ownerOf ⟨.scgc4, 4⟩ ≠ .host ∧ gate.scgcOf .scgc4 = 0xF0100430 ∧
    [(3, 4), (8, 0), (4, 32), (7, 31)].map (fun x => codeOf (exec (.gateRelease x.1 x.2) gate))
      = [0x19, 0x19, 0x1A, 0x41] := by decide

/-- Ratios 0, 1, 16 and 17 in each field (R144, R146). -/
theorem witness_SetDividersWritesThreeFields : sim.phase = .idle ∧ sim.simHeld = true ∧ State.reset.simHeld = false ∧
    sim.clkdiv1 = 0x00010000 ∧
    [(0, 1, 1), (17, 1, 1), (1, 0, 1), (1, 17, 1), (1, 1, 0), (1, 1, 17), (1, 1, 1), (16, 16, 16)].map
        (fun x => codeOf (exec (.simSetDividers x.1 x.2.1 x.2.2) sim))
      = [0x16, 0x16, 0x17, 0x17, 0x18, 0x18, 0x00, 0x00] := by decide

theorem paramsOk_recommended : paramsOk Params.recommended = true := by decide

theorem witness_GateAliasShowsTheGateBit : paramsOk sim.params = true ∧ sim.phase = .idle ∧ sim.simHeld = true ∧
    sim.gateBit ⟨.scgc7, 31⟩ = false ∧ sim.gateBit ⟨.scgc4, 10⟩ = false ∧ paramsOk gate.params = true ∧
    gate.phase = .idle ∧ gate.ownerOf ⟨.scgc4, 10⟩ = .host :=
  ⟨paramsOk_recommended, rfl, rfl, by decide, by decide, paramsOk_recommended, rfl, by decide⟩

/-! ### Witnesses: ports and pins -/

/-- Ports 0, 1, 2 and 3 (R84, R151). -/
theorem witness_PortAcquireTakesThePortGate : sim.phase = .idle ∧ sim.simHeld = true ∧ State.reset.simHeld = false ∧
    sim.gateBit (sim.params.portGate .b) = false ∧ portB.gateBit (portB.params.portGate .b) = true ∧
    sim.params.portGateB = ⟨.scgc5, 10⟩ ∧ sim.scgcOf .scgc5 = 0x00040182 ∧
    [0, 1, 2, 3].map (fun p => codeOf (exec (.portAcquire p) sim)) = [0x1B, 0x00, 0x00, 0x1B] := by decide

theorem witness_PortReleaseUngatesAFreePort : portB.phase = .idle ∧ sim.portHeld .b = false ∧ portB.portHeld .b = true ∧
    (∀ i, portB.capOf ⟨.b, i⟩ = .free) ∧ (pinAt 31).portHeld .b = true ∧ (pinAt 31).capOf ⟨.b, 31⟩ ≠ .free ∧
    portB.params.portGateB = ⟨.scgc5, 10⟩ ∧ portB.scgcOf .scgc5 = 0x00040582 := by decide

/-- The checks of R149 (`ChecksPin`): ports 0 to 3, indexes 31 and 32. -/
theorem witness_ChecksPin : portB.phase = .idle ∧ portB.portHeld .b = true ∧
    portB.portHeld .c = false ∧ sim.portHeld .b = false ∧
    (sim.setGate ⟨.scgc5, 11⟩ true (.port .c)).portHeld .c = true ∧
    [(0, 32), (1, 31), (1, 32), (2, 0), (3, 32)].map (fun x => codeOf (exec (.pinAcquire x.1 x.2) portB))
      = [0x1B, 0x00, 0x1C, 0x41, 0x1B] := by decide

theorem witness_PinAcquireLocksThePin : portB.phase = .idle ∧ portB.portHeld .b = true ∧
    portB.capOf ⟨.b, 31⟩ = .free ∧ (pinAt 31).phase = .idle ∧ (pinAt 31).portHeld .b = true ∧
    (pinAt 31).capOf ⟨.b, 31⟩ ≠ .free := by decide

theorem witness_PinReleaseFreesThePin : portB.phase = .idle ∧ portB.portHeld .b = true ∧
    portB.capOf ⟨.b, 31⟩ = .free ∧ (pinAt 31).phase = .idle ∧ (pinAt 31).portHeld .b = true ∧
    (pinAt 31).capOf ⟨.b, 31⟩ ≠ .free := by decide

/-- The checks of R155 (`ChecksPlainPin`). -/
theorem witness_ChecksPlainPin : portB.phase = .idle ∧ portB.portHeld .b = true ∧
    portB.capOf ⟨.b, 16⟩ = .free ∧ (portB.setCap ⟨.b, 16⟩ .gpio).portHeld .b = true ∧
    (portB.setCap ⟨.b, 16⟩ .gpio).capOf ⟨.b, 16⟩ ≠ .free ∧ (portB.setCap ⟨.b, 16⟩ .gpio).capOf ⟨.b, 16⟩ ≠ .pin := by decide

/-- Port C held, its pin 5 a plain pin. -/
def pinC5 : State := (sim.setGate ⟨.scgc5, 11⟩ true (.port .c)).setCap ⟨.c, 5⟩ .pin

theorem witness_MakeGpioWritesMuxOne : (pinAt 3).phase = .idle ∧ (pinAt 3).portHeld .b = true ∧
    (pinAt 3).capOf ⟨.b, 3⟩ = .pin ∧ pinC5.phase = .idle ∧ pinC5.portHeld .c = true ∧ pinC5.capOf ⟨.c, 5⟩ = .pin ∧
    pinC5.pcrOf ⟨.c, 5⟩ = 0x00000000 := by decide

theorem witness_MakeRxNeedsTheWiredPin : (pinAt 16).phase = .idle ∧ (pinAt 16).portHeld .b = true ∧
    (pinAt 16).capOf ⟨.b, 16⟩ = .pin ∧ (⟨.b, 16⟩ : Pin) = (pinAt 16).params.rxPin0 ∧
    (⟨.b, 17⟩ : Pin) ≠ (pinAt 17).params.rxPin0 ∧ (pinAt 17).capOf ⟨.b, 17⟩ = .pin := by decide

theorem witness_MakeTxNeedsTheWiredPin : (pinAt 17).phase = .idle ∧ (pinAt 17).portHeld .b = true ∧
    (pinAt 17).capOf ⟨.b, 17⟩ = .pin ∧ (⟨.b, 17⟩ : Pin) = (pinAt 17).params.txPin0 ∧
    (⟨.b, 16⟩ : Pin) ≠ (pinAt 16).params.txPin0 ∧ (pinAt 16).capOf ⟨.b, 16⟩ = .pin := by decide

/-! ### Witnesses: ownership -/

theorem witness_SingletonsAreExclusive :
    (∃ t, exec .oscAcquire State.reset = .next t ∧ t.phase = .idle) ∧
    (∃ t, exec .mcgAcquire State.reset = .next t ∧ t.phase = .idle) ∧
    (∃ t, exec .simAcquire State.reset = .next t ∧ t.phase = .idle) :=
  ⟨⟨_, rfl, rfl⟩, ⟨_, rfl, rfl⟩, ⟨_, rfl, rfl⟩⟩

theorem ownerOf_pinAt (g : Gate) : (pinAt 3).ownerOf g = if g = ⟨.scgc5, 10⟩ then .port .b else .nobody := by
  rw [pinAt, State.ownerOf_setCap, portB, State.ownerOf_setGate]
  simp [sim, State.ownerOf, State.reset, State.ofParams]

theorem capOf_pinAt (q : Pin) : (pinAt 3).capOf q = if q = ⟨.b, 3⟩ then .pin else .free := by
  rw [pinAt, State.capOf_setCap]
  simp [portB, sim, State.capOf, State.reset, State.ofParams]

/-- The ownership invariant holds with Port B held and its pin 3 acquired. -/
theorem ownershipInv_pinAt : OwnershipInv (pinAt 3) where
  mode_held h := absurd rfl h
  wait_consumed h := absurd h (by decide)
  wait_select h := absurd h (by decide)
  owned_set g h := by
    have hg : g = ⟨.scgc5, 10⟩ := by
      by_contra hn
      simp [ownerOf_pinAt, hn] at h
    subst hg
    decide
  cap_port q h := by
    have hq : q = ⟨.b, 3⟩ := by
      by_contra hn
      simp [State.locked, capOf_pinAt, hn] at h
    subst hq
    decide
  code_fatal := ⟨fun h => absurd h (by decide), fun h => absurd rfl h⟩

/-- The premise of the last clause of `PortAcquireTakesThePortGate`: the invariant in a state where Port C can be acquired. -/
theorem witness_PortAcquireTakesThePortGate_inv : OwnershipInv (pinAt 3) ∧ (pinAt 3).phase = .idle ∧
    (pinAt 3).simHeld = true ∧ (pinAt 3).gateBit ((pinAt 3).params.portGate .c) = false :=
  ⟨ownershipInv_pinAt, rfl, rfl, by decide⟩

theorem witness_GatesPortsAndPinsAreExclusive :
    (∃ t, exec (.gateAcquire 4 10) sim = .next t ∧ t.phase = .idle) ∧ OwnershipInv (pinAt 3) ∧
    (∃ t, exec (.portAcquire 2) (pinAt 3) = .next t ∧ t.phase = .idle) ∧
    (∃ t, exec (.pinAcquire 1 31) portB = .next t ∧ t.phase = .idle) :=
  ⟨⟨_, rfl, rfl⟩, ownershipInv_pinAt, ⟨_, rfl, rfl⟩, ⟨_, rfl, rfl⟩⟩

theorem witness_StepKeepsOwnershipInv : OwnershipInv (pinAt 3) ∧ step (pinAt 3) = .next (pinAt 3) :=
  ⟨ownershipInv_pinAt, rfl⟩

theorem witness_StepKeepsUnwrittenBits : UnwrittenBitsInv (pinAt 3) ∧ step (pinAt 3) = .next (pinAt 3) := by
  refine ⟨⟨rfl, rfl, rfl, rfl, .inl rfl, rfl, fun q => ?_, fun g h => ?_, fun g h => ?_⟩, rfl⟩
  · simp [pinAt, portB, sim, State.pcrOf, State.reset, State.ofParams]
  · have hn : g ≠ ⟨.scgc5, 10⟩ := by
      rintro rfl
      exact absurd h (by decide)
    obtain ⟨r, b⟩ := g
    cases r <;> simp [pinAt, portB, hn, sim] <;> rfl
  · have hg : g = ⟨.scgc5, 10⟩ := by
      by_contra hn
      simp [ownerOf_pinAt, hn] at h
    subst hg
    decide

/-! ### Witnesses: the bus, the frames, the order -/

theorem witness_EveryRegisterReadsAtItsAddress : paramsOk State.reset.params = true ∧
    State.reset.gateOpen (.gateWord ⟨.scgc7, 31⟩) = true ∧ State.reset.gateOpen (.pcr ⟨.b, 31⟩) = false ∧
    portB.gateOpen (.pcr ⟨.b, 31⟩) = true ∧ paramsOk portB.params = true ∧
    (∃ v, State.reset.memRead 0x40064006 1 = .ok v) ∧ State.reset.memRead 0x4004B07C 4 = .error .accessGated ∧
    State.reset.memRead 0x42900880 4 = .error .accessRefused :=
  ⟨paramsOk_recommended, rfl, by decide, by decide, paramsOk_recommended, ⟨_, rfl⟩, by decide, by decide⟩

/-- The unmapped 0x40064002, the wrong width at 0x40064004, and registers that take no write (section 2.7). -/
theorem witness_OtherAccessesAreRefused :
    (∀ r : Region, (0x40064002 : Word).toNat = r.addr Params.recommended → 1 ≠ r.bytes) ∧
    (∀ r : Region, (0x40064004 : Word).toNat = r.addr Params.recommended → 4 ≠ r.bytes) ∧
    paramsOk State.reset.params = true ∧ Region.mcgC1 ≠ .cmd ∧ Region.mcgC1 ≠ .status ∧ Region.mcgC1 ≠ .locks .b ∧
    Region.mcgC1 ≠ .locks .c := by
  have base : Params.recommended.ctrlBase.toNat = 0x50000000 := rfl
  refine ⟨fun r (h : 0x40064002 = r.addr Params.recommended) => ?_,
      fun r (h : 0x40064004 = r.addr Params.recommended) => ?_, paramsOk_recommended, by decide, by decide, by decide,
      by decide⟩ <;>
    rcases r with _ | _ | (_ | _) | _ | _ | _ | _ | _ | _ | (_ | _ | _ | _) | _ | ⟨_ | _ | _ | _, b⟩ | ⟨_ | _, i⟩ <;>
    simp only [Region.addr, Region.bytes, gateAddr, gateRegNumber, pcrBase, base] at h ⊢ <;> omega

theorem witness_ReadsChangeNothing : ∃ t, State.reset.access (.read 0x40064006 1) = .next t := ⟨_, rfl⟩

theorem witness_CommandsWriteOnlyTheirRegisters :
    (∃ t, exec (.gateAcquire 4 10) sim = .next t) ∧
    (∀ r, regionAt sim.params 0x40048038 = some r →
      r ≠ .status ∧ r ∉ writtenRegions sim.params (.gateAcquire 4 10)) ∧
    (∃ t, exec (.oscEnable 10) osc = .next t) ∧
    (∀ r, regionAt osc.params 0x40064006 = some r → r ≠ .status ∧ r ∉ writtenRegions osc.params (.oscEnable 10)) := by
  have h1 : regionAt sim.params 0x40048038 = some (.scgc .scgc5) := by decide
  have h2 : regionAt osc.params 0x40064006 = some .mcgS := by decide
  refine ⟨⟨_, rfl⟩, fun r h => ?_, ⟨_, rfl⟩, fun r h => ?_⟩
  · rw [h1] at h
    cases h
    decide
  · rw [h2] at h
    cases h
    decide

theorem witness_CommandsKeepTheOtherState :
    (∃ t, exec .mcgAcquire State.reset = .next t ∧ t.mode ≠ State.reset.mode) ∧
    (∃ t, exec (.mcgEnableExtRef 2 512) il = .next t ∧ t.mcgC1 ≠ il.mcgC1 ∧ t.mcgC2 ≠ il.mcgC2) ∧
    (∃ t, exec (.mcgEnablePll 27 6) er = .next t ∧ t.mcgC5 ≠ er.mcgC5) ∧
    (∃ t, exec (.simSetDividers 1 2 3) sim = .next t ∧ t.clkdiv1 ≠ sim.clkdiv1) ∧
    (∃ t, exec (.gateAcquire 4 10) sim = .next t ∧ t.scgc ≠ sim.scgc) ∧
    (∃ t, exec (.pinMakeGpio 1 3) (pinAt 3) = .next t ∧ t.cap ≠ (pinAt 3).cap ∧ t.pcr ≠ (pinAt 3).pcr) :=
  ⟨⟨_, rfl, by decide⟩, ⟨_, rfl, by decide, by decide⟩, ⟨_, rfl, by decide⟩, ⟨_, rfl, by decide⟩, ⟨_, rfl, by decide⟩,
    ⟨_, rfl, by decide, by decide⟩⟩

/-- `P_ENV = REFERENCE` with the status not yet settled. -/
def unsettled : State := { State.reset with params := { Params.recommended with env := .reference }, mcgS := 0x00 }

/-- The first wait under `P_ENV = REFERENCE`. -/
def settling : State := { waiting with params := { Params.recommended with env := .reference } }

theorem witness_ReferenceCompletesTheExternalReference : settling.params.env = .reference ∧ settling.schedule = [] ∧
    settling.phase = .wOscinit ∧ field settling.mcgC2 2 1 = 1 ∧ field settling.mcgC1 2 1 = 0 ∧
    field settling.mcgC1 6 2 = 2 := by decide

theorem witness_BlockingHostNeverInterruptsAWait : waiting.schedule = [] ∧ waiting.fatalCode ≠ some .cmdWhileBusy ∧
    step waiting = .next waiting ∧ waiting.phase.isWait = true := ⟨rfl, by decide, rfl, rfl⟩

theorem witness_DefaultOrderIsBlockEnvHost : locking.schedule = [] ∧ locking.blockEnabled = true ∧
    unsettled.schedule = [] ∧ unsettled.blockEnabled = false ∧ unsettled.params.env = .reference ∧
    unsettled.mcgS ≠ unsettled.settle ∧ State.reset.blockEnabled = false ∧ State.reset.params.env = .free ∧
    State.reset.busy = false ∧ waiting.blockEnabled = false ∧ waiting.params.env = .free ∧ waiting.busy = true := by
  decide

end Sys2Proof.Tests
end

section
/-!
PROOFS. The statements of 00_scope.md: a blocking HOST never interrupts a wait, only a confirmed condition lifts a wait, and
the frames of a command over the address space and over the rest of the state.
-/

/-! ### What a command changes, field by field -/

namespace Sys2Proof.Laws

open Sys2Proof.Machine

section
variable {i : Instr} {s t : State}

/-- A component that raising an error and performing the command both keep is kept by every answer of the command. -/
theorem exec_keeps {α : Type} (f : State → α) (hr : ∀ c, f (s.raise c) = f s) (hp : Performed i s t → f t = f s)
    (h : exec i s = .next t) : f t = f s := by
  rcases exec_next h with ⟨_, rfl⟩ | ⟨_, c, rfl⟩ | ⟨_, hd⟩
  · rfl
  · exact hr c
  · exact hp hd

/-- A component that raising an error keeps changes only where the command is performed. -/
theorem performed_of_changed {α : Type} (f : State → α) (hr : ∀ c, f (s.raise c) = f s) (h : exec i s = .next t)
    (hne : f t ≠ f s) : Performed i s t := by
  rcases exec_next h with ⟨_, rfl⟩ | ⟨_, c, rfl⟩ | ⟨_, hd⟩
  · exact absurd rfl hne
  · exact absurd (hr c) hne
  · exact hd

namespace Performed

theorem fatalCode_eq (h : Performed i s t) : t.fatalCode = s.fatalCode := by cases h <;> rfl

theorem params_eq (h : Performed i s t) : t.params = s.params := by cases h <;> rfl

theorem mcgS_eq (h : Performed i s t) : t.mcgS = s.mcgS := by cases h <;> rfl

theorem readData_eq (h : Performed i s t) : t.readData = s.readData := by cases h <;> rfl

theorem program_eq (h : Performed i s t) : t.program = s.program := by cases h <;> rfl

theorem schedule_eq (h : Performed i s t) : t.schedule = s.schedule := by cases h <;> rfl

theorem mode_writers (h : Performed i s t) (hne : t.mode ≠ s.mode) :
    i = .mcgAcquire ∨ i = .mcgRelease ∨ (∃ r d, i = .mcgEnableExtRef r d) ∨ ∃ n d, i = .mcgEnablePll n d := by
  cases h with
  | mcgAcquire => exact .inl rfl
  | mcgRelease => exact .inr (.inl rfl)
  | mcgEnableExtRef => exact .inr (.inr (.inl ⟨_, _, rfl⟩))
  | mcgEnablePll => exact .inr (.inr (.inr ⟨_, _, rfl⟩))
  | _ => exact absurd rfl hne

theorem mcgC1_writers (h : Performed i s t) (hne : t.mcgC1 ≠ s.mcgC1) :
    (∃ r d, i = .mcgEnableExtRef r d) ∨ i = .mcgSelectPll := by
  cases h with
  | mcgEnableExtRef => exact .inl ⟨_, _, rfl⟩
  | mcgSelectPll => exact .inr rfl
  | _ => exact absurd rfl hne

theorem mcgC2_writers (h : Performed i s t) (hne : t.mcgC2 ≠ s.mcgC2) : ∃ r d, i = .mcgEnableExtRef r d := by
  cases h with
  | mcgEnableExtRef => exact ⟨_, _, rfl⟩
  | _ => exact absurd rfl hne

theorem mcgC5_mcgC6_writers (h : Performed i s t) (hne : t.mcgC5 ≠ s.mcgC5 ∨ t.mcgC6 ≠ s.mcgC6) :
    ∃ n d, i = .mcgEnablePll n d := by
  cases h with
  | mcgEnablePll => exact ⟨_, _, rfl⟩
  | _ => exact absurd ⟨rfl, rfl⟩ (not_and_or.mpr hne)

theorem clkdiv1_writers (h : Performed i s t) (hne : t.clkdiv1 ≠ s.clkdiv1) : ∃ c b f, i = .simSetDividers c b f := by
  cases h with
  | simSetDividers => exact ⟨_, _, _, rfl⟩
  | _ => exact absurd rfl hne

theorem gate_writers (h : Performed i s t) (hne : t.scgc ≠ s.scgc ∨ t.gateOwner ≠ s.gateOwner) :
    (∃ r b, i = .gateAcquire r b ∨ i = .gateRelease r b) ∨ ∃ p, i = .portAcquire p ∨ i = .portRelease p := by
  cases h with
  | gateAcquire => exact .inl ⟨_, _, .inl rfl⟩
  | gateRelease => exact .inl ⟨_, _, .inr rfl⟩
  | portAcquire => exact .inr ⟨_, .inl rfl⟩
  | portRelease => exact .inr ⟨_, .inr rfl⟩
  | _ => exact absurd ⟨rfl, rfl⟩ (not_and_or.mpr hne)

theorem pcr_writers (h : Performed i s t) (hne : t.pcr ≠ s.pcr) :
    ∃ u p j, i = .pinMakeGpio p j ∨ i = .pinMakeRx u p j ∨ i = .pinMakeTx u p j := by
  cases h with
  | pinMakeGpio => exact ⟨0, _, _, .inl rfl⟩
  | pinMakeRx => exact ⟨_, _, _, .inr (.inl rfl)⟩
  | pinMakeTx => exact ⟨_, _, _, .inr (.inr rfl)⟩
  | _ => exact absurd rfl hne

theorem cap_writers (h : Performed i s t) (hne : t.cap ≠ s.cap) :
    ∃ u p j, i = .pinAcquire p j ∨ i = .pinRelease p j ∨ i = .pinMakeGpio p j ∨ i = .pinMakeRx u p j ∨
      i = .pinMakeTx u p j := by
  cases h with
  | pinAcquire => exact ⟨0, _, _, .inl rfl⟩
  | pinRelease => exact ⟨0, _, _, .inr (.inl rfl)⟩
  | pinMakeGpio => exact ⟨0, _, _, .inr (.inr (.inl rfl))⟩
  | pinMakeRx => exact ⟨_, _, _, .inr (.inr (.inr (.inl rfl)))⟩
  | pinMakeTx => exact ⟨_, _, _, .inr (.inr (.inr (.inr rfl)))⟩
  | _ => exact absurd rfl hne

end Performed
end

end Sys2Proof.Laws

/-! ### What an update changes in the address map -/

namespace Sys2Proof.Machine

open Sys2Proof.Safety

/-- The phase, the code, the singletons, the token and the mode show in the map through STATUS only (R37). -/
theorem State.regionValue_blockState (s : State) {r : Region} (hr : r ≠ .status) (ph : Phase) (code : Option FatalCode)
    (osc mcg sim token : Bool) (m : Mode) :
    ({ s with phase := ph, fatalCode := code, oscHeld := osc, mcgHeld := mcg, simHeld := sim, oscToken := token,
              mode := m } : State).regionValue r = s.regionValue r := by
  cases r with
  | status => exact absurd rfl hr
  | _ => rfl

theorem State.regionValue_raise (s : State) {r : Region} (hr : r ≠ .status) (c : FatalCode) :
    (s.raise c).regionValue r = s.regionValue r :=
  s.regionValue_blockState hr ..

theorem State.regionValue_setGate (s : State) {r : Region} {g : Gate} (hr : r ≠ .status) (hg : r ∉ gateRegions g)
    (on : Bool) (o : Owner) : (s.setGate g on o).regionValue r = s.regionValue r := by
  simp only [gateRegions, List.mem_cons, List.not_mem_nil, or_false, not_or] at hg
  obtain ⟨hreg, hword⟩ := hg
  cases r with
  | status => exact absurd rfl hr
  | scgc n => exact (s.scgcOf_setGate g n on o).trans (if_neg fun h => hreg (congrArg _ h))
  | gateWord k =>
    have hk : k ≠ g := fun h => hword (congrArg _ h)
    simp [State.regionValue, hk]
  | _ => rfl

/-- A lock word is determined by the locks of its port. -/
theorem State.locks_congr {s t : State} {p : Port} (h : ∀ j, t.locked ⟨p, j⟩ = s.locked ⟨p, j⟩) :
    t.locks p = s.locks p := by
  simp only [State.locks, h]

theorem State.regionValue_setCap (s : State) {r : Region} {q : Pin} (hr : r ≠ .locks q.port) (c : Cap) :
    (s.setCap q c).regionValue r = s.regionValue r := by
  cases r with
  | locks p =>
    refine State.locks_congr fun j => ?_
    have hq : (⟨p, j⟩ : Pin) ≠ q := fun h => hr (by rw [← h])
    simp [hq]
  | _ => rfl

/-- Converting a locked pin keeps its lock, so only its pin-control register changes. -/
theorem State.regionValue_convert (s : State) {r : Region} {q : Pin} (hl : s.locked q = true) (hr : r ≠ .pcr q) (m : Nat)
    {c : Cap} (hc : c ≠ .free) : (s.convert q m c).regionValue r = s.regionValue r := by
  cases r with
  | locks p =>
    refine State.locks_congr fun j => ?_
    by_cases hq : (⟨p, j⟩ : Pin) = q <;> simp [hq, hl, hc]
  | pcr k => exact (s.pcrOf_convert q k m c).trans (if_neg fun h => hr (congrArg _ h))
  | _ => rfl

theorem State.locked_of_capOf_pin {s : State} {q : Pin} (h : s.capOf q = .pin) : s.locked q = true := by
  simp [State.locked, h]

/-- A byte reads as before when the value of the register it lies in is as before. -/
theorem State.byteAt_congr {s t : State} {a : Word} (hp : t.params = s.params)
    (h : ∀ r, regionAt s.params a = some r → t.regionValue r = s.regionValue r) : t.byteAt a = s.byteAt a := by
  unfold State.byteAt
  rw [hp]
  exact Option.map_congr fun r hr => by rw [h r hr]

/-! ### The regions a performed command may write -/

@[simp] theorem gateOperandRegions_gate (g : Gate) : gateOperandRegions (gateRegNumber g.reg) g.bit = gateRegions g := by
  have hn : gateRegOf (gateRegNumber g.reg) = some g.reg := gateRegOf_eq_some.mpr rfl
  have hb : below32 g.bit = some g.bit := below32_eq_some.mpr rfl
  simp only [gateOperandRegions, hn, hb]

@[simp] theorem portOperandRegions_port (p : Params) (q : Port) :
    portOperandRegions p (portNumber q) = gateRegions (p.portGate q) := by
  have hq : portOf (portNumber q) = some q := portOf_eq_some.mpr rfl
  simp only [portOperandRegions, hq]

@[simp] theorem lockRegions_port (p : Port) : lockRegions (portNumber p) = [.locks p] := by
  have hp : portOf (portNumber p) = some p := portOf_eq_some.mpr rfl
  simp only [lockRegions, hp]

@[simp] theorem pcrRegions_pin (q : Pin) : pcrRegions (portNumber q.port) q.idx = [.pcr q] := by
  have hp : portOf (portNumber q.port) = some q.port := portOf_eq_some.mpr rfl
  have hi : below32 q.idx = some q.idx := below32_eq_some.mpr rfl
  simp only [pcrRegions, pinOperand, hp, hi]

end Sys2Proof.Machine

namespace Sys2Proof.Laws

open Sys2Proof.Machine Sys2Proof.Safety

/-- A performed command changes STATUS and the registers its rule writes, and no other. -/
theorem Performed.regionValue_eq {i : Instr} {s t : State} {r : Region} (h : Performed i s t) (hr : r ≠ .status)
    (hw : r ∉ writtenRegions s.params i) : t.regionValue r = s.regionValue r := by
  cases h with
  | oscEnable =>
    cases r with
    | status => exact absurd rfl hr
    | oscCr => simp [writtenRegions] at hw
    | _ => rfl
  | mcgEnableExtRef =>
    cases r with
    | status => exact absurd rfl hr
    | mcgC1 | mcgC2 => simp [writtenRegions] at hw
    | _ => rfl
  | mcgEnablePll =>
    cases r with
    | status => exact absurd rfl hr
    | mcgC5 | mcgC6 => simp [writtenRegions] at hw
    | _ => rfl
  | mcgSelectPll =>
    cases r with
    | status => exact absurd rfl hr
    | mcgC1 => simp [writtenRegions] at hw
    | _ => rfl
  | simSetDividers =>
    cases r with
    | status => exact absurd rfl hr
    | clkdiv1 => simp [writtenRegions] at hw
    | _ => rfl
  | gateAcquire | gateRelease | portAcquire | portRelease =>
    exact s.regionValue_setGate hr (by simpa [writtenRegions] using hw) ..
  | pinAcquire q | pinRelease q => exact s.regionValue_setCap (by simpa [writtenRegions] using hw) _
  | pinMakeGpio q _ hc | pinMakeRx _ q _ hc | pinMakeTx _ q _ hc =>
    exact s.regionValue_convert (State.locked_of_capOf_pin hc) (by simpa [writtenRegions] using hw) _ (by simp)
  | _ => exact s.regionValue_blockState hr ..

/-- A command's answer changes STATUS and the registers its rule writes, and no other. -/
theorem exec_regionValue {i : Instr} {s t : State} {r : Region} (h : exec i s = .next t) (hr : r ≠ .status)
    (hw : r ∉ writtenRegions s.params i) : t.regionValue r = s.regionValue r :=
  exec_keeps (·.regionValue r) (s.regionValue_raise hr) (·.regionValue_eq hr hw) h

/-! ### CMD_WHILE_BUSY is raised in a wait phase only -/

section
variable {s t : State} (hw : s.phase.isWait = false) (hc : s.fatalCode ≠ some .cmdWhileBusy)
include hw hc

theorem exec_fatalCode_ne_cmdWhileBusy {i : Instr} (h : exec i s = .next t) : t.fatalCode ≠ some .cmdWhileBusy := by
  obtain ⟨u, hu, hcases⟩ := exec_cases i s
  obtain rfl : u = t := by simpa [hu] using h
  rcases hcases with ⟨_, rfl⟩ | ⟨hwait, _⟩ | ⟨_, ⟨c, hne, rfl⟩ | hd⟩
  · exact hc
  · exact absurd hwait (by simp [hw])
  · simpa using hne
  · rwa [hd.fatalCode_eq]

theorem issueWord_fatalCode_ne_cmdWhileBusy {w : Word} (h : issueWord w s = .next t) :
    t.fatalCode ≠ some .cmdWhileBusy := by
  unfold issueWord at h
  split at h
  · exact exec_fatalCode_ne_cmdWhileBusy hw hc h
  · rename_i e _
    obtain rfl := Host.Outcome.next.inj h
    rcases s.issue_cases (s.raise (fatalOfDecode e)) with ⟨_, hq⟩ | ⟨_, hq⟩ | ⟨hwait, _⟩
    · rw [hq]
      cases e <;> simp [fatalOfDecode]
    · rwa [hq]
    · exact absurd hwait (by simp [hw])

theorem access_fatalCode_ne_cmdWhileBusy {a : Access} (h : s.access a = .next t) :
    t.fatalCode ≠ some .cmdWhileBusy := by
  cases a with
  | read a n =>
    simp only [State.access] at h
    split at h
    · cases h
      exact hc
    · cases h
  | write a n v =>
    simp only [State.access, State.memWrite] at h
    split at h
    · cases h
    · split at h
      · exact issueWord_fatalCode_ne_cmdWhileBusy hw hc h
      · cases h
        exact hc

theorem hostStep_fatalCode_ne_cmdWhileBusy (h : s.hostStep = .next t) : t.fatalCode ≠ some .cmdWhileBusy := by
  unfold State.hostStep at h
  split at h
  · cases h
    exact hc
  · exact access_fatalCode_ne_cmdWhileBusy (by exact hw) (by exact hc) h

end

/-! ### The turns, by agent -/

theorem advance_fatalCode (s : State) : s.advance.fatalCode = s.fatalCode := by
  unfold State.advance
  split <;> rfl

theorem advance_program (s : State) : s.advance.program = s.program := by
  unfold State.advance
  split <;> rfl

theorem poll_fatalCode (s : State) : s.poll.fatalCode = s.fatalCode := by
  rcases s.poll_cases with ⟨_, h⟩ | ⟨_, h⟩ <;> simp [h, advance_fatalCode]

theorem poll_program (s : State) : s.poll.program = s.program := by
  rcases s.poll_cases with ⟨_, h⟩ | ⟨_, h⟩ <;> simp [h, advance_program]

/-- With no turn listed, a step is BLOCK's poll, a write of `MCG_S` or a hold, or HOST's while the block is not busy. -/
theorem step_default_cases {s t : State} (hs : s.schedule = []) (h : step s = .next t) :
    t = s.poll ∨ (∃ v, t = { s with mcgS := v }) ∨ (s.phase.isWait = false ∧ s.hostStep = .next t) := by
  simp only [step, State.turn, hs, State.defaultTurn] at h
  split_ifs at h with hblock henv hhost
  · exact .inl (Host.Outcome.next.inj h).symm
  · obtain ⟨v, hv⟩ := s.envStep_eq s.settle
    exact .inr (.inl ⟨v, hv ▸ (Host.Outcome.next.inj h).symm⟩)
  · exact .inr (.inr ⟨hhost.2, h⟩)
  · exact .inr (.inl ⟨s.mcgS, (Host.Outcome.next.inj h).symm⟩)

/-- HOST's turn in a wait phase keeps the phase or enters FATAL: no command is performed. -/
theorem hostStep_phase_of_isWait {s t : State} (hw : s.phase.isWait = true) (h : s.hostStep = .next t) :
    t.phase = s.phase ∨ t.phase = .fatal := by
  unfold State.hostStep at h
  split at h
  · cases h
    exact .inl rfl
  · rcases access_cases h with ⟨v, rfl⟩ | ⟨_, c, rfl⟩ | ⟨i, hidle, _⟩
    · exact .inl rfl
    · exact .inr rfl
    · have hi : s.phase = .idle := hidle
      exact absurd hw (by simp [hi, Phase.isWait])

end Sys2Proof.Laws

/-! ### The statements -/

namespace Sys2Proof.Proofs

open Sys2Proof.Machine Sys2Proof.Laws

/-- Settles O7, by the agent that the deterministic order lets move: HOST's turn comes outside a wait phase only. -/
theorem blockingHostNeverInterruptsAWait : Obligations.BlockingHostNeverInterruptsAWait := by
  intro s t hs hc h
  rcases step_default_cases hs h with rfl | ⟨v, rfl⟩ | ⟨hw, hhost⟩
  · exact ⟨by rwa [poll_fatalCode], fun _ => poll_program s⟩
  · exact ⟨hc, fun _ => rfl⟩
  · exact ⟨hostStep_fatalCode_ne_cmdWhileBusy hw hc hhost, fun hwait => absurd hwait (by simp [hw])⟩

/-- Settles O29, by the agent whose turn it is. -/
theorem onlyConfirmationLiftsAWait : Obligations.OnlyConfirmationLiftsAWait := by
  intro s t u hw hunconfirmed h
  cases u with
  | host => exact (hostStep_phase_of_isWait hw h).imp_right fun hf => .inl ⟨rfl, hf⟩
  | block =>
    have hhold : s.poll = s := if_neg (by simp [State.blockEnabled, hunconfirmed])
    exact .inl (by rw [← Host.Outcome.next.inj h, hhold])
  | env drawn =>
    obtain ⟨v, hv⟩ := s.envStep_eq drawn
    exact .inl (by rw [← Host.Outcome.next.inj h, hv])
  | reset src => exact .inr (.inr ⟨src, rfl⟩)

/-- Settles O56: the byte's register keeps its value, whatever the command answers. -/
theorem commandsWriteOnlyTheirRegisters : Obligations.CommandsWriteOnlyTheirRegisters := by
  intro i s t h a ha
  refine State.byteAt_congr (exec_keeps State.params (fun _ => rfl) (·.params_eq) h) fun r hr => ?_
  obtain ⟨hstatus, hwritten⟩ := ha r hr
  exact exec_regionValue h hstatus hwritten

/-- Settles O57: no raised error changes the named fields, so each changes only where a command that writes it is
performed. -/
theorem commandsKeepTheOtherState : Obligations.CommandsKeepTheOtherState := by
  intro i s t h
  refine ⟨exec_keeps State.params (fun _ => rfl) (·.params_eq) h, exec_keeps State.mcgS (fun _ => rfl) (·.mcgS_eq) h,
    exec_keeps State.readData (fun _ => rfl) (·.readData_eq) h, exec_keeps State.program (fun _ => rfl) (·.program_eq) h,
    exec_keeps State.schedule (fun _ => rfl) (·.schedule_eq) h, ?mode, ?c1, ?c2, ?c5c6, ?clkdiv1, ?gates, ?cap, ?pcr⟩
  case mode => exact fun hne => (performed_of_changed State.mode (fun _ => rfl) h hne).mode_writers hne
  case c1 => exact fun hne => (performed_of_changed State.mcgC1 (fun _ => rfl) h hne).mcgC1_writers hne
  case c2 => exact fun hne => (performed_of_changed State.mcgC2 (fun _ => rfl) h hne).mcgC2_writers hne
  case c5c6 =>
    intro hne
    have hd : Performed i s t := hne.elim (performed_of_changed State.mcgC5 (fun _ => rfl) h)
      (performed_of_changed State.mcgC6 (fun _ => rfl) h)
    exact hd.mcgC5_mcgC6_writers hne
  case clkdiv1 => exact fun hne => (performed_of_changed State.clkdiv1 (fun _ => rfl) h hne).clkdiv1_writers hne
  case gates =>
    intro hne
    have hd : Performed i s t := hne.elim (performed_of_changed State.scgc (fun _ => rfl) h)
      (performed_of_changed State.gateOwner (fun _ => rfl) h)
    exact hd.gate_writers hne
  case cap => exact fun hne => (performed_of_changed State.cap (fun _ => rfl) h hne).cap_writers hne
  case pcr => exact fun hne => (performed_of_changed State.pcr (fun _ => rfl) h hne).pcr_writers hne

end Sys2Proof.Proofs
end

section
/-!
PROOFS. The statements of 10_state.md: the ownership invariant and the bits no rule writes, at reset and over every step; the
fields of STATUS and LOCKS; and what reset leaves.
-/

/-! ### The status words and reset -/

namespace Sys2Proof.Machine

/-- A held port owns its gate. -/
theorem State.ownerOf_of_portHeld {s : State} {p : Port} (h : s.portHeld p = true) :
    s.ownerOf (s.params.portGate p) = .port p := by
  simpa [State.portHeld] using h

/-- R45, R131: a control byte has bit 7 set and bits 6 to 4 clear, whatever the capacitance. -/
theorem oscControl_highNibble (cap : Nat) : oscControl cap &&& 0xF0 = 0x80 := by
  unfold oscControl
  generalize rev4 (BitVec.ofNat 4 (cap / 2)) = c
  revert c
  decide

theorem field_whole {n : Nat} (x : BitVec n) : field x 0 n = x.toNat := by
  simp [field]

theorem Phase.number_lt (p : Phase) : p.number < 2 ^ 3 := by
  cases p <;> decide

theorem Mode.number_lt (m : Mode) : m.number < 2 ^ 2 := by
  cases m <;> decide

/-- R37: the fields of STATUS, read off the concatenation. -/
theorem State.field_status (s : State) :
    field s.status 0 1 = s.busy.toNat ∧ field s.status 1 1 = s.inFatal.toNat ∧ field s.status 2 3 = s.phase.number ∧
    field s.status 5 3 = 0 ∧ field s.status 8 8 = s.fatalByte.toNat ∧ field s.status 16 2 = s.mode.number ∧
    field s.status 18 1 = s.mcgHeld.toNat ∧ field s.status 19 1 = s.oscHeld.toNat ∧
    field s.status 20 1 = s.simHeld.toNat ∧ field s.status 21 1 = s.oscToken.toNat ∧
    field s.status 22 1 = (s.portHeld .b).toNat ∧ field s.status 23 1 = (s.portHeld .c).toNat ∧
    field s.status 24 8 = 0 := by
  have hphase := Nat.mod_eq_of_lt s.phase.number_lt
  have hmode := Nat.mod_eq_of_lt s.mode.number_lt
  refine ⟨?_, ?_, ?_, ?_, ?_, ?_, ?_, ?_, ?_, ?_, ?_, ?_, ?_⟩ <;>
    simp (disch := omega) only [State.status, field_append_high, field_append_low, Nat.reduceSub, flag, field_whole,
      BitVec.toNat_ofBool, BitVec.toNat_ofNat, hphase, hmode, Nat.zero_mod]

@[simp] theorem State.portHeld_resetBlock (s : State) (p : Port) : s.resetBlock.portHeld p = false := by
  simp [State.portHeld]

@[simp] theorem State.status_resetBlock (s : State) : s.resetBlock.status = 0 := by
  simp only [State.status, State.fatalByte, State.inFatal, State.busy, State.portHeld_resetBlock, State.resetBlock_phase,
    State.resetBlock_fatalCode, State.resetBlock_mode, State.resetBlock_oscToken, State.resetBlock_simHeld,
    State.resetBlock_oscHeld, State.resetBlock_mcgHeld]
  decide

@[simp] theorem State.locks_resetBlock (s : State) (p : Port) : s.resetBlock.locks p = 0 :=
  State.locks_eq_zero (by simp [State.locked])

/-- R69: HOST's read of a window register records its value and changes nothing else. -/
theorem State.access_read_window (s : State) {k : Nat} (hk : k < 16) (h4 : k % 4 = 0) :
    s.access (.read (s.params.ctrlBase + BitVec.ofNat 32 k) 4)
      = .next { s with readData := some (s.regionValue (windowRegion k)) } := by
  simp only [State.access, s.memRead_window hk h4]

end Sys2Proof.Machine

namespace Sys2Proof.Laws

open Sys2Proof.Machine

/-- A predicate that does not read HOST's program or the schedule, and that every move keeps, is kept by every step. -/
theorem step_keeps {P : State → Prop}
    (hsched : ∀ (s : State) (p : List Access) (q : List Turn), P s → P { s with program := p, schedule := q })
    (hmoved : ∀ {s t : State}, P s → Moved s t → P t) {s t : State} (hs : P s) (h : step s = .next t) : P t := by
  obtain ⟨p, q, hm⟩ := step_cases h
  exact hmoved (hsched s p q hs) hm

end Sys2Proof.Laws

/-! ### The invariants -/

namespace Sys2Proof.Safety

open Sys2Proof.Machine Sys2Proof.Laws

section
variable {s t : State}

namespace OwnershipInv

theorem fatalCode_eq_none (h : OwnershipInv s) (hp : s.phase ≠ .fatal) : s.fatalCode = none :=
  not_not.mp (mt h.code_fatal.mpr hp)

theorem ownerOf_eq_nobody (h : OwnershipInv s) {g : Gate} (hb : s.gateBit g = false) : s.ownerOf g = .nobody := by
  by_contra hne
  simp [h.owned_set g hne] at hb

theorem raise (h : OwnershipInv s) (c : FatalCode) : OwnershipInv (s.raise c) :=
  { h with
    wait_consumed := by simp
    wait_select := by simp
    code_fatal := by simp }

/-- Moving the clock generator's holder, mode and phase together, outside FATAL, needs R35.1 and R35.2 of the new values. -/
theorem setClock (h : OwnershipInv s) (hp : s.phase ≠ .fatal) {held : Bool} {m : Mode} {ph : Phase} (hph : ph ≠ .fatal)
    (hmode : m ≠ .noMode → held = true)
    (hconsumed : ph = .wOscinit ∨ ph = .wIrefst ∨ ph = .wClkstExt ∨ ph = .wPllst ∨ ph = .wLock →
      m = .noMode ∧ held = true)
    (hselect : ph = .wClkstPll → m = .phaseLocked) :
    OwnershipInv { s with mcgHeld := held, mode := m, phase := ph } :=
  { h with
    mode_held := hmode
    wait_consumed := hconsumed
    wait_select := hselect
    code_fatal := by simp [hph, h.fatalCode_eq_none hp] }

/-- Taking a clear gate: nobody owned it, so no port was held through it. -/
theorem setGate_on (h : OwnershipInv s) {g : Gate} (hb : s.gateBit g = false) (o : Owner) :
    OwnershipInv (s.setGate g true o) :=
  { h with
    owned_set := fun k hk => by
      by_cases hkg : k = g
      · simp [hkg]
      · simpa [hkg] using h.owned_set k (by simpa [hkg] using hk)
    cap_port := fun q hq => by
      have hheld : s.portHeld q.port = true := h.cap_port q (by simpa using hq)
      have hne : s.params.portGate q.port ≠ g := fun he => by
        simp [State.portHeld, he, h.ownerOf_eq_nobody hb] at hheld
      simpa [hne] using hheld }

/-- Giving up a gate through which no port with a locked pin is held. -/
theorem setGate_off (h : OwnershipInv s) {g : Gate} (hfree : ∀ q, s.locked q = true → s.params.portGate q.port ≠ g) :
    OwnershipInv (s.setGate g false .nobody) :=
  { h with
    owned_set := fun k hk => by
      have hkg : k ≠ g := fun he => by simp [he] at hk
      simpa [hkg] using h.owned_set k (by simpa [hkg] using hk)
    cap_port := fun q hq => by
      have hq : s.locked q = true := by simpa using hq
      simpa [hfree q hq] using h.cap_port q hq }

theorem setCap (h : OwnershipInv s) {q : Pin} (hheld : s.portHeld q.port = true) (c : Cap) :
    OwnershipInv (s.setCap q c) :=
  { h with
    cap_port := fun r hr => by
      by_cases hrq : r = q
      · simpa [hrq] using hheld
      · simpa [hrq] using h.cap_port r (by simpa [hrq] using hr) }

theorem convert (h : OwnershipInv s) {q : Pin} (hheld : s.portHeld q.port = true) (m : Nat) (c : Cap) :
    OwnershipInv (s.convert q m c) :=
  setCap (s := s.setMux q m) { h with } hheld c

/-- R35.2: a wait of a consuming transition is entered with no mode, by the clock generator's holder. -/
theorem enterWait (h : OwnershipInv s) (hp : s.phase ≠ .fatal) {m : Mode} (hm : m = .noMode ∧ s.mcgHeld = true)
    {ph : Phase} (hph : ph ≠ .fatal := by decide) (hne : ph ≠ .wClkstPll := by decide) :
    OwnershipInv { s with mode := m, phase := ph } :=
  h.setClock hp hph (fun hmode => absurd hm.1 hmode) (fun _ => hm) fun he => absurd he hne

/-- The last wait of a transition ends in IDLE with a mode, which the clock generator's holder owns. -/
theorem endWait (h : OwnershipInv s) (hp : s.phase ≠ .fatal) (hheld : s.mcgHeld = true) (m : Mode) :
    OwnershipInv { s with phase := .idle, mode := m } :=
  h.setClock hp (by simp) (fun _ => hheld) (by simp) (by simp)

theorem advance (h : OwnershipInv s) : OwnershipInv s.advance := by
  unfold State.advance
  split
  next => exact h
  next hp => exact h.enterWait (by simp [hp]) (h.wait_consumed (by simp [hp]))
  next hp => exact h.enterWait (by simp [hp]) (h.wait_consumed (by simp [hp]))
  next hp => exact h.endWait (by simp [hp]) (h.wait_consumed (by simp [hp])).2 _
  next hp => exact h.enterWait (by simp [hp]) (h.wait_consumed (by simp [hp]))
  next hp => exact h.endWait (by simp [hp]) (h.wait_consumed (by simp [hp])).2 _
  next hp => exact h.endWait (by simp [hp]) (h.mode_held (by simp [h.wait_select hp])) s.mode
  next => exact h

theorem resetBlock (s : State) : OwnershipInv s.resetBlock where
  mode_held := by simp
  wait_consumed := by simp
  wait_select := by simp
  owned_set := by simp
  cap_port := by simp [State.locked]
  code_fatal := by simp

/-- A gate HOST owns is not the gate of a port with a locked pin. -/
theorem portGate_ne_of_host (h : OwnershipInv s) {g : Gate} (ho : s.ownerOf g = .host) {q : Pin}
    (hq : s.locked q = true) : s.params.portGate q.port ≠ g := fun he => by
  have hheld := h.cap_port q hq
  simp [State.portHeld, he, ho] at hheld

/-- The gate of a held port with no pin in use is not the gate of a port with a locked pin, even if two ports share one. -/
theorem portGate_ne_of_not_inUse (h : OwnershipInv s) {p : Port} (hp : s.portHeld p = true)
    (hu : s.portInUse p = false) {q : Pin} (hq : s.locked q = true) :
    s.params.portGate q.port ≠ s.params.portGate p := fun he => by
  have hheld := h.cap_port q hq
  simp only [State.portHeld, he, beq_iff_eq] at hheld hp
  have hqp : q.port = p := by simpa [hp] using hheld.symm
  have huse : s.portInUse p = true := (s.portInUse_iff p).mpr ⟨q.idx, by rw [← hqp]; exact hq⟩
  simp [hu] at huse

theorem performed {i : Instr} (h : OwnershipInv s) (hi : s.phase = .idle) (hd : Performed i s t) : OwnershipInv t := by
  have hp : s.phase ≠ .fatal := by simp [hi]
  cases hd with
  | mcgAcquire => exact h.setClock hp hp (by simp) (by simp [hi]) (by simp [hi])
  | mcgRelease => exact h.setClock hp hp (by simp) (by simp [hi]) (by simp [hi])
  | mcgEnableExtRef hheld => exact { h.enterWait hp (ph := .wOscinit) ⟨rfl, hheld⟩ with }
  | mcgEnablePll hheld => exact { h.enterWait hp (ph := .wPllst) ⟨rfl, hheld⟩ with }
  | mcgSelectPll _ hm =>
    exact { h.setClock hp (ph := .wClkstPll) (by simp) h.mode_held (by simp) (fun _ => hm) with }
  | gateAcquire _ _ hb | portAcquire _ _ hb => exact h.setGate_on hb _
  | gateRelease _ ho => exact h.setGate_off fun _ => h.portGate_ne_of_host ho
  | portRelease _ hheld hu => exact h.setGate_off fun _ => h.portGate_ne_of_not_inUse hheld hu
  | pinAcquire _ hheld | pinRelease _ hheld => exact h.setCap hheld _
  | pinMakeGpio _ hheld | pinMakeRx _ _ hheld | pinMakeTx _ _ hheld => exact h.convert hheld _ _
  | _ => exact { h with }

theorem moved (h : OwnershipInv s) (hm : Moved s t) : OwnershipInv t := by
  cases hm with
  | hold => exact h
  | read v => exact { h with }
  | raised c _ => exact h.raise c
  | performed i hi hd => exact h.performed hi hd
  | polled _ => exact h.advance
  | driven v => exact { h with }
  | reset => exact resetBlock s

end OwnershipInv

namespace UnwrittenBitsInv

theorem gateBit_eq_rst (h : UnwrittenBitsInv s) {g : Gate} (hb : s.gateBit g = false) :
    (s.params.rstScgc g.reg).getLsbD g.bit = false := by
  by_cases ho : s.ownerOf g = .nobody
  · rw [← h.gate_free g ho, hb]
  · exact (h.gate_owned g ho).2

/-- Acquiring a clear gate, which was clear at reset. -/
theorem setGate_on (h : UnwrittenBitsInv s) {g : Gate} (hb : s.gateBit g = false) {o : Owner} (ho : o ≠ .nobody) :
    UnwrittenBitsInv (s.setGate g true o) :=
  { h with
    gate_free := fun k hk => by
      have hkg : k ≠ g := fun he => by simp [he, ho] at hk
      simpa [hkg] using h.gate_free k (by simpa [hkg] using hk)
    gate_owned := fun k hk => by
      by_cases hkg : k = g
      · simpa [hkg] using h.gateBit_eq_rst hb
      · simpa [hkg] using h.gate_owned k (by simpa [hkg] using hk) }

/-- Giving up an owned gate, which was clear at reset. -/
theorem setGate_off (h : UnwrittenBitsInv s) {g : Gate} (ho : s.ownerOf g ≠ .nobody) :
    UnwrittenBitsInv (s.setGate g false .nobody) :=
  { h with
    gate_free := fun k hk => by
      by_cases hkg : k = g
      · simpa [hkg] using (h.gate_owned g ho).2
      · simpa [hkg] using h.gate_free k (by simpa [hkg] using hk)
    gate_owned := fun k hk => by
      have hkg : k ≠ g := fun he => by simp [he] at hk
      simpa [hkg] using h.gate_owned k (by simpa [hkg] using hk) }

/-- A conversion writes the mux field only (R48). -/
theorem convert (h : UnwrittenBitsInv s) (q : Pin) (m : Nat) (c : Cap) : UnwrittenBitsInv (s.convert q m c) :=
  { h with
    pcr := fun r => by
      by_cases hrq : r = q
      · have hmask : 0xFFFFF8FF#32 &&& fieldMask 32 8 3 = 0 := by decide
        simpa [hrq, setField_and_mask _ _ _ _ _ hmask] using h.pcr q
      · simpa [hrq] using h.pcr r }

theorem advance (h : UnwrittenBitsInv s) : UnwrittenBitsInv s.advance := by
  unfold State.advance
  split <;> exact { h with }

theorem resetBlock (s : State) : UnwrittenBitsInv s.resetBlock where
  c1 := rfl
  c2 := rfl
  c5 := rfl
  c6 := rfl
  osc := .inl rfl
  div := rfl
  pcr := by simp
  gate_free := by simp [State.gateBit]
  gate_owned := by simp

theorem performed {i : Instr} (h : UnwrittenBitsInv s) (hd : Performed i s t) : UnwrittenBitsInv t := by
  cases hd with
  | oscEnable => exact { h with osc := .inr (oscControl_highNibble _) }
  | mcgEnableExtRef =>
    exact { h with
      c1 := by simpa (disch := decide) only [setField_and_mask] using h.c1
      c2 := by simpa (disch := decide) only [setField_and_mask] using h.c2 }
  | mcgEnablePll =>
    exact { h with
      c5 := by simpa (disch := decide) only [setField_and_mask] using h.c5
      c6 := by simpa (disch := decide) only [setField_and_mask] using h.c6 }
  | mcgSelectPll => exact { h with c1 := by simpa (disch := decide) only [setField_and_mask] using h.c1 }
  | simSetDividers => exact { h with div := by simpa (disch := decide) only [setField_and_mask] using h.div }
  | gateAcquire _ _ hb | portAcquire _ _ hb => exact h.setGate_on hb (by simp)
  | gateRelease _ ho => exact h.setGate_off (by simp [ho])
  | portRelease _ hheld => exact h.setGate_off (by simp [State.ownerOf_of_portHeld hheld])
  | pinMakeGpio | pinMakeRx | pinMakeTx => exact h.convert _ _ _
  | _ => exact { h with }

theorem moved (h : UnwrittenBitsInv s) (hm : Moved s t) : UnwrittenBitsInv t := by
  cases hm with
  | polled _ => exact h.advance
  | performed _ _ hd => exact h.performed hd
  | reset => exact resetBlock s
  | _ => exact { h with }

end UnwrittenBitsInv
end
end Sys2Proof.Safety

/-! ### The statements -/

namespace Sys2Proof.Proofs

open Sys2Proof.Machine Sys2Proof.Laws Sys2Proof.Safety

/-- Settles O49, by the moves a step can make: each keeps the invariant, and the program and the schedule are no part of
it. -/
theorem stepKeepsOwnershipInv : Obligations.StepKeepsOwnershipInv := by
  intro s t h hstep
  exact step_keeps (fun _ _ _ hs => { hs with }) (fun hs => hs.moved) h hstep

/-- Settles O51, by the moves a step can make. -/
theorem stepKeepsUnwrittenBits : Obligations.StepKeepsUnwrittenBits := by
  intro s t h hstep
  exact step_keeps (fun _ _ _ hs => { hs with }) (fun hs => hs.moved) h hstep

/-- Settles O48: the state after reset is what the reset turn leaves. -/
theorem ownershipInvHoldsAtReset : Obligations.OwnershipInvHoldsAtReset := by
  have hparams (p : Params) : OwnershipInv (State.ofParams p) := OwnershipInv.resetBlock (State.ofParams p)
  exact ⟨hparams _, hparams⟩

/-- Settles O50: the state after reset is what the reset turn leaves. -/
theorem unwrittenBitsHoldAtReset : Obligations.UnwrittenBitsHoldAtReset := by
  have hparams (p : Params) : UnwrittenBitsInv (State.ofParams p) ∧ ∀ g, (State.ofParams p).ownerOf g = .nobody :=
    ⟨UnwrittenBitsInv.resetBlock (State.ofParams p), (State.ofParams p).ownerOf_resetBlock⟩
  exact ⟨(hparams _).1, (hparams _).2, hparams⟩

/-- Settles O52: the fields of the concatenation, the lock bits, and the accesses of the host window. -/
theorem statusAndLocksShowTheState : Obligations.StatusAndLocksShowTheState := by
  refine ⟨fun s => ?status, fun s p i => ?locks, fun s => ⟨?_, ?_, ?_⟩, fun s v => ⟨?_, ?_, ?_⟩⟩
  case status =>
    obtain ⟨hbusy, hfatal, hphase, h5, hcode, hmode, hrest⟩ := s.field_status
    refine ⟨?_, ?_, ?_, h5, hcode, ?_, hrest⟩
    · rw [hbusy, State.busy]
      cases s.phase.isWait <;> rfl
    · rw [hfatal, State.inFatal]
      cases s.phase <;> rfl
    · rw [hphase]
      cases s.phase <;> rfl
    · rw [hmode]
      cases s.mode <;> rfl
  case locks =>
    rw [State.getLsbD_locks, Bool.eq_iff_iff]
    simp [State.locked]
  · exact s.access_read_window (k := 4) (by decide) (by decide)
  · exact s.access_read_window (k := 8) (by decide) (by decide)
  · exact s.access_read_window (k := 12) (by decide) (by decide)
  · exact s.memWrite_window (k := 4) v (by decide) (by decide) (by decide)
  · exact s.memWrite_window (k := 8) v (by decide) (by decide) (by decide)
  · exact s.memWrite_window (k := 12) v (by decide) (by decide) (by decide)

/-- Settles O58, register by register of `State.resetBlock`. -/
theorem resetSetsEveryRegister : Obligations.ResetSetsEveryRegister := by
  intro s src
  refine ⟨s.resetBlock, rfl, rfl, rfl, rfl, rfl, rfl, rfl, rfl, s.ownerOf_resetBlock, s.capOf_resetBlock, rfl, rfl, rfl, rfl,
    rfl, rfl, rfl, rfl, rfl, rfl, rfl, s.pcrOf_resetBlock, rfl, ?cmd, ?status, ?locksB, ?locksC⟩
  case cmd => simpa [windowRegion, State.regionValue] using s.resetBlock.memRead_window (k := 0) (by decide) (by decide)
  case status => exact s.status_resetBlock ▸ s.resetBlock.memRead_window (k := 4) (by decide) (by decide)
  case locksB => exact s.locks_resetBlock .b ▸ s.resetBlock.memRead_window (k := 8) (by decide) (by decide)
  case locksC => exact s.locks_resetBlock .c ▸ s.resetBlock.memRead_window (k := 12) (by decide) (by decide)

/-- Settles O59: the machine's own reset state, the pin-control registers and the status words as after any reset. -/
theorem recommendedResetValues : Obligations.RecommendedResetValues :=
  ⟨rfl, rfl, rfl, rfl, rfl, rfl, rfl, rfl, rfl, rfl, rfl, State.reset.pcrOf_resetBlock, State.reset.status_resetBlock,
    State.reset.locks_resetBlock .b, State.reset.locks_resetBlock .c, by decide, by decide⟩

end Sys2Proof.Proofs
end

section
/-!
PROOFS. The statements of 20_memory.md: what a read answers at each register's address, which accesses are refused, and that a
read changes nothing.
-/

/-! ### Accesses at a register's own address and width, and elsewhere -/

namespace Sys2Proof.Machine

open Sys2Proof.Safety

/-- R67: a register's address, as the word on the bus, is aligned to its width. -/
theorem toNat_addr_mod_bytes (p : Params) (r : Region) : (BitVec.ofNat 32 (r.addr p)).toNat % r.bytes = 0 := by
  obtain ⟨hlt, halign⟩ := region_addr_bounds p r
  rwa [BitVec.toNat_ofNat, Nat.mod_eq_of_lt hlt]

/-- R66: at a register's own address and width, only a write to a register that takes none is refused. -/
theorem refused_addr {p : Params} (h : paramsOk p = true) (r : Region) (write : Bool) :
    refused p (BitVec.ofNat 32 (r.addr p)) r.bytes write = (write && !r.writable) := by
  simp only [refused, regionAt_addr h, toNat_addr_mod_bytes, bne_self_eq_false, Bool.false_or]

/-- R66, R67: an access that no register has the address and the width of is refused. -/
theorem refused_of_no_register {p : Params} {a : Word} {n : Nat} (h : ∀ r : Region, a.toNat = r.addr p → n ≠ r.bytes)
    (write : Bool) : refused p a n write = true := by
  unfold refused
  split
  next => rfl
  next r hr =>
    have hmisfit : n = r.bytes → a.toNat % n ≠ 0 := fun hn hm => h r (addr_of_regionAt hr (hn ▸ hm)) hn
    by_cases hn : r.bytes = n
    · simp [hn, hmisfit hn.symm]
    · simp [hn]

/-- R69: the read of a register at its own address and width, by its port's gate. -/
theorem State.memRead_addr {s : State} (h : paramsOk s.params = true) (r : Region) :
    s.memRead (BitVec.ofNat 32 (r.addr s.params)) r.bytes =
      if s.gateOpen r = true then .ok (s.regionValue r) else .error .accessGated := by
  simp [State.memRead, refused_addr h, regionAt_addr h]

/-- R69: only a pin-control register can be gated. -/
theorem State.gateOpen_eq_false {s : State} {r : Region} :
    s.gateOpen r = false ↔ ∃ q, r = .pcr q ∧ s.gateBit (s.params.portGate q.port) = false := by
  cases r <;> simp [State.gateOpen]

/-- R138: a gate word reads as 1 or 0. -/
theorem setWidth_flag (b : Bool) : (flag b).setWidth 32 = if b = true then 1#32 else 0#32 := by
  cases b <;> rfl

/-- R138: the read of a gate's own word. -/
theorem State.memRead_gateWord {s : State} (h : paramsOk s.params = true) (g : Gate) :
    s.memRead (BitVec.ofNat 32 (gateAddr g)) 4 = .ok (if s.gateBit g = true then 1 else 0) :=
  (s.memRead_addr h (.gateWord g)).trans (congrArg Except.ok (setWidth_flag _))

/-- R66: no access outside the registers' own addresses and widths is answered. -/
theorem State.memRead_of_no_register {s : State} {a : Word} {n : Nat}
    (h : ∀ r : Region, a.toNat = r.addr s.params → n ≠ r.bytes) : s.memRead a n = .error .accessRefused :=
  if_pos (refused_of_no_register h false)

/-! ### HOST's read -/

section
variable {s : State} {a : Word} {n : Nat}

theorem State.access_read_of_ok {v : Word} (h : s.memRead a n = .ok v) :
    s.access (.read a n) = .next { s with readData := some v } := by
  simp only [State.access, h]

theorem State.access_read_of_error {e : Fault} (h : s.memRead a n = .error e) : s.access (.read a n) = .fault e := by
  simp only [State.access, h]

/-- R66, R70: HOST's write stops where the access is refused. -/
theorem State.access_write_of_refused {v : Word} (h : refused s.params a n true = true) :
    s.access (.write a n v) = .fault .accessRefused :=
  if_pos h

/-- R71: what HOST read before has no part in what a read answers. -/
theorem State.memRead_readData (s : State) (d : Option Word) (a : Word) (n : Nat) :
    ({ s with readData := d } : State).memRead a n = s.memRead a n := rfl

end

end Sys2Proof.Machine

/-! ### The statements -/

namespace Sys2Proof.Proofs

open Sys2Proof.Machine Sys2Proof.Safety

/-- Settles O53: every row is the read of its register, and HOST's access answers what the read does. -/
theorem everyRegisterReadsAtItsAddress : Obligations.EveryRegisterReadsAtItsAddress := by
  refine ⟨fun s r h => ⟨?ungated, ?gated, State.gateOpen_eq_false⟩, fun s h => ?rows, fun s a n =>
    ⟨fun v => State.access_read_of_ok, fun e => State.access_read_of_error⟩⟩
  case ungated => exact fun hopen => (s.memRead_addr h r).trans (if_pos hopen)
  case gated => exact fun hgated => (s.memRead_addr h r).trans (if_neg (by simp [hgated]))
  case rows =>
    have fixed (r : Region) (hopen : s.gateOpen r = true) :
        s.memRead (BitVec.ofNat 32 (r.addr s.params)) r.bytes = .ok (s.regionValue r) :=
      (s.memRead_addr h r).trans (if_pos hopen)
    refine ⟨?cmd, s.memRead_window (k := 4) (by decide) (by decide), s.memRead_window (k := 8) (by decide) (by decide),
      s.memRead_window (k := 12) (by decide) (by decide), fixed .mcgC1 rfl, fixed .mcgC2 rfl, fixed .mcgC5 rfl,
      fixed .mcgC6 rfl, fixed .mcgS rfl, fixed .oscCr rfl, fixed (.scgc .scgc4) rfl, fixed (.scgc .scgc5) rfl,
      fixed (.scgc .scgc6) rfl, fixed (.scgc .scgc7) rfl, fixed .clkdiv1 rfl, fun k => ?arrays⟩
    case cmd => simpa [windowRegion, State.regionValue] using s.memRead_window (k := 0) (by decide) (by decide)
    case arrays =>
      exact ⟨s.memRead_gateWord h ⟨.scgc4, k⟩, s.memRead_gateWord h ⟨.scgc5, k⟩, s.memRead_gateWord h ⟨.scgc6, k⟩,
        s.memRead_gateWord h ⟨.scgc7, k⟩, s.memRead_addr h (.pcr ⟨.b, k⟩), s.memRead_addr h (.pcr ⟨.c, k⟩)⟩

/-- Settles O54: such an access is refused by `refused`, and the status words ignore a write. -/
theorem otherAccessesAreRefused : Obligations.OtherAccessesAreRefused := by
  refine ⟨fun s a v n h => ⟨?read, ?write⟩, fun s v r h hcmd hstatus hlocksB hlocksC => ?readOnly, fun s v => ⟨?_, ?_, ?_⟩⟩
  case read => exact State.access_read_of_error (State.memRead_of_no_register h)
  case write => exact State.access_write_of_refused (refused_of_no_register h true)
  case readOnly =>
    have hr : r.writable = false := by
      cases r with
      | cmd => exact absurd rfl hcmd
      | status => exact absurd rfl hstatus
      | locks p => cases p <;> contradiction
      | _ => rfl
    exact State.access_write_of_refused (by simp [refused_addr h, hr])
  · exact s.memWrite_window (k := 4) v (by decide) (by decide) (by decide)
  · exact s.memWrite_window (k := 8) v (by decide) (by decide) (by decide)
  · exact s.memWrite_window (k := 12) v (by decide) (by decide) (by decide)

/-- Settles O55: an access that answers next read some value, which the read data do not change. -/
theorem readsChangeNothing : Obligations.ReadsChangeNothing := by
  intro s t a n h
  cases hv : s.memRead a n with
  | error e => simp [State.access_read_of_error hv] at h
  | ok v =>
    obtain rfl := Host.Outcome.next.inj ((State.access_read_of_ok hv).symm.trans h)
    exact ⟨⟨v, rfl, rfl⟩, State.access_read_of_ok ((s.memRead_readData _ a n).trans hv)⟩

end Sys2Proof.Proofs
end

section
/-!
PROOFS. The statements of 30_encoding.md: the decoder and the encoder are inverse to each other, a word that is no command is
fatal, the worked encodings, and the step that issues a command word.
-/

/-! ### The operands of a command, read from a word -/

namespace Sys2Proof.Laws

open Sys2Proof.Machine

/-- The command `i` with its operands read from the word `w` (R82); `decode_of_opcode` ties it to the decoder. -/
def readOperands (w : Word) : Instr → Instr
  | .oscAcquire => .oscAcquire
  | .oscRelease => .oscRelease
  | .oscEnable _ => .oscEnable (field w 0 8)
  | .mcgAcquire => .mcgAcquire
  | .mcgRelease => .mcgRelease
  | .mcgEnableExtRef _ _ => .mcgEnableExtRef (field w 16 2) (field w 0 16)
  | .mcgEnablePll _ _ => .mcgEnablePll (field w 8 8) (field w 0 8)
  | .mcgSelectPll => .mcgSelectPll
  | .simAcquire => .simAcquire
  | .simRelease => .simRelease
  | .gateAcquire _ _ => .gateAcquire (field w 8 8) (field w 0 8)
  | .gateRelease _ _ => .gateRelease (field w 8 8) (field w 0 8)
  | .simSetDividers _ _ _ => .simSetDividers (field w 16 8) (field w 8 8) (field w 0 8)
  | .portAcquire _ => .portAcquire (field w 8 8)
  | .portRelease _ => .portRelease (field w 8 8)
  | .pinAcquire _ _ => .pinAcquire (field w 8 8) (field w 0 8)
  | .pinRelease _ _ => .pinRelease (field w 8 8) (field w 0 8)
  | .pinMakeGpio _ _ => .pinMakeGpio (field w 8 8) (field w 0 8)
  | .pinMakeRx _ _ _ => .pinMakeRx (field w 16 8) (field w 8 8) (field w 0 8)
  | .pinMakeTx _ _ _ => .pinMakeTx (field w 16 8) (field w 8 8) (field w 0 8)

@[simp] theorem opcode_readOperands (w : Word) (i : Instr) : (readOperands w i).opcode = i.opcode := by
  cases i <;> rfl

/-- A field read from a word fits the operand it becomes. -/
theorem wellFormed_readOperands (w : Word) (i : Instr) : (readOperands w i).WellFormed := by
  have hbyte (lo : Nat) : field w lo 8 < 2 ^ 8 := field_lt w lo 8
  have hrange : field w 16 2 < 2 ^ 2 := field_lt w 16 2
  have hdiv : field w 0 16 < 2 ^ 16 := field_lt w 0 16
  cases i <;>
    simp only [readOperands, Instr.WellFormed, Instr.wellFormed, hbyte, hrange, hdiv, decide_true, Bool.and_self]

/-- A field of a word, as a number. -/
theorem field_eq_div_mod {n : Nat} (x : BitVec n) (lo len : Nat) : field x lo len = x.toNat / 2 ^ lo % 2 ^ len := by
  rw [field, BitVec.extractLsb'_toNat, Nat.shiftRight_eq_div_pow]

/-- With its reserved bits 0, a word's `[23:0]` are the operand bits of the command read from it (R82). -/
theorem operandBits_readOperands {w : Word} {i : Instr} (h : w &&& i.format.reservedMask = 0) :
    (readOperands w i).operandBits = field w 0 24 := by
  rw [reserved_eq_zero] at h
  cases i <;>
    simp only [Instr.format, readOperands, Instr.operandBits, field_eq_div_mod] at h ⊢ <;>
    omega

/-- A well-formed command's operands are read back from its own word. -/
theorem readOperands_encode {i : Instr} (h : i.WellFormed) : readOperands (encode i) i = i := by
  cases i <;>
    simp only [Instr.WellFormed, Instr.wellFormed, Bool.and_eq_true, decide_eq_true_eq] at h <;>
    simp (disch := decide) [readOperands, field_operand_encode, Instr.operandBits] <;>
    omega

/-- A well-formed command's word has no reserved bit of its format set. -/
theorem encode_and_reservedMask {i : Instr} (h : i.WellFormed) : encode i &&& i.format.reservedMask = 0 := by
  rw [reserved_eq_zero]
  cases i <;>
    simp only [Instr.WellFormed, Instr.wellFormed, Bool.and_eq_true, decide_eq_true_eq] at h <;>
    simp (disch := decide) [Instr.format, field_operand_encode, Instr.operandBits] <;>
    omega

/-- A word is its opcode and its operand bits (R81). -/
theorem encode_eq_of_fields {w : Word} {i : Instr} (hop : i.opcode = field w 24 8)
    (hbits : i.operandBits = field w 0 24) : encode i = w := by
  apply BitVec.eq_of_toNat_eq
  have hw := w.isLt
  rw [encode, hop, hbits, field_eq_div_mod, field_eq_div_mod, BitVec.toNat_ofNat]
  omega

/-! ### The decoder -/

/-- R86: a word with the opcode of a command is decoded to that command, with the word's operands, if the reserved bits of its
format are 0. -/
theorem decode_of_opcode {w : Word} {i : Instr} (h : field w 24 8 = i.opcode) :
    decode w = checkReserved i.format w (readOperands w i) := by
  cases i <;> simp only [decode, h, Instr.opcode] <;> rfl

/-- A command for each row of the opcode table (R86). -/
def tableCommands : List Instr :=
  [.oscAcquire, .oscRelease, .oscEnable 0, .mcgAcquire, .mcgRelease, .mcgEnableExtRef 0 0, .mcgEnablePll 0 0, .mcgSelectPll,
   .simAcquire, .simRelease, .gateAcquire 0 0, .gateRelease 0 0, .simSetDividers 0 0 0, .portAcquire 0, .portRelease 0,
   .pinAcquire 0 0, .pinRelease 0 0, .pinMakeGpio 0 0, .pinMakeRx 0 0 0, .pinMakeTx 0 0 0]

/-- R88: a word is rejected for its opcode, or has the opcode of a command. -/
theorem decode_undefined_or_opcode (w : Word) :
    decode w = .error .undefinedOpcode ∨ ∃ i ∈ tableCommands, field w 24 8 = i.opcode := by
  unfold decode
  split
  case h_21 => exact .inl rfl
  all_goals
    next hop =>
      rw [hop]
      exact .inr (by decide)

/-- The literal table of opcodes and reserved masks is that of the commands. -/
theorem opcodeMasks_eq : Safety.opcodeMasks = tableCommands.map fun i => (i.opcode, i.format.reservedMask) := rfl

theorem mem_opcodeMasks {i : Instr} (h : i ∈ tableCommands) :
    (i.opcode, i.format.reservedMask) ∈ Safety.opcodeMasks :=
  opcodeMasks_eq ▸ List.mem_map_of_mem h

theorem command_of_mem_opcodeMasks {op : Nat} {m : Word} (h : (op, m) ∈ Safety.opcodeMasks) :
    ∃ i : Instr, op = i.opcode ∧ m = i.format.reservedMask := by
  rw [opcodeMasks_eq] at h
  obtain ⟨i, -, hi⟩ := List.mem_map.mp h
  exact ⟨i, congrArg Prod.fst hi.symm, congrArg Prod.snd hi.symm⟩

theorem checkReserved_of_zero {f : Format} {w : Word} (h : w &&& f.reservedMask = 0) (i : Instr) :
    checkReserved f w i = .ok i := if_pos h

theorem checkReserved_of_ne_zero {f : Format} {w : Word} (h : w &&& f.reservedMask ≠ 0) (i : Instr) :
    checkReserved f w i = .error .reservedNonzero := if_neg h

theorem checkReserved_eq_ok {f : Format} {w : Word} {i j : Instr} (h : checkReserved f w i = .ok j) :
    w &&& f.reservedMask = 0 ∧ i = j := by
  rcases ite_eq_cases h with ⟨hreserved, hi⟩ | ⟨_, he⟩
  · exact ⟨hreserved, Except.ok.inj hi⟩
  · cases he

/-- A word that decodes has its command's opcode and, as operands, the command's own; no reserved bit is set. -/
theorem decode_eq_ok {w : Word} {j : Instr} (h : decode w = .ok j) :
    ∃ i, field w 24 8 = i.opcode ∧ w &&& i.format.reservedMask = 0 ∧ j = readOperands w i := by
  rcases decode_undefined_or_opcode w with hundefined | ⟨i, -, hi⟩
  · simp [hundefined] at h
  · rw [decode_of_opcode hi] at h
    obtain ⟨hreserved, rfl⟩ := checkReserved_eq_ok h
    exact ⟨i, hi, hreserved, rfl⟩

/-! ### Issuing a word -/

theorem issueWord_of_ok {w : Word} {i : Instr} (h : decode w = .ok i) (s : State) : issueWord w s = exec i s := by
  simp only [issueWord, h]

/-- R88: in IDLE a word that is no command raises its fatal error. -/
theorem memWrite_cmd_of_error {w : Word} {e : DecodeError} (h : decode w = .error e) {s : State} (hs : s.phase = .idle) :
    s.memWrite s.params.ctrlBase 4 w = Safety.fatalWith s (fatalOfDecode e) := by
  simp only [State.memWrite_cmd, issueWord, h, State.issue_idle hs]
  rfl

/-- R81: HOST's listed turn, with a command's word to write to CMD, is that command's. -/
theorem step_of_cmd_write {s : State} {w : Word} {i : Instr} {accesses : List Access} {turns : List Turn}
    (h : decode w = .ok i) (hturn : s.schedule = .host :: turns)
    (haccess : s.program = .write s.params.ctrlBase 4 w :: accesses) :
    step s = exec i { s with program := accesses, schedule := turns } := by
  simp only [step, State.turn, hturn, State.take, State.hostStep, haccess, State.access]
  exact (State.memWrite_cmd _ w).trans (issueWord_of_ok h _)

/-- A table word is a command if its low bits, as a command word, decode to it. -/
theorem decode_of_decodeTableWord {nbits w : Nat} {i : Instr} (h : decodeTableWord nbits w = some i) :
    decode (BitVec.ofNat 32 (w % 2 ^ nbits)) = .ok i := by
  rcases ite_eq_cases h with ⟨_, h⟩ | ⟨_, h⟩
  · cases hd : decode (BitVec.ofNat 32 (w % 2 ^ nbits)) with
    | ok j =>
      rw [hd] at h
      exact congrArg Except.ok (Option.some.inj h)
    | error e =>
      rw [hd] at h
      cases h
  · cases h

end Sys2Proof.Laws

/-! ### The statements -/

namespace Sys2Proof.Proofs

open Sys2Proof.Machine Sys2Proof.Laws

/-- Settles O1: the word has the command's opcode, no reserved bit, and its operands are read back. -/
theorem decodeEncodeRoundTrip : Obligations.DecodeEncodeRoundTrip := by
  intro i h
  calc decode (encode i)
      = checkReserved i.format (encode i) (readOperands (encode i) i) := decode_of_opcode (field_opcode_encode h)
    _ = .ok (readOperands (encode i) i) := checkReserved_of_zero (encode_and_reservedMask h) _
    _ = .ok i := by rw [readOperands_encode h]

/-- Settles O2: the command read from the word has the word's opcode and the word's operand bits. -/
theorem decodedWordReencodes : Obligations.DecodedWordReencodes := by
  intro w j h
  obtain ⟨i, hop, hreserved, rfl⟩ := decode_eq_ok h
  exact ⟨wellFormed_readOperands w i,
    encode_eq_of_fields ((opcode_readOperands w i).trans hop.symm) (operandBits_readOperands hreserved)⟩

/-- Settles O3, by the row of the opcode table that the word's opcode is on, if any. -/
theorem reservedEncodingsAreFatal : Obligations.ReservedEncodingsAreFatal := by
  refine ⟨fun w s hs => ⟨fun hundefined => ?undefined, fun m hm hset => ?reserved, fun m hm hclear => ?command⟩, rfl, rfl⟩
  case undefined =>
    rcases decode_undefined_or_opcode w with herror | ⟨i, hmem, hi⟩
    · exact memWrite_cmd_of_error herror hs
    · exact absurd (hi ▸ mem_opcodeMasks hmem) (hundefined _)
  case reserved =>
    obtain ⟨i, hi, rfl⟩ := command_of_mem_opcodeMasks hm
    exact memWrite_cmd_of_error ((decode_of_opcode hi).trans (checkReserved_of_ne_zero hset _)) hs
  case command =>
    obtain ⟨i, hi, rfl⟩ := command_of_mem_opcodeMasks hm
    exact ⟨_, (decode_of_opcode hi).trans (checkReserved_of_zero hclear _)⟩

/-- Settles O4, row by row. -/
theorem workedEncodingsDecode : Obligations.WorkedEncodingsDecode := by
  refine ⟨?_, ?_, ?_, ?_, ?_, ?_, ?_, ?_, ?_, ?_, ?_, ?_⟩ <;> decide

/-- Settles O5: `withFetchWord` lists HOST's turn and the write of the word to CMD. -/
theorem stepRunsTheDecodedCommand : Obligations.StepRunsTheDecodedCommand :=
  ⟨fun _ _ _ _ _ => step_of_cmd_write, fun s nbits w _ h =>
    step_of_cmd_write (s := s.withFetchWord nbits w) (decode_of_decodeTableWord h) rfl rfl⟩

end Sys2Proof.Proofs
end

section
/-!
PROOFS. The statements of 41_clock_generator.md: the classification of a status, the three transition commands, the waits that
BLOCK completes, the mode graph over every step, and the environment that drives the status.
-/

/-! ### Fields and operands -/

namespace Sys2Proof.Machine

theorem field_one_eq_toNat {n : Nat} (x : BitVec n) (k : Nat) : field x k 1 = (x.getLsbD k).toNat := by
  apply Nat.eq_of_testBit_eq
  intro j
  rw [testBit_field]
  cases j with
  | zero => cases x.getLsbD k <;> simp
  | succ j => cases x.getLsbD k <;> simp [Nat.testBit_succ]

theorem divisorTable_eq (range : Nat) : divisorTable range =
    if range = 0 then [1, 2, 4, 8, 16, 32, 64, 128] else [32, 64, 128, 256, 512, 1024, 1280, 1536] := by
  cases range <;> rfl

theorem divisorTable_nodup (range : Nat) : (divisorTable range).Nodup := by
  rw [divisorTable_eq]
  split <;> decide

/-- R102: a divisor stands in its table once, so its index is the only position that holds it. -/
theorem tableIndex_eq_some {range div idx : Nat} :
    tableIndex range div = some idx ↔ (divisorTable range)[idx]? = some div := by
  rw [tableIndex, List.idxOf?_eq_some_iff, List.getElem?_eq_some_iff]
  refine exists_congr fun hidx => ⟨And.left, fun hdiv => ⟨hdiv, fun j hj hsame => ?_⟩⟩
  have heq : j = idx := (divisorTable_nodup range).getElem_inj_iff.mp (hsame.trans hdiv.symm)
  omega

theorem tableIndex_eq_none {range div : Nat} : tableIndex range div = none ↔ div ∉ divisorTable range :=
  List.idxOf?_eq_none_iff

/-- R102: an index in a table fits the three bits of FRDIV. -/
theorem tableIndex_lt {range div idx : Nat} (h : tableIndex range div = some idx) : idx < 2 ^ 3 := by
  obtain ⟨hlt, -⟩ := List.getElem?_eq_some_iff.mp (tableIndex_eq_some.mp h)
  have hlen : (divisorTable range).length = 8 := by
    rw [divisorTable_eq]
    split <;> rfl
  omega

/-- R109: the numbers a numerator may be. -/
theorem numeratorLegal_iff {num : Nat} : numeratorLegal num = true ↔ 24 ≤ num ∧ num ≤ 55 := by
  simp [numeratorLegal]

/-- R109: the numbers a denominator may be. -/
theorem denominatorLegal_iff {den : Nat} : denominatorLegal den = true ↔ 1 ≤ den ∧ den ≤ 25 := by
  simp [denominatorLegal]

/-! ### BLOCK's transitions, wait by wait -/

section
variable {s : State}

/-- R106. -/
theorem State.advance_of_wOscinit (h : s.phase = .wOscinit) : s.advance = { s with phase := .wIrefst } := by
  simp only [State.advance, h]

/-- R107. -/
theorem State.advance_of_wIrefst (h : s.phase = .wIrefst) : s.advance = { s with phase := .wClkstExt } := by
  simp only [State.advance, h]

/-- R108. -/
theorem State.advance_of_wClkstExt (h : s.phase = .wClkstExt) :
    s.advance = { s with phase := .idle, mode := .externalReference } := by
  simp only [State.advance, h]

/-- R110. -/
theorem State.advance_of_wPllst (h : s.phase = .wPllst) : s.advance = { s with phase := .wLock } := by
  simp only [State.advance, h]

/-- R111. -/
theorem State.advance_of_wLock (h : s.phase = .wLock) : s.advance = { s with phase := .idle, mode := .phaseLocked } := by
  simp only [State.advance, h]

/-- R113. -/
theorem State.advance_of_wClkstPll (h : s.phase = .wClkstPll) : s.advance = { s with phase := .idle } := by
  simp only [State.advance, h]

theorem State.advance_mcgS (s : State) : s.advance.mcgS = s.mcgS := by
  unfold State.advance
  split <;> rfl

theorem State.advance_phase_ne (h : s.phase.isWait = true) : s.advance.phase ≠ s.phase := by
  unfold State.advance
  split <;> simp_all [Phase.isWait]

/-- BLOCK's turn in a wait whose condition holds. -/
theorem State.take_block_of_awaited {p : Phase} (hp : s.phase = p) (h : p.awaited s.mcgS = true) :
    s.take .block = .next s.advance := by
  simp [State.take, State.poll, State.blockEnabled, hp, h]

/-- BLOCK's turn where the awaited condition does not hold. -/
theorem State.take_block_of_not_awaited {p : Phase} (hp : s.phase = p) (h : p.awaited s.mcgS = false) :
    s.take .block = .next s := by
  simp [State.take, State.poll, State.blockEnabled, hp, h]

/-! ### ENV's turn -/

/-- R117. -/
theorem State.envStep_of_free (h : s.params.env = .free) (v : Byte) : s.envStep v = { s with mcgS := v } := by
  simp only [State.envStep, h]

/-- R118. -/
theorem State.envStep_of_reference (h : s.params.env = .reference) (v : Byte) :
    s.envStep v = { s with mcgS := s.settle } := by
  simp only [State.envStep, h]

end

theorem settleClkst_lt (c1 c6 : Byte) : settleClkst c1 c6 < 2 ^ 2 := by
  have hfield : field c1 6 2 < 2 ^ 2 := field_lt c1 6 2
  unfold settleClkst
  split_ifs <;> omega

/-- R118: the fields of `settle()`, read off the concatenation. -/
theorem field_settleOf (c1 c2 c6 : Byte) :
    field (settleOf c1 c2 c6) 7 1 = 0 ∧ field (settleOf c1 c2 c6) 6 1 = field c6 6 1 ∧
    field (settleOf c1 c2 c6) 5 1 = field c6 6 1 ∧ field (settleOf c1 c2 c6) 4 1 = field c1 2 1 ∧
    field (settleOf c1 c2 c6) 2 2 = settleClkst c1 c6 ∧ field (settleOf c1 c2 c6) 1 1 = field c2 2 1 ∧
    field (settleOf c1 c2 c6) 0 1 = 0 := by
  have hclkst := Nat.mod_eq_of_lt (settleClkst_lt c1 c6)
  refine ⟨?_, ?_, ?_, ?_, ?_, ?_, ?_⟩ <;>
    simp (disch := omega) only [settleOf, field_append_high, field_append_low, Nat.reduceSub, field_whole,
      field_one_eq_toNat c1, field_one_eq_toNat c2, field_one_eq_toNat c6, BitVec.toNat_ofBool, BitVec.toNat_ofNat, hclkst,
      Nat.zero_mod]

theorem settleClkst_eq (c1 c6 : Byte) : settleClkst c1 c6 =
    if field c1 6 2 = 0 then (if field c6 6 1 = 1 then 3 else 0) else field c1 6 2 := by
  rw [settleClkst, field_one_eq_toNat]
  cases c6.getLsbD 6 <;> rfl

end Sys2Proof.Machine

/-! ### The transition commands -/

namespace Sys2Proof.Laws

open Sys2Proof.Machine Sys2Proof.Safety

/-- A command's word, written out as a number, decodes to the command (R87). -/
theorem decode_ofNat {i : Instr} {n : Nat} (h : i.WellFormed) (hn : n = i.opcode * 2 ^ 24 + i.operandBits) :
    decode (BitVec.ofNat 32 n) = .ok i := by
  rw [hn]
  exact Proofs.decodeEncodeRoundTrip i h

/-- The fatal answer is the entry of R195. -/
theorem next_raise (s : State) (c : FatalCode) :
    (Host.Outcome.next (s.raise c) : Result) = fatalWith s c := rfl

section
variable {s : State} (hs : s.phase = .idle) (hheld : s.mcgHeld = true)
include hs hheld

/-- R105: with its five checks passed, MCG_ENABLE_EXT_REF makes its writes. -/
theorem exec_mcgEnableExtRef {range div idx : Nat} (hmode : s.mode = .internalLocked) (htoken : s.oscToken = true)
    (hrange : range ≤ 2) (hidx : tableIndex range div = some idx) :
    exec (.mcgEnableExtRef range div) s = .next { s with
      mcgC1 := setField (setField (setField s.mcgC1 6 2 2) 3 3 idx) 2 1 0
      mcgC2 := setField (setField s.mcgC2 4 2 range) 2 1 1
      oscToken := false, mode := .noMode, phase := .wOscinit } := by
  simp [exec, execMcgEnableExtRef, hs, hheld, hmode, htoken, hrange, hidx]

/-- R109: with its four checks passed, MCG_ENABLE_PLL makes its writes. -/
theorem exec_mcgEnablePll {num den : Nat} (hmode : s.mode = .externalReference) (hnum : numeratorLegal num = true)
    (hden : denominatorLegal den = true) :
    exec (.mcgEnablePll num den) s = .next { s with
      mcgC5 := setField s.mcgC5 0 5 (den - 1)
      mcgC6 := setField (setField s.mcgC6 6 1 1) 0 5 (num - 24)
      mode := .noMode, phase := .wPllst } := by
  simp [exec, execMcgEnablePll, hs, hheld, hmode, hnum, hden]

/-- R112: with its two checks passed, MCG_SELECT_PLL makes its write. -/
theorem exec_mcgSelectPll (hmode : s.mode = .phaseLocked) :
    exec .mcgSelectPll s = .next { s with mcgC1 := setField s.mcgC1 6 2 0, phase := .wClkstPll } := by
  simp [exec, execMcgSelectPll, hs, hheld, hmode]

end

/-! ### The mode graph -/

section
variable {s t : State}

/-- R103: the one performed command that leaves a new mode value is an acquisition. -/
theorem Performed.mode_source {i : Instr} (h : Performed i s t) (hne : t.mode ≠ s.mode) (hsome : t.mode ≠ .noMode) :
    s.mcgHeld = false ∧ t.mcgHeld = true ∧ t.mode = classify s.mcgS := by
  cases h with
  | mcgAcquire hheld => exact ⟨hheld, rfl, rfl⟩
  | mcgRelease | mcgEnableExtRef | mcgEnablePll => exact absurd rfl hsome
  | _ => exact absurd rfl hne

/-- R103: the phase a performed command leaves is its transition's first wait, issued from the transition's one mode. -/
theorem Performed.phase_cases {i : Instr} (h : Performed i s t) :
    t.phase = s.phase ∨ (t.phase = .wOscinit ∧ s.mode = .internalLocked) ∨
      (t.phase = .wPllst ∧ s.mode = .externalReference) ∨
      (t.phase = .wClkstPll ∧ s.mode = .phaseLocked ∧ t.mode = .phaseLocked) := by
  cases h with
  | mcgEnableExtRef _ hmode => exact .inr (.inl ⟨rfl, hmode⟩)
  | mcgEnablePll _ hmode => exact .inr (.inr (.inl ⟨rfl, hmode⟩))
  | mcgSelectPll _ hmode => exact .inr (.inr (.inr ⟨rfl, hmode, hmode⟩))
  | _ => exact .inl rfl

/-- BLOCK gives a mode at the end of the two consuming transitions only. -/
theorem advance_mode_source (hne : s.advance.mode ≠ s.mode) :
    (s.phase = .wClkstExt ∧ s.advance.mode = .externalReference) ∨
      (s.phase = .wLock ∧ s.advance.mode = .phaseLocked) := by
  cases hp : s.phase with
  | wClkstExt => exact .inl ⟨rfl, by rw [State.advance_of_wClkstExt hp]⟩
  | wLock => exact .inr ⟨rfl, by rw [State.advance_of_wLock hp]⟩
  | _ => simp [State.advance, hp] at hne

/-- BLOCK goes from a wait to the next one of its transition, or to IDLE. -/
theorem advance_phase_cases (s : State) :
    s.advance.phase = s.phase ∨ s.advance.phase = .idle ∨ (s.phase = .wOscinit ∧ s.advance.phase = .wIrefst) ∨
      (s.phase = .wIrefst ∧ s.advance.phase = .wClkstExt) ∨ (s.phase = .wPllst ∧ s.advance.phase = .wLock) := by
  cases hp : s.phase <;> simp [State.advance, hp]

/-- R103: where a mode value comes from, over every move. -/
theorem Moved.mode_source (h : Moved s t) (hne : t.mode ≠ s.mode) (hsome : t.mode ≠ .noMode) :
    (s.mcgHeld = false ∧ t.mcgHeld = true ∧ t.mode = classify s.mcgS) ∨
      (s.phase = .wClkstExt ∧ t.mode = .externalReference) ∨ (s.phase = .wLock ∧ t.mode = .phaseLocked) := by
  cases h with
  | performed i _ hd => exact .inl (hd.mode_source hne hsome)
  | polled _ => exact .inr (advance_mode_source hne)
  | reset => exact absurd rfl hsome
  | _ => exact absurd rfl hne

/-- R103: how the phase changes, over every move. -/
theorem Moved.phase_cases (h : Moved s t) :
    t.phase = s.phase ∨ t.phase = .idle ∨ t.phase = .fatal ∨
      (s.phase = .idle ∧ ((t.phase = .wOscinit ∧ s.mode = .internalLocked) ∨
        (t.phase = .wPllst ∧ s.mode = .externalReference) ∨
        (t.phase = .wClkstPll ∧ s.mode = .phaseLocked ∧ t.mode = .phaseLocked))) ∨
      (s.phase = .wOscinit ∧ t.phase = .wIrefst) ∨ (s.phase = .wIrefst ∧ t.phase = .wClkstExt) ∨
      (s.phase = .wPllst ∧ t.phase = .wLock) := by
  cases h with
  | performed i hidle hd => exact hd.phase_cases.imp_right fun h => .inr (.inr (.inl ⟨hidle, h⟩))
  | polled _ => exact (advance_phase_cases s).imp_right (Or.imp_right fun h => .inr (.inr h))
  | raised c _ => exact .inr (.inr (.inl rfl))
  | reset => exact .inr (.inl rfl)
  | _ => exact .inl rfl

/-! ### `MCG_S` and the schedule over a turn -/

/-- R117: no access of HOST writes `MCG_S`. -/
theorem hostStep_mcgS (h : s.hostStep = .next t) : t.mcgS = s.mcgS := by
  unfold State.hostStep at h
  split at h
  · cases h
    rfl
  · rcases access_cases h with ⟨v, rfl⟩ | ⟨_, c, rfl⟩ | ⟨i, _, hd⟩
    · rfl
    · rfl
    · exact hd.mcgS_eq

theorem poll_mcgS (s : State) : s.poll.mcgS = s.mcgS := by
  rcases s.poll_cases with ⟨_, h⟩ | ⟨_, h⟩ <;> simp [h, State.advance_mcgS]

theorem advance_schedule (s : State) : s.advance.schedule = s.schedule := by
  unfold State.advance
  split <;> rfl

theorem Moved.schedule_eq (h : Moved s t) : t.schedule = s.schedule := by
  cases h with
  | performed i _ hd => exact hd.schedule_eq
  | polled _ => exact advance_schedule s
  | _ => rfl

/-- No turn lists or takes off another one. -/
theorem take_schedule {u : Turn} (h : s.take u = .next t) : t.schedule = s.schedule := by
  rcases take_cases h with hm | ⟨_, _, _, _, hm⟩ <;> exact hm.schedule_eq

/-! ### Steps, by the schedule -/

theorem step_of_schedule {u : Turn} {rest : List Turn} (h : s.schedule = u :: rest) :
    step s = { s with schedule := rest }.take u := by
  simp only [step, State.turn, h]

/-- With no turn listed, a wait whose condition holds is BLOCK's to end. -/
theorem step_of_blockEnabled (hturns : s.schedule = []) (h : s.blockEnabled = true) : step s = .next s.advance := by
  simp [step, State.turn, hturns, State.defaultTurn, h, State.take, State.poll]

/-- R118: with no turn listed, an unsettled status is ENV's to settle where BLOCK waits. -/
theorem step_of_unsettled (hturns : s.schedule = []) (hblock : s.blockEnabled = false)
    (henv : s.params.env = .reference) (h : s.mcgS ≠ s.settle) : step s = .next { s with mcgS := s.settle } := by
  simp [step, State.turn, hturns, State.defaultTurn, hblock, henv, h, State.take, State.envStep_of_reference henv]

/-- R115: under FREE, with no turn listed, nobody moves in a wait whose condition does not hold. -/
theorem step_of_unconfirmed (hturns : s.schedule = []) (henv : s.params.env = .free) (hwait : s.phase.isWait = true)
    (h : s.phase.awaited s.mcgS = false) : step s = .next s := by
  simp [step, State.turn, hturns, State.defaultTurn, State.blockEnabled, State.busy, henv, hwait, h]

/-! ### Runs -/

theorem after_succ (h : step s = .next t) (n : Nat) : after (n + 1) s = after n t := by
  simp only [after, h]

theorem after_add (m n : Nat) (s : State) : after (m + n) s = (after m s).bind (after n) := by
  induction m generalizing s with
  | zero => simp [after]
  | succ m ih =>
    rw [Nat.add_right_comm]
    cases h : step s with
    | next t => rw [after_succ h, after_succ h, ih]
    | fault f => simp [after, h]
    | refused r => simp [after, h]

/-- A run goes on where its first part ends. -/
theorem after_add_of_some {m : Nat} (h : after m s = some t) (n : Nat) : after (m + n) s = after n t := by
  rw [after_add, h, Option.bind_some]

theorem after_of_hold (h : step s = .next s) (n : Nat) : after n s = some s := by
  induction n with
  | zero => rfl
  | succ n ih => rw [after_succ h, ih]

/-- R114: ENV confirms a wait and BLOCK ends it. -/
theorem after_env_block {p : Phase} {v : Byte} {rest : List Turn} (henv : s.params.env = .free)
    (hturns : s.schedule = .env v :: .block :: rest) (hp : s.phase = p) (h : p.awaited v = true) (n : Nat) :
    after (n + 2) s = after n ({ s with mcgS := v, schedule := rest } : State).advance := by
  have hdrive : step s = .next { s with mcgS := v, schedule := .block :: rest } := by
    rw [step_of_schedule hturns, State.take, State.envStep_of_free (by exact henv)]
  have hpoll : step { s with mcgS := v, schedule := .block :: rest }
      = .next ({ s with mcgS := v, schedule := rest } : State).advance := by
    rw [step_of_schedule rfl]
    exact State.take_block_of_awaited hp h
  rw [after_succ hdrive, after_succ hpoll]

/-! ### Fair runs -/

theorem keepsConfirming_blockEnabled (h : keepsConfirming s) : s.blockEnabled = true :=
  h 0 s rfl fun j x hj hx => by
    obtain rfl : j = 0 := by omega
    rw [Option.some.inj hx]

/-- A confirmation that is kept is still kept after a step that does not change the phase. -/
theorem keepsConfirming_of_step (h : keepsConfirming s) (hstep : step s = .next t) (hphase : t.phase = s.phase) :
    keepsConfirming t := by
  intro k v hv hsame
  refine h (k + 1) v (by rwa [after_succ hstep]) fun j x hj hx => ?_
  cases j with
  | zero => rw [Option.some.inj hx]
  | succ j => exact (hsame j x (by omega) (by rwa [after_succ hstep] at hx)).trans hphase

/-- R119: while the condition stays confirmed, the wait ends at the latest where the listed turns do, unless the run stops. -/
theorem wait_ends_of_keepsConfirming {turns : List Turn} (hturns : s.schedule = turns) (hwait : s.phase.isWait = true)
    (h : keepsConfirming s) : ∃ m, after m s = none ∨ ∃ u, after m s = some u ∧ u.phase ≠ s.phase := by
  induction turns generalizing s with
  | nil =>
    have hpoll := step_of_blockEnabled hturns (keepsConfirming_blockEnabled h)
    exact ⟨1, .inr ⟨s.advance, after_succ hpoll 0, State.advance_phase_ne hwait⟩⟩
  | cons turn rest ih =>
    cases hstep : step s with
    | fault f => exact ⟨1, .inl (by simp [after, hstep])⟩
    | refused r => exact ⟨1, .inl (by simp [after, hstep])⟩
    | next t =>
      by_cases hphase : t.phase = s.phase
      · have hrest : t.schedule = rest := take_schedule (by rwa [step_of_schedule hturns] at hstep)
        obtain ⟨m, hm⟩ := ih hrest (hphase ▸ hwait) (keepsConfirming_of_step h hstep hphase)
        exact ⟨m + 1, by rwa [after_succ hstep, ← hphase]⟩
      · exact ⟨1, .inr ⟨t, after_succ hstep 0, hphase⟩⟩

/-! ### Waits under REFERENCE -/

/-- The number of turns ENV still has to take under REFERENCE, from the status `v`, while `settle()` is `settled`. -/
def envTurnsLeft (v settled : Byte) : Nat := if v = settled then 0 else 1

theorem envTurnsLeft_self (v : Byte) : envTurnsLeft v v = 0 := if_pos rfl

theorem envTurnsLeft_of_ne {v settled : Byte} (h : v ≠ settled) : envTurnsLeft v settled = 1 := if_neg h

theorem envTurnsLeft_le_one (v settled : Byte) : envTurnsLeft v settled ≤ 1 := by
  unfold envTurnsLeft
  split <;> omega

/-- R118: under REFERENCE, with no turn listed, a wait that `settle()` confirms ends by one turn of BLOCK, and one of ENV
before it if the status is not yet settled and does not confirm the wait. -/
theorem wait_ends_under_reference {p : Phase} (hturns : s.schedule = []) (henv : s.params.env = .reference)
    (hp : s.phase = p) (h : p.awaited s.settle = true) :
    ∃ n v, after n s = some ({ s with mcgS := v } : State).advance ∧
      n + envTurnsLeft v s.settle ≤ 1 + envTurnsLeft s.mcgS s.settle := by
  subst hp
  by_cases hblock : s.blockEnabled = true
  · exact ⟨1, s.mcgS, after_succ (step_of_blockEnabled hturns hblock) 0, le_rfl⟩
  · have hne : s.mcgS ≠ s.settle := fun heq => hblock (by rwa [State.blockEnabled, heq])
    have hdrive := step_of_unsettled hturns (by simpa using hblock) henv hne
    have hpoll : step { s with mcgS := s.settle } = .next ({ s with mcgS := s.settle } : State).advance :=
      step_of_blockEnabled hturns h
    refine ⟨2, s.settle, ?_, ?_⟩
    · rw [after_succ hdrive, after_succ hpoll, after]
    · rw [envTurnsLeft_self, envTurnsLeft_of_ne hne]

end
end Sys2Proof.Laws

/-! ### The statements -/

namespace Sys2Proof.Proofs

open Sys2Proof.Machine Sys2Proof.Laws Sys2Proof.Safety

/-- Settles O23: each error by the first check that fails, the fields by the two registers' field writes. -/
theorem extRefWritesItsFieldsAndWaits : Obligations.ExtRefWritesItsFieldsAndWaits := by
  refine ⟨fun range div hrange hdiv => ?word, fun range div s hs => ?command, fun s hs hheld hmode htoken hc1 hc2 => ?worked,
    rfl⟩
  case word => exact decode_ofNat (by simp [Instr.WellFormed, Instr.wellFormed, hrange, hdiv]) (Nat.add_assoc ..)
  case command =>
    rw [← divisorTable_eq]
    refine ⟨fun hheld => ?_, fun hheld hmode => ?_, fun hheld hmode htoken => ?_, fun hheld hmode htoken hrange => ?_,
      fun hheld hmode htoken hrange hdiv => ?_, fun idx hheld hmode htoken hrange hdiv => ?success⟩
    · simp [exec, execMcgEnableExtRef, hs, hheld, next_raise]
    · simp [exec, execMcgEnableExtRef, hs, hheld, beq_false_of_ne hmode, next_raise]
    · simp [exec, execMcgEnableExtRef, hs, hheld, hmode, htoken, next_raise]
    · simp [exec, execMcgEnableExtRef, hs, hheld, hmode, htoken, Nat.not_le.mpr hrange, next_raise]
    · simp [exec, execMcgEnableExtRef, hs, hheld, hmode, htoken, hrange, tableIndex_eq_none.mpr hdiv, next_raise]
    case success =>
      have hidx : tableIndex range div = some idx := tableIndex_eq_some.mpr hdiv
      have hfit : idx % 2 ^ 3 = idx := Nat.mod_eq_of_lt (tableIndex_lt hidx)
      refine ⟨_, _, exec_mcgEnableExtRef hs hheld hmode htoken hrange hidx, ?_, ?_, ?_, ?_, ?_, ?_, ?_⟩
      · simp (disch := decide) only [field_setField_same, field_setField_other]
        omega
      · simp (disch := decide) only [field_setField_same, Nat.reducePow, Nat.reduceMod]
      · simp (disch := decide) only [setField_and_mask]
      · simp (disch := decide) only [field_setField_same, field_setField_other, Nat.reducePow, Nat.reduceMod]
      · simp (disch := decide) only [field_setField_same, field_setField_other, hfit]
      · simp (disch := decide) only [field_setField_same, Nat.reducePow, Nat.reduceMod]
      · simp (disch := decide) only [setField_and_mask]
  case worked =>
    have hidx : tableIndex 2 512 = some 4 := by decide
    refine ⟨_, exec_mcgEnableExtRef hs hheld hmode htoken (by decide) hidx, ?_, ?_, rfl⟩
    · simp only [hc2]
      decide
    · simp only [hc1]
      decide

/-- Settles O24: each error by the first check that fails, the fields by the two registers' field writes. -/
theorem pllWritesItsFieldsAndWaits : Obligations.PllWritesItsFieldsAndWaits := by
  refine ⟨fun num den hnum hden => ?word, fun num den s hs => ?command, fun s hs hheld hmode hc5 hc6 => ?worked, rfl⟩
  case word => exact decode_ofNat (by simp [Instr.WellFormed, Instr.wellFormed, hnum, hden]) (Nat.add_assoc ..)
  case command =>
    refine ⟨fun hheld => ?_, fun hheld hmode => ?_, fun hheld hmode hbad => ?_, fun hheld hmode hlow hhigh hbad => ?_,
      fun hheld hmode hlow hhigh hdlow hdhigh => ?success⟩
    · simp [exec, execMcgEnablePll, hs, hheld, next_raise]
    · simp [exec, execMcgEnablePll, hs, hheld, beq_false_of_ne hmode, next_raise]
    · have hnum : numeratorLegal num = false := by
        rw [← Bool.not_eq_true, numeratorLegal_iff]
        omega
      simp [exec, execMcgEnablePll, hs, hheld, hmode, hnum, next_raise]
    · have hnum : numeratorLegal num = true := numeratorLegal_iff.mpr ⟨hlow, hhigh⟩
      have hden : denominatorLegal den = false := by
        rw [← Bool.not_eq_true, denominatorLegal_iff]
        omega
      simp [exec, execMcgEnablePll, hs, hheld, hmode, hnum, hden, next_raise]
    case success =>
      have hnum : numeratorLegal num = true := numeratorLegal_iff.mpr ⟨hlow, hhigh⟩
      have hden : denominatorLegal den = true := denominatorLegal_iff.mpr ⟨hdlow, hdhigh⟩
      refine ⟨_, _, exec_mcgEnablePll hs hheld hmode hnum hden, ?_, ?_, ?_, ?_, ?_⟩
      · simp (disch := decide) only [field_setField_same]
        omega
      · simp (disch := decide) only [setField_and_mask]
      · simp (disch := decide) only [field_setField_same, field_setField_other, Nat.reducePow, Nat.reduceMod]
      · simp (disch := decide) only [field_setField_same]
        omega
      · simp (disch := decide) only [setField_and_mask]
  case worked =>
    refine ⟨_, exec_mcgEnablePll hs hheld hmode (by decide) (by decide), ?_, ?_, rfl⟩
    · simp only [hc5]
      decide
    · simp only [hc6]
      decide

/-- Settles O25: each error by the first check that fails, the field by the register's field write. -/
theorem selectPllSwitchesTheSourceAndWaits : Obligations.SelectPllSwitchesTheSourceAndWaits := by
  refine ⟨by decide, fun s hs => ⟨fun hheld => ?_, fun hheld hmode => ?_, fun hheld hmode => ?success⟩,
    fun s hs hheld hmode hc1 => ?worked, rfl, rfl⟩
  · simp [exec, execMcgSelectPll, hs, hheld, next_raise]
  · simp [exec, execMcgSelectPll, hs, hheld, beq_false_of_ne hmode, next_raise]
  case success =>
    refine ⟨_, exec_mcgSelectPll hs hheld hmode, ?_, ?_⟩
    · simp (disch := decide) only [field_setField_same, Nat.reducePow, Nat.reduceMod]
    · simp (disch := decide) only [setField_and_mask]
  case worked =>
    refine ⟨_, exec_mcgSelectPll hs hheld hmode, ?_, rfl⟩
    simp only [hc1]
    decide

/-- Settles O28, by the moves a step can make. -/
theorem modeGraphIsOneWay : Obligations.ModeGraphIsOneWay := by
  refine ⟨fun s t h hne hsome => ?mode, fun s t h hne => ?phase⟩
  case mode =>
    obtain ⟨p, q, hm⟩ := step_cases h
    exact hm.mode_source hne hsome
  case phase =>
    obtain ⟨p, q, hm⟩ := step_cases h
    rcases hm.phase_cases with hp | hp | hp | ⟨hidle, ⟨hp, hmode⟩ | ⟨hp, hmode⟩ | ⟨hp, hmode, hkept⟩⟩ | ⟨hwait, hp⟩ |
      ⟨hwait, hp⟩ | ⟨hwait, hp⟩
    · exact absurd hp hne
    · simp [hp]
    · simp [hp]
    · simpa [hp] using ⟨hidle, hmode⟩
    · simpa [hp] using ⟨hidle, hmode⟩
    · simpa [hp] using ⟨hidle, hmode, hkept⟩
    · simpa [hp] using hwait
    · simpa [hp] using hwait
    · simpa [hp] using hwait

/-- Settles O30, wait by wait: each pair of turns confirms one wait and ends it. -/
theorem confirmedTransitionsComplete : Obligations.ConfirmedTransitionsComplete := by
  refine ⟨fun s v1 v2 v3 rest henv hp h1 h2 h3 hturns => ?extRef, fun s v1 v2 rest henv hp h1 h2 hturns => ?pll⟩
  case extRef =>
    have hirefst : Phase.wIrefst.awaited v2 = true := congrArg not h2
    have hclkst : Phase.wClkstExt.awaited v3 = true := by simp [Phase.awaited, h3]
    rw [after_env_block henv hturns hp h1, State.advance_of_wOscinit (by exact hp),
      after_env_block (by exact henv) rfl rfl hirefst, State.advance_of_wIrefst (by rfl),
      after_env_block (by exact henv) rfl rfl hclkst, State.advance_of_wClkstExt (by rfl), after]
  case pll =>
    have hlock : Phase.wLock.awaited v2 = true := h2
    rw [after_env_block henv hturns hp h1, State.advance_of_wPllst (by exact hp),
      after_env_block (by exact henv) rfl rfl hlock, State.advance_of_wLock (by rfl), after]

/-- Settles O31: nobody moves, so every step is a hold. -/
theorem unconfirmedWaitHangs : Obligations.UnconfirmedWaitHangs := by
  intro s henv hturns hwait h
  have hhold := after_of_hold (step_of_unconfirmed hturns henv hwait h)
  exact ⟨fun n => ⟨s, hhold n, hwait⟩, hhold⟩

/-- Settles O32: from where the run keeps the wait confirmed, BLOCK ends it when the listed turns are used up. -/
theorem fairRunsLeaveEveryWait : Obligations.FairRunsLeaveEveryWait := by
  intro s hfair h n t ht hwait
  rcases h hfair n t ht hwait with hstop | ⟨m, u, hu, hleft | hkeeps⟩
  · exact .inl hstop
  · exact .inr ⟨m, u, hu, hleft⟩
  · by_cases hphase : u.phase = t.phase
    · obtain ⟨k, hk⟩ := wait_ends_of_keepsConfirming rfl (hphase ▸ hwait) hkeeps
      rw [← after_add_of_some hu, hphase] at hk
      exact hk.imp (⟨_, ·⟩) fun ⟨v, hv, hne⟩ => ⟨_, v, hv, hne⟩
    · exact .inr ⟨m, u, hu, hphase⟩

/-- Settles O33: `settle()` confirms all three waits, and ENV takes at most one turn in all. -/
theorem referenceCompletesTheExternalReference : Obligations.ReferenceCompletesTheExternalReference := by
  intro s henv hturns hp herefs hirefs hclks
  obtain ⟨-, -, -, hirefst, hclkst, hoscinit, -⟩ := field_settleOf s.mcgC1 s.mcgC2 s.mcgC6
  rw [herefs, field_one_eq_toNat, Bool.toNat_eq_one] at hoscinit
  rw [hirefs, field_one_eq_toNat, Bool.toNat_eq_zero] at hirefst
  have hclkstExt : Phase.wClkstExt.awaited s.settle = true := by
    rw [Phase.awaited, State.settle, hclkst, settleClkst_eq, hclks]
    rfl
  obtain ⟨n1, v1, h1, hcost1⟩ := wait_ends_under_reference hturns henv hp hoscinit
  rw [State.advance_of_wOscinit (by exact hp)] at h1
  obtain ⟨n2, v2, h2, hcost2⟩ :=
    wait_ends_under_reference (s := { s with mcgS := v1, phase := .wIrefst }) hturns henv rfl (congrArg not hirefst)
  rw [State.advance_of_wIrefst (by rfl)] at h2
  obtain ⟨n3, v3, h3, hcost3⟩ :=
    wait_ends_under_reference (s := { s with mcgS := v2, phase := .wClkstExt }) hturns henv rfl hclkstExt
  rw [State.advance_of_wClkstExt (by rfl)] at h3
  have hrun : after (n1 + n2) s = some { s with mcgS := v2, phase := .wClkstExt } := by
    rw [after_add_of_some h1, h2]
  have hbound : n1 + n2 + n3 ≤ 4 := by
    replace hcost2 : n2 + envTurnsLeft v2 s.settle ≤ 1 + envTurnsLeft v1 s.settle := hcost2
    replace hcost3 : n3 + envTurnsLeft v3 s.settle ≤ 1 + envTurnsLeft v2 s.settle := hcost3
    have hone := envTurnsLeft_le_one s.mcgS s.settle
    omega
  exact ⟨n1 + n2 + n3, _, hbound, (after_add_of_some hrun n3).trans h3, rfl, rfl, rfl⟩

/-- Settles O34, by the agent whose turn it is and the fields of `settle()`. -/
theorem envDrivesOnlyTheStatus : Obligations.EnvDrivesOnlyTheStatus := by
  refine ⟨fun s v henv => ?free, fun s v henv => ?reference, fun s t u h hne => ?others, by decide⟩
  case free => rw [State.take, State.envStep_of_free henv]
  case reference =>
    refine ⟨s.settle, by rw [State.take, State.envStep_of_reference henv], ?_⟩
    rw [← settleClkst_eq]
    exact field_settleOf s.mcgC1 s.mcgC2 s.mcgC6
  case others =>
    cases u with
    | host => exact absurd (hostStep_mcgS h) hne
    | block => exact absurd (Host.Outcome.next.inj h ▸ poll_mcgS s) hne
    | env v => exact .inl ⟨v, rfl⟩
    | reset src => exact .inr ⟨src, rfl⟩

/-- Settles O22, by the values of bits 4 and 5. -/
theorem classifyReadsTheStatusBits : Obligations.ClassifyReadsTheStatusBits := by
  intro v
  rw [field_one_eq_toNat, field_one_eq_toNat, classify]
  generalize field v 2 2 = clkst
  cases v.getLsbD 4 with
  | true => cases v.getLsbD 5 <;> by_cases h : clkst = 0 <;> simp [h]
  | false =>
    cases v.getLsbD 5 with
    | true => by_cases h : clkst = 2 ∨ clkst = 3 <;> simp [h]
    | false => by_cases h : clkst = 2 <;> simp [h]

/-- Settles O26, wait by wait. -/
theorem extRefWaitsInOrder : Obligations.ExtRefWaitsInOrder := by
  refine fun s => ⟨fun hp => ⟨fun h => ?_, fun h => ?_⟩, fun hp => ⟨fun h => ?_, fun h => ?_⟩,
    fun hp => ⟨fun h => ?_, fun h => ?_⟩⟩
  · rw [State.take_block_of_awaited hp h, State.advance_of_wOscinit hp]
  · exact State.take_block_of_not_awaited hp h
  · rw [State.take_block_of_awaited hp (congrArg not h), State.advance_of_wIrefst hp]
  · exact State.take_block_of_not_awaited hp (congrArg not h)
  · rw [State.take_block_of_awaited hp (by simp [Phase.awaited, h]), State.advance_of_wClkstExt hp]
  · exact State.take_block_of_not_awaited hp (by simp [Phase.awaited, h])

/-- Settles O27, wait by wait. -/
theorem pllWaitsInOrder : Obligations.PllWaitsInOrder := by
  refine fun s => ⟨fun hp => ⟨fun h => ?_, fun h => ?_⟩, fun hp => ⟨fun h => ?_, fun h => ?_⟩,
    fun hp => ⟨fun h => ?_, fun h => ?_⟩⟩
  · rw [State.take_block_of_awaited hp h, State.advance_of_wPllst hp]
  · exact State.take_block_of_not_awaited hp h
  · rw [State.take_block_of_awaited hp h, State.advance_of_wLock hp]
  · exact State.take_block_of_not_awaited hp h
  · rw [State.take_block_of_awaited hp (by simp [Phase.awaited, h]), State.advance_of_wClkstPll hp]
  · exact State.take_block_of_not_awaited hp (by simp [Phase.awaited, h])

end Sys2Proof.Proofs
end

section
/-!
PROOFS. The statements of 42_oscillator.md: the control byte OSC_ENABLE writes, and the writers of `OSC_CR` and the token.
-/

/-! ### The control byte -/

namespace Sys2Proof.Machine

/-- R131: the capacitances a command may ask for. -/
theorem capacitanceLegal_iff {cap : Nat} : capacitanceLegal cap = true ↔ cap % 2 = 0 ∧ cap ≤ 30 := by
  simp [capacitanceLegal]

/-- R13. -/
theorem getLsbD_rev4 (c : BitVec 4) {k : Nat} (hk : k < 4) : (rev4 c).getLsbD k = c.getLsbD (3 - k) := by
  revert c k
  decide

/-- R131, R132: the enable nibble above the reversed capacitance. -/
theorem oscControl_eq_append (cap : Nat) : oscControl cap = 0x8#4 ++ rev4 (BitVec.ofNat 4 (cap / 2)) := by
  unfold oscControl
  generalize rev4 (BitVec.ofNat 4 (cap / 2)) = c
  revert c
  decide

theorem field_oscControl_enable (cap : Nat) : field (oscControl cap) 7 1 = 1 := by
  rw [oscControl_eq_append, field_append_high _ _ (by decide)]
  rfl

theorem field_oscControl_middle (cap : Nat) : field (oscControl cap) 4 3 = 0 := by
  rw [oscControl_eq_append, field_append_high _ _ (by decide)]
  rfl

/-- R132: the low nibble holds the bits of `CAP / 2` in reverse. -/
theorem getLsbD_oscControl (cap : Nat) {k : Nat} (hk : k < 4) :
    (oscControl cap).getLsbD k = (cap / 2).testBit (3 - k) := by
  rw [oscControl_eq_append, BitVec.getLsbD_append, if_pos hk, getLsbD_rev4 _ hk, BitVec.getLsbD_ofNat,
    decide_eq_true (show 3 - k < 4 by omega), Bool.true_and]

/-- R133: the bytes of the sixteen legal capacitances. -/
theorem oscControl_table : (List.range 16).map (fun c => oscControl (2 * c)) =
    [0x80, 0x88, 0x84, 0x8C, 0x82, 0x8A, 0x86, 0x8E, 0x81, 0x89, 0x85, 0x8D, 0x83, 0x8B, 0x87, 0x8F] := by
  decide

/-! ### The turns of BLOCK and ENV -/

theorem State.advance_eq (s : State) : ∃ p m, s.advance = { s with phase := p, mode := m } := by
  unfold State.advance
  split <;> exact ⟨_, _, rfl⟩

/-- A turn of BLOCK or ENV writes nothing but the phase, the mode and `MCG_S`. -/
theorem State.take_block_or_env {s t : State} {v : Byte} (h : s.take .block = .next t ∨ s.take (.env v) = .next t) :
    ∃ p m w, t = { s with phase := p, mode := m, mcgS := w } := by
  rcases h with h | h <;> obtain rfl := Host.Outcome.next.inj h
  · rcases s.poll_cases with ⟨_, hpoll⟩ | ⟨_, hpoll⟩ <;> rw [hpoll]
    · obtain ⟨p, m, hadvance⟩ := s.advance_eq
      exact ⟨p, m, _, hadvance⟩
    · exact ⟨_, _, _, rfl⟩
  · obtain ⟨w, henv⟩ := s.envStep_eq v
    exact ⟨_, _, w, henv⟩

end Sys2Proof.Machine

/-! ### The command, and the writers of `OSC_CR` and the token -/

namespace Sys2Proof.Laws

open Sys2Proof.Machine

/-- R131: with its two checks passed, OSC_ENABLE makes its writes. -/
theorem exec_oscEnable {s : State} {cap : Nat} (hs : s.phase = .idle) (hheld : s.oscHeld = true)
    (hcap : capacitanceLegal cap = true) :
    exec (.oscEnable cap) s = .next { s with oscCr := oscControl cap, oscToken := true } := by
  simp [exec, execOscEnable, hs, hheld, hcap]

namespace Performed

variable {i : Instr} {s t : State}

theorem oscCr_writers (h : Performed i s t) (hne : t.oscCr ≠ s.oscCr) : ∃ cap, i = .oscEnable cap := by
  cases h with
  | oscEnable => exact ⟨_, rfl⟩
  | _ => exact absurd rfl hne

/-- R30, R134: the token is set by one command and cleared by one other. -/
theorem oscToken_writers (h : Performed i s t) (hne : t.oscToken ≠ s.oscToken) :
    (t.oscToken = true ∧ ∃ cap, i = .oscEnable cap) ∨
      (t.oscToken = false ∧ ∃ range div, i = .mcgEnableExtRef range div) := by
  cases h with
  | oscEnable => exact .inl ⟨rfl, _, rfl⟩
  | mcgEnableExtRef => exact .inr ⟨rfl, _, _, rfl⟩
  | _ => exact absurd rfl hne

end Performed

end Sys2Proof.Laws

/-! ### The statements -/

namespace Sys2Proof.Proofs

open Sys2Proof.Machine Sys2Proof.Laws Sys2Proof.Safety

/-- Settles O20: each error by the first check that fails, the byte bit by bit as a concatenation of two nibbles. -/
theorem oscEnableWritesTheControlByte : Obligations.OscEnableWritesTheControlByte := by
  refine ⟨fun cap hcap => ?word, fun cap s hs => ⟨fun hheld => ?_, fun hheld hbad => ?_, fun hheld heven hle => ?success⟩,
    fun s hs hheld => ?table, rfl, rfl⟩
  case word => exact decode_ofNat (by simp [Instr.WellFormed, Instr.wellFormed, hcap]) rfl
  · simp [exec, execOscEnable, hs, hheld, next_raise]
  · have hcap : capacitanceLegal cap = false := by
      rw [← Bool.not_eq_true, capacitanceLegal_iff]
      omega
    simp [exec, execOscEnable, hs, hheld, hcap, next_raise]
  case success =>
    exact ⟨_, exec_oscEnable hs hheld (capacitanceLegal_iff.mpr ⟨heven, hle⟩), field_oscControl_enable cap,
      field_oscControl_middle cap, getLsbD_oscControl cap (by decide), getLsbD_oscControl cap (by decide),
      getLsbD_oscControl cap (by decide), getLsbD_oscControl cap (by decide)⟩
  case table =>
    rw [← oscControl_table, List.map_map]
    refine List.map_congr_left fun c hc => exec_oscEnable hs hheld (capacitanceLegal_iff.mpr ?_)
    have hlt : c < 16 := List.mem_range.mp hc
    omega

/-- Settles O21, by what a performed command writes and what the turns of BLOCK and ENV write. -/
theorem onlyOscEnableMakesTheToken : Obligations.OnlyOscEnableMakesTheToken := by
  refine ⟨fun i s t h => ?command, fun s t v h => ?turn⟩
  case command =>
    have hcr : t.oscCr ≠ s.oscCr → ∃ cap, i = .oscEnable cap := fun hne =>
      (performed_of_changed State.oscCr (fun _ => rfl) h hne).oscCr_writers hne
    have htoken : t.oscToken ≠ s.oscToken → (t.oscToken = true ∧ ∃ cap, i = .oscEnable cap) ∨
        (t.oscToken = false ∧ ∃ range div, i = .mcgEnableExtRef range div) := fun hne =>
      (performed_of_changed State.oscToken (fun _ => rfl) h hne).oscToken_writers hne
    refine ⟨hcr, fun hclear hset => ?_, fun hset hclear => ?_, ?release⟩
    · simpa [hclear, hset] using htoken
    · simpa [hclear, hset] using htoken
    case release =>
      rintro rfl
      exact ⟨by simpa using hcr, by simpa using htoken⟩
  case turn =>
    obtain ⟨p, m, w, rfl⟩ := State.take_block_or_env h
    exact ⟨rfl, rfl⟩

end Sys2Proof.Proofs
end

section
/-!
PROOFS. The statements of 43_clock_gate.md: the one gate bit and owner that GATE_ACQUIRE and GATE_RELEASE write, the three
fields of SIM_SET_DIVIDERS, and the alias words of the gates.
-/

/-! ### Operands and reads -/

namespace Sys2Proof.Machine

open Sys2Proof.Safety

/-- R140: the operands that name no gate register. -/
theorem gateRegOf_eq_none {n : Nat} : gateRegOf n = none ↔ n < 4 ∨ 7 < n := by
  unfold gateRegOf
  split
  case h_5 => grind
  all_goals simp

theorem exists_gateRegOf {n : Nat} (hlow : 4 ≤ n) (hhigh : n ≤ 7) : ∃ r, gateRegOf n = some r := by
  refine Option.ne_none_iff_exists'.mp fun h => ?_
  have := gateRegOf_eq_none.mp h
  omega

@[simp] theorem gateRegOf_number (r : GateReg) : gateRegOf (gateRegNumber r) = some r :=
  gateRegOf_eq_some.mpr rfl

@[simp] theorem below32_val (b : Fin 32) : below32 b = some b :=
  below32_eq_some.mpr rfl

/-- R144: the legal divide ratios. -/
theorem ratioLegal_iff {v : Nat} : ratioLegal v = true ↔ 1 ≤ v ∧ v ≤ 16 := by
  simp [ratioLegal]

theorem ratioLegal_eq_false {v : Nat} : ratioLegal v = false ↔ v < 1 ∨ 16 < v := by
  rw [← Bool.not_eq_true, ratioLegal_iff]
  omega

/-- R144: a legal ratio less one fits its four-bit field. -/
theorem ratio_pred_mod {v : Nat} (h : 1 ≤ v) (h' : v ≤ 16) : (v - 1) % 2 ^ 4 = v - 1 :=
  Nat.mod_eq_of_lt (by omega)

/-- R61: the read of a gate register at its own address. -/
theorem State.memRead_scgc {s : State} (h : paramsOk s.params = true) (r : GateReg) :
    s.memRead (BitVec.ofNat 32 (0x40048034 + 4 * (gateRegNumber r - 4))) 4 = .ok (s.scgcOf r) :=
  s.memRead_addr h (.scgc r)

/-- R138: the word of a gate just written reads what was written. -/
theorem State.memRead_gateWord_setGate {s : State} (h : paramsOk s.params = true) (g : Gate) (on : Bool) (o : Owner) :
    (s.setGate g on o).memRead (BitVec.ofNat 32 (gateAddr g)) 4 = .ok (if on = true then 1 else 0) := by
  have hread := State.memRead_gateWord (s := s.setGate g on o) h g
  rwa [State.gateBit_setGate, if_pos rfl] at hread

end Sys2Proof.Machine

/-! ### The gate commands and the dividers, their checks passed -/

namespace Sys2Proof.Laws

open Sys2Proof.Machine

section
variable {s : State} (hs : s.phase = .idle)
include hs

/-- R140. -/
theorem exec_gateAcquire {g : Gate} (hheld : s.simHeld = true) (hclear : s.gateBit g = false) :
    exec (.gateAcquire (gateRegNumber g.reg) g.bit) s = .next (s.setGate g true .host) := by
  simp [exec, execGateAcquire, hs, hheld, hclear]

/-- R141. -/
theorem exec_gateRelease {g : Gate} (howner : s.ownerOf g = .host) :
    exec (.gateRelease (gateRegNumber g.reg) g.bit) s = .next (s.setGate g false .nobody) := by
  simp [exec, execGateRelease, hs, howner]

/-- R146. -/
theorem exec_simSetDividers {core bus flash : Nat} (hheld : s.simHeld = true) (hcore : ratioLegal core = true)
    (hbus : ratioLegal bus = true) (hflash : ratioLegal flash = true) :
    exec (.simSetDividers core bus flash) s = .next { s with
      clkdiv1 := setField (setField (setField s.clkdiv1 28 4 (core - 1)) 24 4 (bus - 1)) 16 4 (flash - 1) } := by
  simp [exec, execSimSetDividers, hs, hheld, hcore, hbus, hflash]

end

end Sys2Proof.Laws

/-! ### The statements -/

namespace Sys2Proof.Proofs

open Sys2Proof.Machine Sys2Proof.Laws Sys2Proof.Safety

/-- Settles O35: each error by the first check that fails, the bit and the owner by what `setGate` writes. -/
theorem gateAcquireSetsOneBit : Obligations.GateAcquireSetsOneBit := by
  refine ⟨fun reg bit hreg hbit => ?word,
    fun reg bit s hs => ⟨fun hheld => ?_, fun hheld hreg => ?_, fun hheld hlow hhigh hbit => ?_⟩,
    fun g s hs hheld => ⟨fun hset => ?_, fun hclear => ?success⟩, fun s hs hheld hscgc => ?worked, rfl⟩
  case word => exact decode_ofNat (by simp [Instr.WellFormed, Instr.wellFormed, hreg, hbit]) (Nat.add_assoc ..)
  · simp [exec, execGateAcquire, hs, hheld, next_raise]
  · simp [exec, execGateAcquire, hs, hheld, gateRegOf_eq_none.mpr hreg, next_raise]
  · obtain ⟨r, hr⟩ := exists_gateRegOf hlow hhigh
    simp [exec, execGateAcquire, hs, hheld, hr, below32_of_not_lt (Nat.not_lt.mpr hbit), next_raise]
  · simp [exec, execGateAcquire, hs, hheld, hset, next_raise]
  case success =>
    exact ⟨_, exec_gateAcquire hs hheld hclear, rfl, (s.gateBit_setGate g · true .host), (s.ownerOf_setGate g · true .host)⟩
  case worked =>
    have hclear : s.gateBit ⟨.scgc4, 10⟩ = false := by
      rw [State.gateBit, hscgc]
      decide
    refine ⟨_, exec_gateAcquire (g := ⟨.scgc4, 10⟩) hs hheld hclear, ?_, by simp⟩
    rw [State.scgcOf_setGate, hscgc]
    decide

/-- Settles O36: each error by the first check that fails, the bit and the owner by what `setGate` writes. -/
theorem gateReleaseClearsOneBit : Obligations.GateReleaseClearsOneBit := by
  refine ⟨fun reg bit hreg hbit => ?word, fun reg bit s hs => ⟨fun hreg => ?_, fun hlow hhigh hbit => ?_⟩,
    fun g s hs => ⟨fun howner => ?_, fun howner => ?success⟩, fun s hs hscgc howner => ?worked, rfl⟩
  case word => exact decode_ofNat (by simp [Instr.WellFormed, Instr.wellFormed, hreg, hbit]) (Nat.add_assoc ..)
  · simp [exec, execGateRelease, hs, gateRegOf_eq_none.mpr hreg, next_raise]
  · obtain ⟨r, hr⟩ := exists_gateRegOf hlow hhigh
    simp [exec, execGateRelease, hs, hr, below32_of_not_lt (Nat.not_lt.mpr hbit), next_raise]
  · simp [exec, execGateRelease, hs, beq_false_of_ne howner, next_raise]
  case success =>
    exact ⟨_, exec_gateRelease hs howner, rfl, (s.gateBit_setGate g · false .nobody),
      (s.ownerOf_setGate g · false .nobody)⟩
  case worked =>
    refine ⟨_, exec_gateRelease (g := ⟨.scgc4, 10⟩) hs howner, ?_, by simp⟩
    rw [State.scgcOf_setGate, hscgc]
    decide

/-- Settles O37: each error by the first check that fails, the fields by the register's three field writes. -/
theorem setDividersWritesThreeFields : Obligations.SetDividersWritesThreeFields := by
  refine ⟨fun core bus flash hcore hbus hflash => ?word,
    fun core bus flash s hs => ⟨fun hheld => ?_, fun hheld hcore => ?_, fun hheld hc hc' hbus => ?_,
      fun hheld hc hc' hb hb' hflash => ?_, fun hheld hc hc' hb hb' hf hf' => ?success⟩,
    fun s hs hheld hdiv => ?worked, rfl⟩
  case word =>
    exact decode_ofNat (by simp [Instr.WellFormed, Instr.wellFormed, hcore, hbus, hflash])
      (by simp only [Instr.opcode, Instr.operandBits, Nat.add_assoc])
  · simp [exec, execSimSetDividers, hs, hheld, next_raise]
  · simp [exec, execSimSetDividers, hs, hheld, ratioLegal_eq_false.mpr hcore, next_raise]
  · simp [exec, execSimSetDividers, hs, hheld, ratioLegal_iff.mpr ⟨hc, hc'⟩, ratioLegal_eq_false.mpr hbus, next_raise]
  · simp [exec, execSimSetDividers, hs, hheld, ratioLegal_iff.mpr ⟨hc, hc'⟩, ratioLegal_iff.mpr ⟨hb, hb'⟩,
      ratioLegal_eq_false.mpr hflash, next_raise]
  case success =>
    refine ⟨_, exec_simSetDividers hs hheld (ratioLegal_iff.mpr ⟨hc, hc'⟩) (ratioLegal_iff.mpr ⟨hb, hb'⟩)
      (ratioLegal_iff.mpr ⟨hf, hf'⟩), ?_, ?_, ?_, ?_⟩
    · simp (disch := decide) only [field_setField_same, field_setField_other, ratio_pred_mod hc hc']
    · simp (disch := decide) only [field_setField_same, field_setField_other, ratio_pred_mod hb hb']
    · simp (disch := decide) only [field_setField_same, ratio_pred_mod hf hf']
    · simp (disch := decide) only [setField_and_mask]
  case worked =>
    have hword : setField (setField (setField (0x00010000 : Word) 28 4 0) 24 4 1) 16 4 2 = 0x01020000 := by decide
    rw [exec_simSetDividers hs hheld rfl rfl rfl, hdiv, hword]

/-- Settles O38: the reads of the gate's two registers, before and after `setGate`. -/
theorem gateAliasShowsTheGateBit : Obligations.GateAliasShowsTheGateBit := by
  refine ⟨fun n b => rfl, fun s g hp => ⟨State.memRead_gateWord hp g, State.memRead_scgc hp g.reg, rfl⟩,
    fun s g hp hs hheld hclear => ?acquire, fun s g hp hs howner => ?release, rfl⟩
  case acquire => exact ⟨_, exec_gateAcquire hs hheld hclear, State.memRead_gateWord_setGate hp g true .host⟩
  case release => exact ⟨_, exec_gateRelease hs howner, State.memRead_gateWord_setGate hp g false .nobody⟩

end Sys2Proof.Proofs
end

section
/-!
PROOFS. The statements of 44_port_pin.md: the port's gate that PORT_ACQUIRE and PORT_RELEASE write, the checks common to the pin
commands, and what each of the five pin commands does once they have passed.
-/

/-! ### Operands, locks and the common checks -/

namespace Sys2Proof.Machine

/-- R84: the operands that name no port. -/
theorem portOf_eq_none {n : Nat} : portOf n = none ↔ n ≠ 1 ∧ n ≠ 2 := by
  unfold portOf
  split
  case h_3 hb hc => simpa using ⟨hb, hc⟩
  all_goals simp

@[simp] theorem portOf_number (p : Port) : portOf (portNumber p) = some p :=
  portOf_eq_some.mpr rfl

/-- R157: the operands that name no serial unit. -/
theorem unitOf_eq_none {n : Nat} (h : n ≠ 0) : unitOf n = none :=
  Option.eq_none_iff_forall_ne_some.mpr fun _ hu => h (unitOf_eq_some.mp hu)

section
variable {s : State} {q : Pin}

/-- R34. -/
theorem State.locked_eq_false : s.locked q = false ↔ s.capOf q = .free := by
  simp [State.locked]

/-- R34. -/
theorem State.locked_eq_true : s.locked q = true ↔ s.capOf q ≠ .free := by
  simp [State.locked]

/-- R152: a port is free when none of its pins holds a capability. -/
theorem State.portInUse_eq_false {p : Port} : s.portInUse p = false ↔ ∀ i, s.capOf ⟨p, i⟩ = .free := by
  rw [← Bool.not_eq_true, State.portInUse_iff]
  simp [State.locked]

/-- R38: the lock bit of the pin whose capability is written. -/
theorem State.getLsbD_locks_setCap (s : State) (q : Pin) (c : Cap) :
    ((s.setCap q c).locks q.port).getLsbD q.idx = (c != .free) := by
  simp only [State.getLsbD_locks, State.locked_setCap, if_true]

/-! The checks of `check_pin` (R149), each failing where those before it pass. -/

theorem State.checkPin_badPort {port : Nat} (h : port ≠ 1) (h' : port ≠ 2) (idx : Nat) (d : Pin → State) :
    s.checkPin port idx d = s.raise .badPort := by
  simp [State.checkPin, portOf_eq_none.mpr ⟨h, h'⟩]

theorem State.checkPin_notOwned {p : Port} (h : s.portHeld p = false) (idx : Nat) (d : Pin → State) :
    s.checkPin (portNumber p) idx d = s.raise .notOwned := by
  simp [State.checkPin, h]

theorem State.checkPin_badPinIndex {p : Port} (h : s.portHeld p = true) {idx : Nat} (hidx : 31 < idx) (d : Pin → State) :
    s.checkPin (portNumber p) idx d = s.raise .badPinIndex := by
  simp [State.checkPin, h, below32_of_not_lt (Nat.not_lt.mpr hidx)]

/-! The checks of a conversion (R155). -/

theorem State.checkPlainPin_free (h : s.capOf q = .free) (d : State) : s.checkPlainPin q d = s.raise .notOwned := by
  simp [State.checkPlainPin, State.locked_eq_false.mpr h]

theorem State.checkPlainPin_converted (h : s.capOf q ≠ .free) (h' : s.capOf q ≠ .pin) (d : State) :
    s.checkPlainPin q d = s.raise .pinAlreadyConverted := by
  simp [State.checkPlainPin, State.locked_eq_true.mpr h, beq_false_of_ne h']

/-- R48, R156 to R158: a conversion writes the capability and the mux field of one pin, and nothing else. -/
theorem State.convert_effect (s : State) (q : Pin) {mux : Nat} (hmux : mux < 2 ^ 3) (c : Cap) :
    let t := s.convert q mux c
    t = { s with cap := t.cap, pcr := t.pcr } ∧
      (∀ r, t.capOf r = if r = q then c else s.capOf r) ∧
      (∀ r, r ≠ q → t.pcrOf r = s.pcrOf r) ∧
      field (t.pcrOf q) 8 3 = mux ∧ t.pcrOf q &&& 0xFFFFF8FF = s.pcrOf q &&& 0xFFFFF8FF := by
  refine ⟨rfl, (s.capOf_convert q · mux c), fun r hr => by simp [hr], ?_, ?_⟩
  · rw [State.pcrOf_convert, if_pos rfl, field_setField_same _ _ _ _ (by decide), Nat.mod_eq_of_lt hmux]
  · rw [State.pcrOf_convert, if_pos rfl, setField_and_mask _ _ _ _ _ (by decide)]

end

/-! ### The conversion to a serial line -/

/-- What PIN_MAKE_RX and PIN_MAKE_TX do on a plain PIN (R157, R158), for the pin wired to each unit's line, the code for any
other pin, and the capability derived; `convertsPin_pinMakeRx` and `convertsPin_pinMakeTx` tie it to the commands. -/
def State.convertWired (s : State) (unit : Nat) (wired : SerialUnit → Pin) (mismatch : FatalCode) (c : SerialUnit → Cap)
    (q : Pin) : State :=
  s.given (unitOf unit) .badSerialUnit fun u =>
  s.require (q == wired u) mismatch <|
  s.convert q 3 (c u)

/-- The three answers of a conversion to a serial line, by the first check that fails. -/
theorem State.convertWired_eq (s : State) (unit : Nat) (wired : SerialUnit → Pin) (mismatch : FatalCode)
    (c : SerialUnit → Cap) (q : Pin) :
    (unit ≠ 0 → s.convertWired unit wired mismatch c q = s.raise .badSerialUnit) ∧
      (unit = 0 → q ≠ wired .unit0 → s.convertWired unit wired mismatch c q = s.raise mismatch) ∧
      (unit = 0 → q = wired .unit0 → s.convertWired unit wired mismatch c q = s.convert q 3 (c .unit0)) := by
  refine ⟨fun hunit => ?_, ?_, ?_⟩
  · simp [State.convertWired, unitOf_eq_none hunit]
  · rintro rfl hq
    simp [State.convertWired, unitOf, beq_false_of_ne hq]
  · rintro rfl hq
    simp [State.convertWired, unitOf, hq]

end Sys2Proof.Machine

namespace Sys2Proof.Safety

open Sys2Proof.Machine

/-- R35.3, R35.4: no pin of a port whose gate is clear holds a capability. -/
theorem OwnershipInv.capOf_eq_free {s : State} (h : OwnershipInv s) {p : Port}
    (hclear : s.gateBit (s.params.portGate p) = false) (i : Fin 32) : s.capOf ⟨p, i⟩ = .free := by
  by_contra hcap
  have hheld : s.portHeld p = true := h.cap_port ⟨p, i⟩ (State.locked_eq_true.mpr hcap)
  simp [State.portHeld, h.ownerOf_eq_nobody hclear] at hheld

end Sys2Proof.Safety

/-! ### The port and pin commands, their checks passed -/

namespace Sys2Proof.Laws

open Sys2Proof.Machine Sys2Proof.Safety

theorem fatalWith_of_raise {s d : State} {c : FatalCode} (h : d = s.raise c) :
    (Host.Outcome.next d : Result) = fatalWith s c := by
  rw [h, next_raise]

section
variable {s : State} (hs : s.phase = .idle)
include hs

/-- R151. -/
theorem exec_portAcquire {p : Port} (hheld : s.simHeld = true) (hclear : s.gateBit (s.params.portGate p) = false) :
    exec (.portAcquire (portNumber p)) s = .next (s.setGate (s.params.portGate p) true (.port p)) := by
  simp [exec, execPortAcquire, hs, hheld, hclear]

/-- R152. -/
theorem exec_portRelease {p : Port} (hheld : s.portHeld p = true) (hfree : ∀ i, s.capOf ⟨p, i⟩ = .free) :
    exec (.portRelease (portNumber p)) s = .next (s.setGate (s.params.portGate p) false .nobody) := by
  simp [exec, execPortRelease, hs, hheld, State.portInUse_eq_false.mpr hfree]

end

/-- A command that begins with `check_pin` and goes on with `done` on the pin it names (R149). -/
def OnPin (command : Nat → Nat → Instr) (done : State → Pin → State) : Prop :=
  ∀ port idx s, exec (command port idx) s = .next (s.issue (s.checkPin port idx (done s)))

/-- A command that goes on to check for a plain PIN and then converts it by `done` (R155). -/
def ConvertsPin (command : Nat → Nat → Instr) (done : State → Pin → State) : Prop :=
  OnPin command fun s q => s.checkPlainPin q (done s q)

theorem onPin_pinAcquire : OnPin .pinAcquire fun s q => s.require (!s.locked q) .pinLocked (s.setCap q .pin) :=
  fun _ _ _ => rfl

theorem onPin_pinRelease : OnPin .pinRelease fun s q => s.require (s.locked q) .notOwned (s.setCap q .free) :=
  fun _ _ _ => rfl

theorem convertsPin_pinMakeGpio : ConvertsPin .pinMakeGpio fun s q => s.convert q 1 .gpio :=
  fun _ _ _ => rfl

theorem convertsPin_pinMakeRx (unit : Nat) :
    ConvertsPin (.pinMakeRx unit) fun s => s.convertWired unit s.params.rxPin .rxPinMismatch .rx :=
  fun _ _ _ => rfl

theorem convertsPin_pinMakeTx (unit : Nat) :
    ConvertsPin (.pinMakeTx unit) fun s => s.convertWired unit s.params.txPin .txPinMismatch .tx :=
  fun _ _ _ => rfl

section
variable {command : Nat → Nat → Instr} {done : State → Pin → State} {s : State} {q : Pin}

theorem OnPin.exec_eq (h : OnPin command done) (hs : s.phase = .idle) (hheld : s.portHeld q.port = true) :
    exec (command (portNumber q.port) q.idx) s = .next (done s q) := by
  rw [h, State.issue_idle hs, State.checkPin_ok hheld]

/-- R149. -/
theorem OnPin.checksPin (h : OnPin command done) : ChecksPin command := by
  intro port idx s hs
  rw [h, State.issue_idle hs]
  refine ⟨fun hb hc => ?_, ?_, ?_, ?_, ?_⟩
  · exact fatalWith_of_raise (State.checkPin_badPort hb hc idx _)
  · rintro rfl hheld
    exact fatalWith_of_raise (State.checkPin_notOwned (p := .b) hheld idx _)
  · rintro rfl hheld
    exact fatalWith_of_raise (State.checkPin_notOwned (p := .c) hheld idx _)
  · rintro rfl hheld hidx
    exact fatalWith_of_raise (State.checkPin_badPinIndex (p := .b) hheld hidx _)
  · rintro rfl hheld hidx
    exact fatalWith_of_raise (State.checkPin_badPinIndex (p := .c) hheld hidx _)

/-- R155. -/
theorem ConvertsPin.checksPlainPin (h : ConvertsPin command done) : ChecksPlainPin command := by
  intro q s hs hheld
  rw [OnPin.exec_eq h hs hheld]
  exact ⟨fun hfree => fatalWith_of_raise (State.checkPlainPin_free hfree _),
    fun hlocked hpin => fatalWith_of_raise (State.checkPlainPin_converted hlocked hpin _)⟩

theorem ConvertsPin.exec_eq (h : ConvertsPin command done) (hs : s.phase = .idle) (hheld : s.portHeld q.port = true)
    (hpin : s.capOf q = .pin) : exec (command (portNumber q.port) q.idx) s = .next (done s q) := by
  rw [OnPin.exec_eq h hs hheld, State.checkPlainPin_pin hpin]

end

end Sys2Proof.Laws

/-! ### The statements -/

namespace Sys2Proof.Proofs

open Sys2Proof.Machine Sys2Proof.Laws Sys2Proof.Safety

/-- Settles O39: each error by the first check that fails, the bit and the owner by what `setGate` writes; a port whose gate was
clear has no pin in use. -/
theorem portAcquireTakesThePortGate : Obligations.PortAcquireTakesThePortGate := by
  refine ⟨fun port hport => ?word, fun port s hs => ⟨fun hheld => ?_, fun hheld hb hc => ?_⟩,
    fun p s hs hheld => ⟨fun hset => ?gateSet, fun hclear => ?success⟩, fun s hs hheld hgate hscgc => ?worked, rfl⟩
  case word => exact decode_ofNat (by simp [Instr.WellFormed, Instr.wellFormed, hport]) rfl
  · simp [exec, execPortAcquire, hs, hheld, next_raise]
  · simp [exec, execPortAcquire, hs, hheld, portOf_eq_none.mpr ⟨hb, hc⟩, next_raise]
  case gateSet =>
    change exec (.portAcquire (portNumber p)) s = _
    simp [exec, execPortAcquire, hs, hheld, hset, next_raise]
  case success =>
    exact ⟨_, exec_portAcquire hs hheld hclear, rfl, (s.gateBit_setGate _ · true _), (s.ownerOf_setGate _ · true _),
      by simp, fun hinv => hinv.capOf_eq_free hclear⟩
  case worked =>
    have hportGate : s.params.portGate .b = ⟨.scgc5, 10⟩ := hgate
    have hclear : s.gateBit (s.params.portGate .b) = false := by
      rw [hportGate, State.gateBit, hscgc]
      decide
    refine ⟨_, exec_portAcquire (p := .b) hs hheld hclear, ?_, by simp⟩
    rw [State.scgcOf_setGate, hportGate, hscgc]
    decide

/-- Settles O40: each error by the first check that fails, the bit and the owner by what `setGate` writes. -/
theorem portReleaseUngatesAFreePort : Obligations.PortReleaseUngatesAFreePort := by
  refine ⟨fun port hport => ?word, fun port s hs hb hc => ?_,
    fun p s hs => ⟨fun hheld => ?notOwned, fun hheld hcap => ?inUse, fun hheld hfree => ?success⟩,
    fun s hs hgate hscgc hheld hfree => ?worked, rfl⟩
  case word => exact decode_ofNat (by simp [Instr.WellFormed, Instr.wellFormed, hport]) rfl
  · simp [exec, execPortRelease, hs, portOf_eq_none.mpr ⟨hb, hc⟩, next_raise]
  case notOwned =>
    change exec (.portRelease (portNumber p)) s = _
    simp [exec, execPortRelease, hs, hheld, next_raise]
  case inUse =>
    change exec (.portRelease (portNumber p)) s = _
    have huse : s.portInUse p = true := (s.portInUse_iff p).mpr (hcap.imp fun _ => State.locked_eq_true.mpr)
    simp [exec, execPortRelease, hs, hheld, huse, next_raise]
  case success =>
    exact ⟨_, exec_portRelease hs hheld hfree, rfl, (s.gateBit_setGate _ · false _), (s.ownerOf_setGate _ · false _),
      by simp⟩
  case worked =>
    have hportGate : s.params.portGate .b = ⟨.scgc5, 10⟩ := hgate
    refine ⟨_, exec_portRelease (p := .b) hs hheld hfree, ?_⟩
    rw [State.scgcOf_setGate, hportGate, hscgc]
    decide

/-- Settles O41: past `check_pin`, by whether the pin is locked. -/
theorem pinAcquireLocksThePin : Obligations.PinAcquireLocksThePin := by
  refine ⟨fun port idx hport hidx => ?word, onPin_pinAcquire.checksPin,
    fun q s hs hheld => ⟨fun hcap => ?locked, fun hcap => ?success⟩, rfl⟩
  case word => exact decode_ofNat (by simp [Instr.WellFormed, Instr.wellFormed, hport, hidx]) (Nat.add_assoc ..)
  case locked =>
    refine (onPin_pinAcquire.exec_eq hs hheld).trans ?_
    simp [State.locked_eq_true.mpr hcap, next_raise]
  case success =>
    refine ⟨s.setCap q .pin, (onPin_pinAcquire.exec_eq hs hheld).trans ?_, rfl, (s.capOf_setCap q · .pin),
      s.getLsbD_locks_setCap q .pin⟩
    simp [State.locked_eq_false.mpr hcap]

/-- Settles O42: past `check_pin`, by whether the pin is locked. -/
theorem pinReleaseFreesThePin : Obligations.PinReleaseFreesThePin := by
  refine ⟨fun port idx hport hidx => ?word, onPin_pinRelease.checksPin,
    fun q s hs hheld => ⟨fun hcap => ?unlocked, fun hcap => ?success⟩, rfl⟩
  case word => exact decode_ofNat (by simp [Instr.WellFormed, Instr.wellFormed, hport, hidx]) (Nat.add_assoc ..)
  case unlocked =>
    refine (onPin_pinRelease.exec_eq hs hheld).trans ?_
    simp [State.locked_eq_false.mpr hcap, next_raise]
  case success =>
    refine ⟨s.setCap q .free, (onPin_pinRelease.exec_eq hs hheld).trans ?_, rfl, (s.capOf_setCap q · .free),
      s.getLsbD_locks_setCap q .free⟩
    simp [State.locked_eq_true.mpr hcap]

/-- Settles O43: the common checks, then what `convert` writes. -/
theorem makeGpioWritesMuxOne : Obligations.MakeGpioWritesMuxOne := by
  refine ⟨fun port idx hport hidx => ?word, convertsPin_pinMakeGpio.checksPin, convertsPin_pinMakeGpio.checksPlainPin,
    fun q s hs hheld hpin => ?success, fun s hs hheld hpin hpcr => ?worked, rfl⟩
  case word => exact decode_ofNat (by simp [Instr.WellFormed, Instr.wellFormed, hport, hidx]) (Nat.add_assoc ..)
  case success =>
    exact ⟨_, convertsPin_pinMakeGpio.exec_eq hs hheld hpin, s.convert_effect q (by decide) .gpio⟩
  case worked =>
    refine ⟨_, convertsPin_pinMakeGpio.exec_eq (q := ⟨.c, 5⟩) hs hheld hpin, ?_, by simp⟩
    rw [State.pcrOf_convert, hpcr]
    decide

/-- Settles O44: the common checks, then those of `convertWired`, then what `convert` writes. -/
theorem makeRxNeedsTheWiredPin : Obligations.MakeRxNeedsTheWiredPin := by
  refine ⟨fun unit port idx hunit hport hidx => ?word,
    fun unit => ⟨(convertsPin_pinMakeRx unit).checksPin, (convertsPin_pinMakeRx unit).checksPlainPin⟩,
    fun unit q s hs hheld hpin => ?pin, rfl⟩
  case word =>
    exact decode_ofNat (by simp [Instr.WellFormed, Instr.wellFormed, hunit, hport, hidx])
      (by simp only [Instr.opcode, Instr.operandBits, Nat.add_assoc])
  case pin =>
    obtain ⟨hbadUnit, hmismatch, hwired⟩ := s.convertWired_eq unit s.params.rxPin .rxPinMismatch .rx q
    rw [(convertsPin_pinMakeRx unit).exec_eq hs hheld hpin]
    exact ⟨fun hunit => fatalWith_of_raise (hbadUnit hunit), fun hunit hq => fatalWith_of_raise (hmismatch hunit hq),
      fun hunit hq => ⟨_, congrArg Host.Outcome.next (hwired hunit hq), s.convert_effect q (by decide) (.rx .unit0)⟩⟩

/-- Settles O45: the common checks, then those of `convertWired`, then what `convert` writes. -/
theorem makeTxNeedsTheWiredPin : Obligations.MakeTxNeedsTheWiredPin := by
  refine ⟨fun unit port idx hunit hport hidx => ?word,
    fun unit => ⟨(convertsPin_pinMakeTx unit).checksPin, (convertsPin_pinMakeTx unit).checksPlainPin⟩,
    fun unit q s hs hheld hpin => ?pin, rfl⟩
  case word =>
    exact decode_ofNat (by simp [Instr.WellFormed, Instr.wellFormed, hunit, hport, hidx])
      (by simp only [Instr.opcode, Instr.operandBits, Nat.add_assoc])
  case pin =>
    obtain ⟨hbadUnit, hmismatch, hwired⟩ := s.convertWired_eq unit s.params.txPin .txPinMismatch .tx q
    rw [(convertsPin_pinMakeTx unit).exec_eq hs hheld hpin]
    exact ⟨fun hunit => fatalWith_of_raise (hbadUnit hunit), fun hunit hq => fatalWith_of_raise (hmismatch hunit hq),
      fun hunit hq => ⟨_, congrArg Host.Outcome.next (hwired hunit hq), s.convert_effect q (by decide) (.tx .unit0)⟩⟩

end Sys2Proof.Proofs
end

section
/-!
PROOFS. The statements of 45_token_manager.md: what the acquire and release commands of the three singletons do, who writes
their flags, and that a resource just acquired, be it a singleton, a gate, a port or a pin, is exclusive until its release.
-/

/-! ### Right after reset -/

namespace Sys2Proof.Machine

/-- R37, R51: right after reset only the singleton flags and the mode that an acquire sets show in STATUS; every other field
of it is zero. -/
theorem State.status_ofParams (p : Params) (osc mcg sim : Bool) (m : Mode) :
    ({ State.ofParams p with oscHeld := osc, mcgHeld := mcg, simHeld := sim, mode := m } : State).status =
      0#8 ++ 0#1 ++ 0#1 ++ 0#1 ++ flag sim ++ flag osc ++ flag mcg ++ BitVec.ofNat 2 m.number ++ 0#8 ++ 0#3 ++ 0#3 ++ 0#1
        ++ 0#1 := by
  have hport (q : Port) :
      ({ State.ofParams p with oscHeld := osc, mcgHeld := mcg, simHeld := sim, mode := m } : State).portHeld q = false :=
    (State.ofParams p).portHeld_resetBlock q
  simp only [State.status, hport]
  rfl

/-- R52, R101: the status recommended for reset shows the internal clock. -/
theorem classify_mcgS_ofParams {p : Params} (h : p.rstS = 0x10) : classify (State.ofParams p).mcgS = .internalLocked :=
  (congrArg classify h).trans (by decide)

end Sys2Proof.Machine

/-! ### The commands, by the check that decides -/

namespace Sys2Proof.Laws

open Sys2Proof.Machine Sys2Proof.Safety

/-- R199: in a wait phase every command raises CMD_WHILE_BUSY. -/
theorem exec_of_isWait {s : State} (h : s.phase.isWait = true) (i : Instr) : exec i s = fatalWith s .cmdWhileBusy := by
  obtain ⟨d, hexec, -⟩ := exec_outcome i s
  exact hexec.trans (fatalWith_of_raise (State.issue_wait h d))

/-- A command that answers in IDLE was performed there: every error leaves FATAL. -/
theorem performed_of_idle {i : Instr} {s t : State} (h : exec i s = .next t) (hidle : t.phase = .idle) :
    s.phase = .idle ∧ Performed i s t := by
  rcases exec_next h with ⟨hfatal, rfl⟩ | ⟨_, c, rfl⟩ | hperformed
  · simp [hfatal] at hidle
  · simp at hidle
  · exact hperformed

section
variable {s : State} (hs : s.phase = .idle)
include hs

/-! The singletons (R176 to R181). -/

theorem exec_oscAcquire (h : s.oscHeld = false) : exec .oscAcquire s = .next { s with oscHeld := true } := by
  simp [exec, execOscAcquire, hs, h]

theorem exec_oscAcquire_held (h : s.oscHeld = true) : exec .oscAcquire s = fatalWith s .oscOwned := by
  simp [exec, execOscAcquire, hs, h, next_raise]

theorem exec_oscRelease (h : s.oscHeld = true) : exec .oscRelease s = .next { s with oscHeld := false } := by
  simp [exec, execOscRelease, hs, h]

theorem exec_mcgAcquire (h : s.mcgHeld = false) (hmode : classify s.mcgS ≠ .noMode) :
    exec .mcgAcquire s = .next { s with mcgHeld := true, mode := classify s.mcgS } := by
  simp [exec, execMcgAcquire, hs, h, bne_iff_ne.mpr hmode]

theorem exec_mcgAcquire_held (h : s.mcgHeld = true) : exec .mcgAcquire s = fatalWith s .mcgOwned := by
  simp [exec, execMcgAcquire, hs, h, next_raise]

theorem exec_mcgRelease (h : s.mcgHeld = true) :
    exec .mcgRelease s = .next { s with mcgHeld := false, mode := .noMode } := by
  simp [exec, execMcgRelease, hs, h]

theorem exec_simAcquire (h : s.simHeld = false) : exec .simAcquire s = .next { s with simHeld := true } := by
  simp [exec, execSimAcquire, hs, h]

theorem exec_simAcquire_held (h : s.simHeld = true) : exec .simAcquire s = fatalWith s .simOwned := by
  simp [exec, execSimAcquire, hs, h, next_raise]

theorem exec_simRelease (h : s.simHeld = true) : exec .simRelease s = .next { s with simHeld := false } := by
  simp [exec, execSimRelease, hs, h]

/-! Gates, ports and pins (R140, R151, R153, R154). -/

theorem exec_gateAcquire_set {g : Gate} (hheld : s.simHeld = true) (hset : s.gateBit g = true) :
    exec (.gateAcquire (gateRegNumber g.reg) g.bit) s = fatalWith s .gateSet := by
  simp [exec, execGateAcquire, hs, hheld, hset, next_raise]

theorem exec_portAcquire_set {p : Port} (hheld : s.simHeld = true) (hset : s.gateBit (s.params.portGate p) = true) :
    exec (.portAcquire (portNumber p)) s = fatalWith s .gateSet := by
  simp [exec, execPortAcquire, hs, hheld, hset, next_raise]

theorem exec_pinAcquire {q : Pin} (hheld : s.portHeld q.port = true) (hfree : s.locked q = false) :
    exec (.pinAcquire (portNumber q.port) q.idx) s = .next (s.setCap q .pin) := by
  simp [onPin_pinAcquire.exec_eq hs hheld, hfree]

theorem exec_pinAcquire_locked {q : Pin} (hheld : s.portHeld q.port = true) (hlocked : s.locked q = true) :
    exec (.pinAcquire (portNumber q.port) q.idx) s = fatalWith s .pinLocked := by
  simp [onPin_pinAcquire.exec_eq hs hheld, hlocked, next_raise]

theorem exec_pinRelease {q : Pin} (hheld : s.portHeld q.port = true) (hlocked : s.locked q = true) :
    exec (.pinRelease (portNumber q.port) q.idx) s = .next (s.setCap q .free) := by
  simp [onPin_pinRelease.exec_eq hs hheld, hlocked]

end

/-! ### The writers of the singleton flags -/

namespace Performed

variable {i : Instr} {s t : State}

theorem oscHeld_writers (h : Performed i s t) (hne : t.oscHeld ≠ s.oscHeld) : i = .oscAcquire ∨ i = .oscRelease := by
  cases h with
  | oscAcquire => exact .inl rfl
  | oscRelease => exact .inr rfl
  | _ => exact absurd rfl hne

theorem mcgHeld_writers (h : Performed i s t) (hne : t.mcgHeld ≠ s.mcgHeld) : i = .mcgAcquire ∨ i = .mcgRelease := by
  cases h with
  | mcgAcquire => exact .inl rfl
  | mcgRelease => exact .inr rfl
  | _ => exact absurd rfl hne

theorem simHeld_writers (h : Performed i s t) (hne : t.simHeld ≠ s.simHeld) : i = .simAcquire ∨ i = .simRelease := by
  cases h with
  | simAcquire => exact .inl rfl
  | simRelease => exact .inr rfl
  | _ => exact absurd rfl hne

end Performed

end Sys2Proof.Laws

/-! ### The statements -/

namespace Sys2Proof.Proofs

open Sys2Proof.Machine Sys2Proof.Laws Sys2Proof.Safety

/-- Settles O13, by whether the flag is set; after reset it is not. -/
theorem oscAcquireSetsItsFlag : Obligations.OscAcquireSetsItsFlag :=
  ⟨by decide, fun _ hs => ⟨exec_oscAcquire_held hs, exec_oscAcquire hs⟩,
    fun p => ⟨_, exec_oscAcquire rfl rfl, State.status_ofParams p true false false .noMode⟩, rfl⟩

/-- Settles O14, by whether the flag is set. -/
theorem oscReleaseClearsItsFlag : Obligations.OscReleaseClearsItsFlag := by
  refine ⟨by decide, fun s hs => ⟨fun hfree => ?notOwned, exec_oscRelease hs⟩, rfl⟩
  case notOwned => simp [exec, execOscRelease, hs, hfree, next_raise]

/-- Settles O15, by whether the flag is set and whether the status is a mode. -/
theorem mcgAcquireTakesTheClassifiedMode : Obligations.McgAcquireTakesTheClassifiedMode := by
  refine ⟨by decide, fun s hs => ⟨exec_mcgAcquire_held hs, fun hfree hmode => ?mismatch, exec_mcgAcquire hs⟩,
    fun p hrst => ?reset, by decide, by decide, rfl, rfl⟩
  case mismatch => simp [exec, execMcgAcquire, hs, hfree, hmode, next_raise]
  case reset =>
    have hmode := classify_mcgS_ofParams hrst
    refine ⟨_, exec_mcgAcquire rfl rfl (by simp [hmode]), hmode, ?_⟩
    rw [hmode]
    exact State.status_ofParams p false true false .internalLocked

/-- Settles O16, by whether the flag is set; the example goes on from that of MCG_ACQUIRE. -/
theorem mcgReleaseEndsTheMode : Obligations.McgReleaseEndsTheMode := by
  refine ⟨by decide, fun s hs => ⟨fun hfree => ?notOwned, exec_mcgRelease hs⟩, fun s hwait => exec_of_isWait hwait _,
    fun p hrst => ?reset, rfl, rfl⟩
  case notOwned => simp [exec, execMcgRelease, hs, hfree, next_raise]
  case reset =>
    have hmode := classify_mcgS_ofParams hrst
    exact ⟨_, _, exec_mcgAcquire rfl rfl (by simp [hmode]), exec_mcgRelease rfl rfl, rfl, rfl,
      State.status_ofParams p false false false .noMode⟩

/-- Settles O17, by whether the flag is set; after reset it is not. -/
theorem simAcquireSetsItsFlag : Obligations.SimAcquireSetsItsFlag :=
  ⟨by decide, fun _ hs => ⟨exec_simAcquire_held hs, exec_simAcquire hs⟩,
    fun p => ⟨_, exec_simAcquire rfl rfl, State.status_ofParams p false false true .noMode⟩, rfl⟩

/-- Settles O18: the acquires and the dividers check the flag first, the releases never do. -/
theorem simReleaseKeepsGatesAndPorts : Obligations.SimReleaseKeepsGatesAndPorts := by
  refine ⟨by decide, fun s hs => ⟨fun hfree => ?notOwned, exec_simRelease hs⟩,
    fun s a b c hs hfree => ⟨?gateAcquire, ?portAcquire, ?setDividers⟩, fun s g hs _ howner => ?gateRelease,
    fun s p hs _ hheld hpins => ?portRelease, rfl⟩
  case notOwned => simp [exec, execSimRelease, hs, hfree, next_raise]
  case gateAcquire => simp [exec, execGateAcquire, hs, hfree, next_raise]
  case portAcquire => simp [exec, execPortAcquire, hs, hfree, next_raise]
  case setDividers => simp [exec, execSimSetDividers, hs, hfree, next_raise]
  case gateRelease => exact ⟨_, exec_gateRelease hs howner, by simp⟩
  case portRelease => exact ⟨_, exec_portRelease hs hheld hpins, by simp⟩

/-- Settles O19, by what a performed command writes and what the turns of BLOCK and ENV write. -/
theorem singletonFlagsChangeOnlyByTheirCommands : Obligations.SingletonFlagsChangeOnlyByTheirCommands := by
  refine ⟨fun i s t h => ⟨fun hne => ?osc, fun hne => ?mcg, fun hne => ?sim⟩, fun s t v h => ?turn⟩
  case osc => exact (performed_of_changed State.oscHeld (fun _ => rfl) h hne).oscHeld_writers hne
  case mcg => exact (performed_of_changed State.mcgHeld (fun _ => rfl) h hne).mcgHeld_writers hne
  case sim => exact (performed_of_changed State.simHeld (fun _ => rfl) h hne).simHeld_writers hne
  case turn =>
    obtain ⟨p, m, w, rfl⟩ := State.take_block_or_env h
    exact ⟨rfl, rfl, rfl⟩

/-- Settles O46: the acquire that completed was performed, so the flag is set until the release clears it; the status, by which
the clock generator is acquired again, is the same. -/
theorem singletonsAreExclusive : Obligations.SingletonsAreExclusive := by
  refine ⟨fun s t h hidle => ?osc, fun s t h hidle => ?mcg, fun s t h hidle => ?sim⟩ <;>
    obtain ⟨hs, hperformed⟩ := performed_of_idle h hidle
  case osc =>
    cases hperformed with
    | oscAcquire =>
      exact ⟨exec_oscAcquire_held hs rfl, _, _, exec_oscRelease hs rfl, exec_oscAcquire hs rfl, hs, rfl⟩
  case mcg =>
    cases hperformed with
    | mcgAcquire _ hmode =>
      exact ⟨exec_mcgAcquire_held hs rfl, _, _, exec_mcgRelease hs rfl, exec_mcgAcquire hs rfl hmode, hs, rfl⟩
  case sim =>
    cases hperformed with
    | simAcquire =>
      exact ⟨exec_simAcquire_held hs rfl, _, _, exec_simRelease hs rfl, exec_simAcquire hs rfl, hs, rfl⟩

/-- Settles O47: the acquire that completed was performed, so the gate bit or the lock is set until the release clears it. The
gate of the port was clear before, so by the invariant no pin of the port is in use and the release is not refused. -/
theorem gatesPortsAndPinsAreExclusive : Obligations.GatesPortsAndPinsAreExclusive := by
  refine ⟨fun s t reg bit h hidle => ?gate, fun s t port hinv h hidle => ?port, fun s t port idx h hidle => ?pin⟩ <;>
    obtain ⟨hs, hperformed⟩ := performed_of_idle h hidle
  case gate =>
    cases hperformed with
    | gateAcquire g hheld =>
      exact ⟨exec_gateAcquire_set hidle hheld (by simp), _, _, exec_gateRelease hidle (by simp),
        exec_gateAcquire (by exact hs) (by exact hheld) (by simp), hs⟩
  case port =>
    cases hperformed with
    | portAcquire p hheld hclear =>
      exact ⟨exec_portAcquire_set hidle hheld (by simp), _, _,
        exec_portRelease hidle (by simp) (hinv.capOf_eq_free hclear),
        exec_portAcquire (by exact hs) (by exact hheld) (by simp), hs⟩
  case pin =>
    cases hperformed with
    | pinAcquire q hheld =>
      exact ⟨exec_pinAcquire_locked hidle hheld (by simp), _, _, exec_pinRelease hidle hheld (by simp),
        exec_pinAcquire (by exact hs) (by exact hheld) (by simp), hs⟩

end Sys2Proof.Proofs
end

section
/-!
PROOFS. The statements of 60_exceptions.md: a CMD write in a wait phase and in FATAL, what the entry into FATAL changes, the
one way out of FATAL and the one way in, and the numbers of the fatal codes.
-/

/-! ### The codes, the STATUS word of an error, and the accesses of HOST -/

namespace Sys2Proof.Machine

/-- The rows of R193, in the order of their numbers; `FatalCode.mem_rows` says that no code is missing. -/
def FatalCode.rows : List FatalCode :=
  [.badCapacitance, .badRange, .badDivisor, .badPllNumerator, .badPllDenominator, .badDividerCore, .badDividerBus,
   .badDividerFlash, .badGateRegister, .badGateBit, .badPort, .badPinIndex, .badSerialUnit, .modeMismatch, .oscOwned,
   .mcgOwned, .simOwned, .gateSet, .pinLocked, .rxPinMismatch, .txPinMismatch, .notOwned, .illegalTransition, .noOscToken,
   .pinAlreadyConverted, .portInUse, .cmdWhileBusy, .undefinedOpcode, .reservedNonzero]

theorem FatalCode.mem_rows (c : FatalCode) : c ∈ rows := by
  cases c <;> decide

theorem FatalCode.nodup_code_rows : (rows.map code).Nodup := by decide

theorem FatalCode.code_injective : Function.Injective code := fun c d =>
  List.inj_on_of_nodup_map nodup_code_rows c.mem_rows d.mem_rows

theorem FatalCode.code_ne_zero (c : FatalCode) : c.code ≠ 0x00 := by
  have hrows : ∀ d ∈ rows, d.code ≠ 0x00 := by decide
  exact hrows c c.mem_rows

/-- R37, R195: after an error STATUS is its upper half from before, the code, and PHASE 7 with FATAL 1 and BUSY 0. -/
theorem State.status_raise (s : State) (c : FatalCode) :
    (s.raise c).status = s.status.extractLsb' 16 16 ++ c.code ++ 0x1E#8 := by
  have hlow (x : BitVec 24) : x ++ 0#3 ++ 7#3 ++ 1#1 ++ 0#1 = x ++ 0x1E#8 := by
    rw [BitVec.append_assoc, BitVec.append_assoc, BitVec.append_assoc]
    rfl
  simp (disch := omega) only [State.status, BitVec.extractLsb'_append_eq_of_le, Nat.reduceSub,
    BitVec.extractLsb'_eq_self]
  exact hlow _

/-- R37, R195: the fields of STATUS above CODE are as before an error. -/
theorem State.field_status_raise_high (s : State) (c : FatalCode) :
    field (s.raise c).status 16 8 = field s.status 16 8 := by
  simp (disch := omega) only [State.status_raise, field_append_high, Nat.reduceSub]
  simp [field]

/-- R69: what a read answers elsewhere than at STATUS has no part in the phase and the code. -/
theorem State.memRead_raise (s : State) (c : FatalCode) {a : Word} (n : Nat) (ha : regionAt s.params a ≠ some .status) :
    (s.raise c).memRead a n = s.memRead a n := by
  unfold State.memRead
  cases hr : regionAt s.params a with
  | none => simp [refused, hr]
  | some r =>
    have hne : r ≠ .status := fun he => ha (he ▸ hr)
    have hopen : (s.raise c).gateOpen r = s.gateOpen r := by cases r <;> rfl
    simp [hr, hopen, s.regionValue_raise hne]

/-- R66: only the 32-bit access at the address of CMD reaches CMD. -/
theorem ctrlBase_of_not_refused {p : Params} {a : Word} {n : Nat} {write : Bool} (h : refused p a n write = false)
    (hr : regionAt p a = some .cmd) : a = p.ctrlBase ∧ n = 4 := by
  simp only [refused, hr, Region.bytes, Region.writable, Bool.not_true, Bool.and_false, Bool.or_false, Bool.or_eq_false_iff,
    bne_eq_false_iff_eq] at h
  obtain ⟨rfl, halign⟩ := h
  exact ⟨BitVec.eq_of_toNat_eq (addr_of_regionAt hr halign), rfl⟩

/-- R66, R70: a host write that answers is ignored, or is the 32-bit write at the address of CMD. -/
theorem State.memWrite_cases {s t : State} {a v : Word} {n : Nat} (h : s.memWrite a n v = .next t) :
    t = s ∨ (a = s.params.ctrlBase ∧ n = 4) := by
  unfold State.memWrite at h
  split at h
  · cases h
  · rename_i haccepted
    split at h
    · exact .inr (ctrlBase_of_not_refused (by simpa using haccepted) ‹_›)
    · exact .inl (Host.Outcome.next.inj h).symm

/-- BLOCK has no transition from FATAL. -/
theorem State.poll_of_fatal {s : State} (h : s.phase = .fatal) : s.poll = s :=
  if_neg (by simp [State.blockEnabled, h, Phase.awaited])

end Sys2Proof.Machine

/-! ### A word written to CMD, and the turns, by the phase -/

namespace Sys2Proof.Laws

open Sys2Proof.Machine Sys2Proof.Safety

/-- R89: whatever the word, a CMD write begins with the checks on the phase. -/
theorem memWrite_cmd_eq_issue (s : State) (w : Word) :
    ∃ d, s.memWrite s.params.ctrlBase 4 w = .next (s.issue d) := by
  rw [State.memWrite_cmd]
  unfold issueWord
  split
  next i _ =>
    obtain ⟨d, hexec, -⟩ := exec_outcome i s
    exact ⟨d, hexec⟩
  next e _ => exact ⟨_, rfl⟩

section
variable {s t : State}

/-- R197: in FATAL a host access that answers leaves all but the value HOST has read. -/
theorem access_of_fatal (hs : s.phase = .fatal) {a : Access} (h : s.access a = .next t) :
    ∃ v, t = { s with readData := v } := by
  rcases access_cases h with hread | ⟨hne, _⟩ | ⟨i, hidle, _⟩
  · exact hread
  · exact absurd hs hne
  · simp [hs] at hidle

theorem hostStep_of_fatal (hs : s.phase = .fatal) (h : s.hostStep = .next t) :
    t.phase = .fatal ∧ t.fatalCode = s.fatalCode := by
  unfold State.hostStep at h
  split at h
  · obtain rfl := Host.Outcome.next.inj h
    exact ⟨hs, rfl⟩
  · obtain ⟨v, rfl⟩ := access_of_fatal (by exact hs) h
    exact ⟨hs, rfl⟩

/-- R196: no agent's turn leaves FATAL or overwrites the code. -/
theorem take_of_fatal (hs : s.phase = .fatal) {u : Turn} (hu : ∀ src, u ≠ .reset src) (h : s.take u = .next t) :
    t.phase = .fatal ∧ t.fatalCode = s.fatalCode := by
  cases u with
  | host => exact hostStep_of_fatal hs h
  | block =>
    obtain rfl := Host.Outcome.next.inj h
    simp [State.poll_of_fatal hs, hs]
  | env drawn =>
    obtain rfl := Host.Outcome.next.inj h
    obtain ⟨v, hv⟩ := s.envStep_eq drawn
    simp [hv, hs]
  | reset src => exact absurd rfl (hu src)

/-- R192: a poll step raises nothing. -/
theorem poll_phase_ne_fatal (hs : s.phase ≠ .fatal) : s.poll.phase ≠ .fatal := by
  rcases s.poll_cases with ⟨_, hpoll⟩ | ⟨_, hpoll⟩ <;> rw [hpoll]
  · rcases advance_phase_cases s with h | h | ⟨_, h⟩ | ⟨_, h⟩ | ⟨_, h⟩ <;> simp [h, hs]
  · exact hs

/-- R192: the turns of BLOCK and ENV and a reset raise nothing. -/
theorem take_phase_ne_fatal (hs : s.phase ≠ .fatal) {u : Turn} (hu : u ≠ .host) (h : s.take u = .next t) :
    t.phase ≠ .fatal := by
  cases u with
  | host => exact absurd rfl hu
  | block =>
    obtain rfl := Host.Outcome.next.inj h
    exact poll_phase_ne_fatal hs
  | env drawn =>
    obtain rfl := Host.Outcome.next.inj h
    obtain ⟨v, hv⟩ := s.envStep_eq drawn
    simp [hv, hs]
  | reset src =>
    obtain rfl := Host.Outcome.next.inj h
    simp

/-- R195: a command enters FATAL by raising an error only. -/
theorem eq_raise_of_exec {i : Instr} (h : exec i s = .next t) (hs : s.phase ≠ .fatal) (ht : t.phase = .fatal) :
    ∃ c, t = s.raise c := by
  rcases exec_next h with ⟨hfatal, _⟩ | ⟨_, hraise⟩ | ⟨hidle, hperformed⟩
  · exact absurd hfatal hs
  · exact hraise
  · exact absurd ht (hperformed.phase_ne_fatal hidle)

end

end Sys2Proof.Laws

/-! ### The statements -/

namespace Sys2Proof.Proofs

open Sys2Proof.Machine Sys2Proof.Laws Sys2Proof.Safety

/-- Settles O6, by the check on the phase that every CMD write begins with. -/
theorem commandWhileBusyIsFatal : Obligations.CommandWhileBusyIsFatal := by
  refine ⟨fun w s hwait => ?busy, rfl, fun w s hw hc => ?notBusy⟩ <;>
    obtain ⟨d, hd⟩ := memWrite_cmd_eq_issue s w
  case busy => exact hd.trans (fatalWith_of_raise (State.issue_wait hwait d))
  case notBusy =>
    exact ⟨_, hd, issueWord_fatalCode_ne_cmdWhileBusy hw hc ((s.memWrite_cmd w).symm.trans hd)⟩

/-- Settles O8: the check on the phase ignores the write, and a register other than STATUS reads as before the error. -/
theorem commandsInFatalAreIgnored : Obligations.CommandsInFatalAreIgnored := by
  refine ⟨fun w s hs => ?write, fun s c a n => s.memRead_raise c n,
    fun s => s.memRead_window (k := 4) (by decide) (by decide)⟩
  case write =>
    obtain ⟨d, hd⟩ := memWrite_cmd_eq_issue s w
    rw [hd, State.issue_fatal hs]

/-- Settles O9: the entry is `State.raise`, and STATUS after it keeps its upper half. -/
theorem fatalEntryWritesNothingElse : Obligations.FatalEntryWritesNothingElse := by
  refine ⟨fun i s t => eq_raise_of_exec, fun s c => ?status, fun p => ?sample⟩
  case status =>
    obtain ⟨hbusy, hfatal, hphase, -, hcode, -⟩ := (s.raise c).field_status
    exact ⟨hfatal, hbusy, hphase, hcode, s.field_status_raise_high c⟩
  case sample =>
    refine (State.status_raise { State.ofParams p with
      oscHeld := false, mcgHeld := true, simHeld := false, mode := .internalLocked } .noOscToken).trans ?_
    rw [State.status_ofParams]
    decide

/-- Settles O10, by whose turn it is: a listed one, or the one of the deterministic order, which is never a reset. -/
theorem fatalIsLeftOnlyByReset : Obligations.FatalIsLeftOnlyByReset := by
  refine ⟨fun s t hs h hreset => ?kept, fun s src rest hturns => ?left⟩
  case kept =>
    cases hturns : s.schedule with
    | nil =>
      rcases step_default_cases hturns h with rfl | ⟨v, rfl⟩ | ⟨_, hhost⟩
      · exact take_of_fatal hs (u := .block) (by simp) rfl
      · exact ⟨hs, rfl⟩
      · exact hostStep_of_fatal hs hhost
    | cons u rest =>
      rw [step_of_schedule hturns] at h
      exact take_of_fatal (s := { s with schedule := rest }) hs (fun src he => hreset src rest (he ▸ hturns)) h
  case left => exact ⟨_, step_of_schedule hturns, rfl, rfl⟩

/-- Settles O11, by the turn, and for HOST by its access: a read records a value, and a write elsewhere than at CMD does
nothing. -/
theorem onlyCommandWritesRaiseFatal : Obligations.OnlyCommandWritesRaiseFatal := by
  refine ⟨fun s t u hu hs => take_phase_ne_fatal hs hu, fun s t a hs h ht => ?access⟩
  cases a with
  | read a n =>
    obtain ⟨⟨v, _, rfl⟩, _⟩ := readsChangeNothing s t a n h
    exact absurd ht hs
  | write a n w =>
    rcases State.memWrite_cases h with rfl | ⟨rfl, rfl⟩
    · exact absurd ht hs
    · exact ⟨w, rfl⟩

/-- Settles O12: the codes are the rows of the table, whose numbers are written out. -/
theorem fatalCodesHaveTheirNumbers : Obligations.FatalCodesHaveTheirNumbers :=
  ⟨fun _ _ h => FatalCode.code_injective h, FatalCode.code_ne_zero, rfl, rfl, rfl, rfl⟩

end Sys2Proof.Proofs
end

section
/-!
PROOFS. The statements of 70_reset_and_hazards.md: the deterministic order of a machine with no turn listed.
-/

/-! ### A step once ENV has nothing to settle -/

namespace Sys2Proof.Laws

open Sys2Proof.Machine

variable {s : State}

/-- R8: with its program at an end, HOST's turn is a hold. -/
theorem hostStep_of_program_nil (h : s.program = []) : s.hostStep = .next s := by
  rw [State.hostStep, h]

/-- R231: where neither BLOCK nor ENV moves, HOST does if it has an access left and the block is not busy. -/
theorem defaultTurn_of_settled (hblock : s.blockEnabled = false) (henv : s.params.env = .free ∨ s.mcgS = s.settle) :
    s.defaultTurn = if s.program ≠ [] ∧ s.busy = false then some .host else none := by
  have hsettled : ¬(s.params.env = .reference ∧ s.mcgS ≠ s.settle) := by
    rintro ⟨href, hne⟩
    exact henv.elim (by simp [href]) hne
  rw [State.defaultTurn, if_neg (by simp [hblock]), if_neg hsettled]

/-- R9, R231: where neither BLOCK nor ENV moves, a step is HOST's turn, which the block holds up while it is busy. -/
theorem step_of_settled (hturns : s.schedule = []) (hblock : s.blockEnabled = false)
    (henv : s.params.env = .free ∨ s.mcgS = s.settle) :
    step s = if s.busy = true then .next s else s.take .host := by
  simp only [step, State.turn, hturns, defaultTurn_of_settled hblock henv]
  cases hbusy : s.busy with
  | true => simp
  | false =>
    by_cases hprogram : s.program = []
    · simp [hprogram, State.take, hostStep_of_program_nil hprogram]
    · simp [hprogram]

end Sys2Proof.Laws

/-! ### The statement -/

namespace Sys2Proof.Proofs

open Sys2Proof.Machine Sys2Proof.Laws

/-- Settles O60, by who is the first to move; a HOST with no access left holds, as its turn does. -/
theorem defaultOrderIsBlockEnvHost : Obligations.DefaultOrderIsBlockEnvHost := by
  refine fun s hturns => ⟨fun hblock => ?block, fun hblock henv hne => ?env, fun hblock henv hidle => ?host,
    fun hblock henv hbusy => ?hold⟩
  case block => rw [step_of_blockEnabled hturns hblock, State.take, State.poll, if_pos hblock]
  case env => exact step_of_unsettled hturns hblock henv hne
  case host => rw [step_of_settled hturns hblock henv, if_neg (by simp [hidle])]
  case hold => rw [step_of_settled hturns hblock henv, if_pos hbusy]

end Sys2Proof.Proofs
end
